-- ==== Sys2Proof/Word.lean ====
section
/-! DEFINITION. The plain types of the FastHash CORE: words, bytes, command words, register indices
and immediates (`00_scope.md` R9, `30_encoding.md` R53, R54), and the three parameters of R7 that
shape them. -/

namespace Sys2Proof

/-- `W`: the datapath word width in bits (R7). R9 and R10 fix it: a `u64` lies in `[0, 2^64)` and
arithmetic is modulo 2^64. -/
abbrev Config.W : Nat := 64

/-- `NREG`: the number of operand registers (R7, R17). The four-bit index fields of R54 and the
register map of R20 fix it. -/
abbrev Config.NREG : Nat := 16

/-- `NACC`: the number of accumulator words (R7). R30 fixes it: it names the eight. -/
abbrev Config.NACC : Nat := 8

/-- A `u64`: the contents of an operand register or of an accumulator word, an offset or a length
(R9, R17, R30). `+`, `-`, `*`, `^^^`, `&&&`, `|||` on it are R10's operators: modulo 2^64. -/
abbrev Word := BitVec Config.W

/-- A `u8`: one byte of the input buffer (R9, R29). -/
abbrev Byte := BitVec 8

/-- A 32-bit command word as the host writes it to `CMD` (R21, R53). -/
abbrev CmdWord := BitVec 32

/-- An operand register index 0 to 15 (R17, R54). -/
abbrev Reg := Fin Config.NREG

/-- The six-bit immediate, an unsigned integer 0 to 63 (R54, R57). -/
abbrev Imm6 := Fin 64

end Sys2Proof
end

