-- ==== Sys2Proof/Config.lean ====
section
/-! DEFINITION. What the spec leaves to the implementation: the named parameters of `00_scope.md` R7
with the defaults it adopts, and the free values, which have no body. `W`, `NREG` and `NACC` are in
`Word.lean`; `STEPS(cmd)` is the number of turns the core takes (assumption 10). -/

namespace Sys2Proof

/-- The parameters of R7 that a model takes as arguments. Every machine has its own, in its state:
what is said of every state is said for all their values. -/
structure Params where
  /-- `ADDR_W`: the width in bits of a buffer offset and of a length (R7, D26). At most 64, the
  width of the registers that hold them (R26, R31; assumption 17). -/
  ADDR_W : Fin 65
  /-- `K0` (R7, R33). -/
  K0 : Word
  /-- `K1` (R7, R33). -/
  K1 : Word
  /-- `K2` (R7, R33). -/
  K2 : Word
  /-- `KMUL`, the multiplier of Hash128to64 (R7, R33). -/
  KMUL : Word
  /-- `SEED_NA`, the seed of the one-seed loop and the default first seed (R7, R33). -/
  SEED_NA : Word
  /-- `C113`, the additive constant of the loop initialisations (R7, R33). -/
  C113 : Word
  deriving DecidableEq, Repr

/-- The greatest length and the greatest offset of `ADDR_W` bits: `2^ADDR_W - 1` (R29, R136). -/
def Params.maxLen (P : Params) : Nat := 2 ^ P.ADDR_W.val - 1

/-- The values the spec adopts for the hardware (R7; assumption 1). -/
def Config.default : Params where
  ADDR_W := 64
  K0 := 0xC3A5C85C97CB3127#64
  K1 := 0xB492B66BE98F6C17#64
  K2 := 0x9AE16A3B2F90404F#64
  KMUL := 0x9DDFEA08EB382D69#64
  SEED_NA := 81#64
  C113 := 113#64

/-- Free values: the `n`-th word the spec leaves open. Nothing constrains it. It stands for the
internal words between commands (R32, R146, U14) and for what a command writes after the host
changed the buffer while it ran (R48, U4). Assumptions 2 and 3. -/
opaque Config.freeWord : Nat → Word

/-- Free values: what the operand latch `opv` holds between commands (R32, U14). Assumption 2. -/
opaque Config.freeOperands : Nat → List (Reg × Word)

end Sys2Proof
end

