-- ==== Sys2Proof/Machine/State.lean ====
section
/-! DEFINITION. The state of the FastHash CORE (`10_state.md`), the host's pending actions, and the
state after reset (R36). Plain data throughout. -/

namespace Sys2Proof.Machine

/-- The bytes of the input buffer by offset: offsets strictly rising, no entry equal to what an
unlisted offset reads as (`Memory.wf`). -/
abbrev Memory := List Host.Cell

/-- The attached input buffer `B` and its length `N` (R29, R39). `len` is the register `BUFLEN`
(R26); it holds at most `2^ADDR_W - 1`. -/
structure Buffer where
  len : Word
  cells : Memory
  deriving DecidableEq, Repr

/-- The fault causes of `STATUS.CAUSE` (R145). Codes 5 to 15 are never recorded. -/
inductive Cause where
  | none
  | illegalOpcode
  | illegalOperand
  | badLength
  | oobRead
  deriving DecidableEq, Repr

/-- The fields of `STATUS` (R22). Its reserved bits read 0 and cannot be written, so they hold no
state. -/
structure Status where
  busy : Bool
  done : Bool
  fault : Bool
  ovr : Bool
  cause : Cause
  deriving DecidableEq, Repr

/-- The sequencer's phase (R31). -/
inductive Phase where
  | idle
  | run
  deriving DecidableEq, Repr

/-- Which of a running command's steps comes next (R132): the checks and initialisation, a loop
iteration, the tail, or the finalisation. A command that is no loop has the first alone. -/
inductive Stage where
  | start
  | iterate
  | tail
  | finish
  deriving DecidableEq, Repr

/-- The block-mixing accumulator and the per-call multiplier (R30). -/
structure Acc where
  x : Word
  y : Word
  z : Word
  u : Word
  vlo : Word
  vhi : Word
  wlo : Word
  whi : Word
  mul : Word
  deriving DecidableEq, Repr

/-- The accumulator that holds the `NACC` words `w`, in the order of R30, and the multiplier `mul`. -/
def Acc.ofWords (w : Vector Word Config.NACC) (mul : Word) : Acc :=
  { x := w[0], y := w[1], z := w[2], u := w[3], vlo := w[4], vhi := w[5], wlo := w[6], whi := w[7],
    mul }

/-- The accumulator of zeros. -/
def Acc.zero : Acc := Acc.ofWords (Vector.replicate Config.NACC 0#64) 0#64

/-- What the host can do to the core (R16, R20, R29, R161, R48). Offsets are relative to `REG_BASE`
(D37). -/
inductive HostAction where
  /-- A write of `v` to the host register at `off`, `width` bits wide (R20, R28). -/
  | write (off width : Nat) (v : Word)
  /-- A read of the host register at `off`, `width` bits wide (R20, R28). -/
  | read (off width : Nat)
  /-- `Attach(bytes)` (R29). -/
  | attach (bytes : List Byte)
  /-- The host changes the backing byte of buffer offset `off` (R48, U4). -/
  | changeBacking (off : Nat) (b : Byte)
  /-- `Reset` (R161). -/
  | reset
  deriving DecidableEq, Repr

/-- One entry of the total order in which host actions and core steps are serialised (R148, D1). -/
inductive Turn where
  /-- The host acts. -/
  | host (a : HostAction)
  /-- The core takes one of the command's `STEPS(cmd)` steps (R7, R132): `n` steps of the reference
  decomposition merged into one, or, for `n = 0`, a part of a split step that is not its last. -/
  | coreSteps (n : Nat)
  /-- The core runs the command to its completion or fault: all its remaining sequencer steps
  merged, as R132 allows. -/
  | coreRun
  deriving DecidableEq, Repr

/-- The machine's state. `stage`, `agenda`, `readData`, `disturbed` and `free` are the model's own
(`INVENTORY.md`); every other field is named by the spec. -/
structure State where
  /-- The parameters (R7), the constant ROM among them (R33). Read-only. -/
  params : Params
  /-- `R0` to `R15` (R17). -/
  regs : Vector Word Config.NREG
  /-- `CMD`: the last accepted command word (R21). -/
  cmd : CmdWord
  /-- `STATUS` (R22). -/
  status : Status
  /-- `CTRL.IE`, the only bit of `CTRL` (R24). -/
  ie : Bool
  /-- `FINFO` (R25). -/
  finfo : Word
  /-- `BUFLEN`, `N` and `B` (R26, R29). -/
  buf : Buffer
  /-- The accumulator and `mul` (R30). -/
  acc : Acc
  /-- `phase` (R31). -/
  phase : Phase
  /-- `cwl`: the latched command word (R31). -/
  cwl : CmdWord
  /-- `opv`: the latched operand values, each with its register (R31, R134 (b)). -/
  opv : List (Reg × Word)
  /-- `pos`: the loop position (R31). -/
  pos : Word
  /-- `end`: where the iterations stop (R31, R117). -/
  endPos : Word
  /-- `last64`: the tail's offset (R31, R117). -/
  last64 : Word
  /-- `L`: the running loop command's length (R31). -/
  len : Word
  /-- The model's own: the next step of the running command (R132). -/
  stage : Stage
  /-- The model's own: the turns to come, first to be taken first; when there is none, the core moves. -/
  agenda : List Turn
  /-- The model's own: what the host's last register read returned (R20). -/
  readData : Word
  /-- The model's own: the host changed a byte of the buffer while this command ran (R48). -/
  disturbed : Bool
  /-- The model's own: the index of the next free value. -/
  free : Nat
  deriving DecidableEq, Repr

/-- Why the machine stops with a fault: it never does. The spec's four faults are recorded in
`STATUS` and `FINFO` and the machine goes on (R146, R150), and `93_implementation_defined.md` says
"No behaviour of the CORE is treated as `stuck`". -/
inductive Fault where
  deriving DecidableEq, Repr

/-- Why a step is refused. -/
inductive Refusal where
  /-- Raised by an arm of `exec` for a command that has no meaning yet: by none. Safe. -/
  | notModelled (mnemonic : String)
  /-- Raised by a host access whose width is not 64 bits or whose offset R20 does not list: "outside
  this spec, and a model refuses it" (R28, U10). Safe: the machine stops. -/
  | badHostAccess
  /-- Raised by an `Attach` of more than `2^ADDR_W - 1` bytes, which is no buffer (R29). Safe: the
  machine stops. -/
  | bufferTooLong
  deriving DecidableEq, Repr

/-- The machine right after reset (R36). The words R36 leaves unspecified, the accumulator and
`cwl`, `opv`, `pos`, `end`, `last64`, `L`, are zero or empty here (assumption 4). The parameters are
the spec's defaults (assumption 1). -/
def State.reset : State where
  params := Config.default
  regs := Vector.replicate Config.NREG 0#64
  cmd := 0#32
  status := { busy := false, done := false, fault := false, ovr := false, cause := .none }
  ie := false
  finfo := 0#64
  buf := { len := 0#64, cells := [] }
  acc := Acc.zero
  phase := .idle
  cwl := 0#32
  opv := []
  pos := 0#64
  endPos := 0#64
  last64 := 0#64
  len := 0#64
  stage := .start
  agenda := []
  readData := 0#64
  disturbed := false
  free := 0

end Sys2Proof.Machine
end

