-- ==== Sys2Proof/Machine/Flags.lean ====
section
/-! DEFINITION. The CORE's only flags: the bits of `STATUS` and `CTRL` as the host reads and writes
them (R22, R23, R24), and the completion signal (R154). Arithmetic sets none (R34). -/

namespace Sys2Proof.Machine

/-- The code of a fault cause (R145). -/
def Cause.code : Cause → Nat
  | .none => 0
  | .illegalOpcode => 1
  | .illegalOperand => 2
  | .badLength => 3
  | .oobRead => 4

/-- `STATUS` as the host reads it: `CAUSE` in bits 11:8, then `OVR`, `FAULT`, `DONE`, `BUSY` in bits
3 to 0, every reserved bit 0 (R22). -/
def Status.word (st : Status) : Word :=
  BitVec.ofNat 64
    (st.cause.code * 2 ^ 8 + st.ovr.toNat * 2 ^ 3 + st.fault.toNat * 2 ^ 2 + st.done.toNat * 2 ^ 1
      + st.busy.toNat)

/-- `CTRL` as the host reads it (R24). -/
def ctrlWord (ie : Bool) : Word := BitVec.ofNat 64 ie.toNat

/-- Clearing a fault clears `FAULT`, `CAUSE` and `FINFO` together (R23, R151). -/
def State.clearFault (s : State) : State :=
  { s with status := { s.status with fault := false, cause := .none }, finfo := 0#64 }

/-- `DONE` cleared (R23). -/
def State.clearDone (s : State) : State := { s with status := { s.status with done := false } }

/-- `OVR` cleared (R23). -/
def State.clearOvr (s : State) : State := { s with status := { s.status with ovr := false } }

/-- `OVR` set: the host made a write the core ignores (R152). -/
def State.setOvr (s : State) : State := { s with status := { s.status with ovr := true } }

/-- A host write of `v` to `STATUS`: each W1C bit that `v` has set is cleared, and nothing else
happens (R23). -/
def State.writeStatus (s : State) (v : Word) : State :=
  let s := if v.getLsbD 1 then s.clearDone else s
  let s := if v.getLsbD 2 then s.clearFault else s
  if v.getLsbD 3 then s.clearOvr else s

/-- The completion signal `irq = CTRL.IE & (STATUS.DONE | STATUS.FAULT)` (R154). -/
def State.irq (s : State) : Bool := s.ie && (s.status.done || s.status.fault)

end Sys2Proof.Machine
end

