-- ==== Sys2Proof/Syntax.lean ====
section
/-! DEFINITION. The 35 commands, one constructor per row of the opcode map (`30_encoding.md` R58).
A constructor's fields are those its form uses (R55), in the order d, a, b, c, i. -/

namespace Sys2Proof

/-- A command with its operands (R58). -/
inductive Instr where
  -- bit primitives and datapath (`40_primitives.md`)
  | add (d a b : Reg)
  | sub (d a b : Reg)
  | mul (d a b : Reg)
  | xor (d a b : Reg)
  | and (d a b : Reg)
  | shri (d a : Reg) (n : Imm6)
  | shli (d a : Reg) (n : Imm6)
  | rotri (d a : Reg) (r : Imm6)
  | rotli (d a : Reg) (r : Imm6)
  | rotr (d a b : Reg)
  | rotl (d a b : Reg)
  | swap (a b : Reg)
  | ldi (d : Reg) (n : Imm6)
  | ldk (d : Reg) (k : Imm6)
  | mov (d a : Reg)
  | rdb (d a : Reg)
  | rdle32 (d a : Reg)
  | rdle64 (d a : Reg)
  -- combiners (`41_combiners.md`)
  | shiftmix (d a : Reg)
  | hl16 (d a b c : Reg)
  | hl16k (d a b : Reg)
  | wpmix (d a : Reg)
  | wpmixb (d a b c : Reg)
  | hmix (d a b c : Reg) (r : Imm6)
  | h32 (d a b c : Reg)
  -- short and medium paths (`42_short_medium.md`)
  | hl0_16 (d a : Reg)
  | hl17_32 (d a : Reg)
  | hl33_64 (d a : Reg)
  | hl33_64na (d a : Reg)
  | hl65_96 (d a : Reg)
  -- block loops (`43_block_loop.md`)
  | na64 (d a : Reg)
  | na64s (d a b c : Reg)
  | uo64s (d a b c : Reg)
  -- public entry points (`44_dispatch.md`)
  | hash64 (d a : Reg)
  | hash64s (d a b c : Reg)
  deriving DecidableEq, Repr

end Sys2Proof
end

