-- ==== Sys2Proof/WellFormed.lean ====
section
/-! DEFINITION. When a command's operands are legal (`30_encoding.md` R56, R57, R60 (c) and (d)). The
other operand checks of R60, (a) and (b), concern bits of the word that no `Instr` holds: the decoder
makes them. -/

namespace Sys2Proof

/-- The group of `n` consecutive registers that starts at `r` does not pass `R15` (R56). -/
def groupFits (r : Reg) (n : Nat) : Bool := r.val + n ≤ Config.NREG

/-- `k` indexes a word of the constant ROM (R57, R33). -/
def romIndexFits (k : Imm6) : Bool := k.val ≤ 5

/-- Every register group of the command fits (R56). -/
def Instr.groupsFit : Instr → Bool
  | .wpmix d a => groupFits a 6 && groupFits d 2
  | .wpmixb d _ _ _ => groupFits d 2
  | .h32 _ _ _ c => groupFits c 2
  | .add .. | .sub .. | .mul .. | .xor .. | .and .. | .shri .. | .shli .. | .rotri .. | .rotli ..
  | .rotr .. | .rotl .. | .swap .. | .ldi .. | .ldk .. | .mov .. | .rdb .. | .rdle32 .. | .rdle64 ..
  | .shiftmix .. | .hl16 .. | .hl16k .. | .hmix .. | .hl0_16 .. | .hl17_32 .. | .hl33_64 ..
  | .hl33_64na .. | .hl65_96 .. | .na64 .. | .na64s .. | .uo64s .. | .hash64 .. | .hash64s .. => true

/-- The constant ROM index of an `LDK` is in range (R57, R60 (d)). -/
def Instr.romIndexOk : Instr → Bool
  | .ldk _ k => romIndexFits k
  | .add .. | .sub .. | .mul .. | .xor .. | .and .. | .shri .. | .shli .. | .rotri .. | .rotli ..
  | .rotr .. | .rotl .. | .swap .. | .ldi .. | .mov .. | .rdb .. | .rdle32 .. | .rdle64 ..
  | .shiftmix .. | .hl16 .. | .hl16k .. | .wpmix .. | .wpmixb .. | .hmix .. | .h32 .. | .hl0_16 ..
  | .hl17_32 .. | .hl33_64 .. | .hl33_64na .. | .hl65_96 .. | .na64 .. | .na64s .. | .uo64s ..
  | .hash64 .. | .hash64s .. => true

/-- The command's operands are legal (R60). -/
def Instr.wellFormed (i : Instr) : Bool := i.groupsFit && i.romIndexOk

end Sys2Proof
end

