-- ==== Sys2Proof/Decode.lean ====
section
/-! DEFINITION. The command decoder and encoder (`30_encoding.md` R53 to R62). Decoding is total on
every 32-bit word and rejects by name, in the order of `60_exceptions.md` R148. -/

namespace Sys2Proof

/-- Why a word is no command (R59, R60). The first is the cause ILLEGAL_OPCODE, the other four are
ILLEGAL_OPERAND. -/
inductive DecodeError where
  /-- `OPC` is a reserved opcode (R59). -/
  | reservedOpcode
  /-- `RSV` is not zero (R60 (a)). -/
  | reservedBits
  /-- A field the opcode does not use is not zero (R60 (b)). -/
  | unusedField
  /-- A register group passes `R15` (R60 (c)). -/
  | groupPastR15
  /-- `LDK` with an index above 5 (R60 (d)). -/
  | romIndex
  deriving DecidableEq, Repr

/-- The seven operand forms (R55). -/
inductive Form where
  | DAB | DAI | AB | DI | DA | DABC | DABCI
  deriving DecidableEq, Repr

/-- The fields of a command word below `OPC` (R53). -/
structure Fields where
  d : Reg
  a : Reg
  b : Reg
  c : Reg
  rsv : Nat
  imm : Imm6
  deriving DecidableEq, Repr

/-- The `len` bits of `w` from bit `lo` up, as an unsigned integer (R9). -/
def bits (w : CmdWord) (lo len : Nat) : Nat := w.toNat / 2 ^ lo % 2 ^ len

/-- `OPC`, bits 31:24 (R53). -/
def opcodeOf (w : CmdWord) : Nat := bits w 24 8

/-- `RD`, `RA`, `RB`, `RC`, `RSV` and `IMM6` (R53, R54). -/
def fieldsOf (w : CmdWord) : Fields where
  d := Fin.ofNat Config.NREG (bits w 20 4)
  a := Fin.ofNat Config.NREG (bits w 16 4)
  b := Fin.ofNat Config.NREG (bits w 12 4)
  c := Fin.ofNat Config.NREG (bits w 8 4)
  rsv := bits w 6 2
  imm := Fin.ofNat 64 (bits w 0 6)

/-- Every field the form does not use is zero (R55, R60 (b)). -/
def unusedZero (form : Form) (f : Fields) : Bool :=
  match form with
  | .DAB => f.c == 0 && f.imm == 0
  | .DAI => f.b == 0 && f.c == 0
  | .AB => f.d == 0 && f.c == 0 && f.imm == 0
  | .DI => f.a == 0 && f.b == 0 && f.c == 0
  | .DA => f.b == 0 && f.c == 0 && f.imm == 0
  | .DABC => f.imm == 0
  | .DABCI => true

/-- The opcode map (R58): the operand form of an opcode and the command its fields make. Every
opcode it does not list is reserved (R59). -/
def opcodeRow : Nat → Option (Form × (Fields → Instr))
  | 0x01 => some (.DAB, fun f => .add f.d f.a f.b)
  | 0x02 => some (.DAB, fun f => .sub f.d f.a f.b)
  | 0x03 => some (.DAB, fun f => .mul f.d f.a f.b)
  | 0x04 => some (.DAB, fun f => .xor f.d f.a f.b)
  | 0x05 => some (.DAB, fun f => .and f.d f.a f.b)
  | 0x06 => some (.DAI, fun f => .shri f.d f.a f.imm)
  | 0x07 => some (.DAI, fun f => .shli f.d f.a f.imm)
  | 0x08 => some (.DAI, fun f => .rotri f.d f.a f.imm)
  | 0x09 => some (.DAI, fun f => .rotli f.d f.a f.imm)
  | 0x0A => some (.DAB, fun f => .rotr f.d f.a f.b)
  | 0x0B => some (.DAB, fun f => .rotl f.d f.a f.b)
  | 0x0C => some (.AB, fun f => .swap f.a f.b)
  | 0x0D => some (.DI, fun f => .ldi f.d f.imm)
  | 0x0E => some (.DI, fun f => .ldk f.d f.imm)
  | 0x0F => some (.DA, fun f => .mov f.d f.a)
  | 0x10 => some (.DA, fun f => .rdb f.d f.a)
  | 0x11 => some (.DA, fun f => .rdle32 f.d f.a)
  | 0x12 => some (.DA, fun f => .rdle64 f.d f.a)
  | 0x20 => some (.DA, fun f => .shiftmix f.d f.a)
  | 0x21 => some (.DABC, fun f => .hl16 f.d f.a f.b f.c)
  | 0x22 => some (.DAB, fun f => .hl16k f.d f.a f.b)
  | 0x23 => some (.DA, fun f => .wpmix f.d f.a)
  | 0x24 => some (.DABC, fun f => .wpmixb f.d f.a f.b f.c)
  | 0x25 => some (.DABCI, fun f => .hmix f.d f.a f.b f.c f.imm)
  | 0x26 => some (.DABC, fun f => .h32 f.d f.a f.b f.c)
  | 0x30 => some (.DA, fun f => .hl0_16 f.d f.a)
  | 0x31 => some (.DA, fun f => .hl17_32 f.d f.a)
  | 0x32 => some (.DA, fun f => .hl33_64 f.d f.a)
  | 0x33 => some (.DA, fun f => .hl33_64na f.d f.a)
  | 0x34 => some (.DA, fun f => .hl65_96 f.d f.a)
  | 0x35 => some (.DA, fun f => .na64 f.d f.a)
  | 0x36 => some (.DABC, fun f => .na64s f.d f.a f.b f.c)
  | 0x37 => some (.DABC, fun f => .uo64s f.d f.a f.b f.c)
  | 0x40 => some (.DA, fun f => .hash64 f.d f.a)
  | 0x41 => some (.DABC, fun f => .hash64s f.d f.a f.b f.c)
  | _ => none

/-- The command a word stands for, or the first check it fails, in the order of R148: opcode,
`RSV`, unused fields, register groups, `LDK` index (R59, R60, R62). -/
def decode (w : CmdWord) : Except DecodeError Instr :=
  match opcodeRow (opcodeOf w) with
  | none => .error .reservedOpcode
  | some (form, build) =>
    let f := fieldsOf w
    if f.rsv ≠ 0 then .error .reservedBits
    else if unusedZero form f = false then .error .unusedField
    else if (build f).groupsFit = false then .error .groupPastR15
    else if (build f).romIndexOk = false then .error .romIndex
    else .ok (build f)

/-- A command word from its fields, with `RSV = 00` (R53). -/
def commandWord (opc : Nat) (d a b c : Reg) (imm : Imm6) : CmdWord :=
  BitVec.ofNat 32
    (opc * 2 ^ 24 + d.val * 2 ^ 20 + a.val * 2 ^ 16 + b.val * 2 ^ 12 + c.val * 2 ^ 8 + imm.val)

/-- The word of a command, every unused field zero (R53, R55, R58). -/
def encode : Instr → CmdWord
  | .add d a b => commandWord 0x01 d a b 0 0
  | .sub d a b => commandWord 0x02 d a b 0 0
  | .mul d a b => commandWord 0x03 d a b 0 0
  | .xor d a b => commandWord 0x04 d a b 0 0
  | .and d a b => commandWord 0x05 d a b 0 0
  | .shri d a n => commandWord 0x06 d a 0 0 n
  | .shli d a n => commandWord 0x07 d a 0 0 n
  | .rotri d a r => commandWord 0x08 d a 0 0 r
  | .rotli d a r => commandWord 0x09 d a 0 0 r
  | .rotr d a b => commandWord 0x0A d a b 0 0
  | .rotl d a b => commandWord 0x0B d a b 0 0
  | .swap a b => commandWord 0x0C 0 a b 0 0
  | .ldi d n => commandWord 0x0D d 0 0 0 n
  | .ldk d k => commandWord 0x0E d 0 0 0 k
  | .mov d a => commandWord 0x0F d a 0 0 0
  | .rdb d a => commandWord 0x10 d a 0 0 0
  | .rdle32 d a => commandWord 0x11 d a 0 0 0
  | .rdle64 d a => commandWord 0x12 d a 0 0 0
  | .shiftmix d a => commandWord 0x20 d a 0 0 0
  | .hl16 d a b c => commandWord 0x21 d a b c 0
  | .hl16k d a b => commandWord 0x22 d a b 0 0
  | .wpmix d a => commandWord 0x23 d a 0 0 0
  | .wpmixb d a b c => commandWord 0x24 d a b c 0
  | .hmix d a b c r => commandWord 0x25 d a b c r
  | .h32 d a b c => commandWord 0x26 d a b c 0
  | .hl0_16 d a => commandWord 0x30 d a 0 0 0
  | .hl17_32 d a => commandWord 0x31 d a 0 0 0
  | .hl33_64 d a => commandWord 0x32 d a 0 0 0
  | .hl33_64na d a => commandWord 0x33 d a 0 0 0
  | .hl65_96 d a => commandWord 0x34 d a 0 0 0
  | .na64 d a => commandWord 0x35 d a 0 0 0
  | .na64s d a b c => commandWord 0x36 d a b c 0
  | .uo64s d a b c => commandWord 0x37 d a b c 0
  | .hash64 d a => commandWord 0x40 d a 0 0 0
  | .hash64s d a b c => commandWord 0x41 d a b c 0

/-- The command word whose `nbits` low bits are those of `w`, the bits above them zero. A `CMD`
write ignores every bit above bit 31 (R21). -/
def tableWord (nbits w : Nat) : CmdWord := BitVec.ofNat 32 (w % 2 ^ nbits)

/-- The command the decoder reads from a word of the opcode table. -/
def decodeTableWord (nbits w : Nat) : Option Instr :=
  match decode (tableWord nbits w) with
  | .ok i => some i
  | .error _ => none

end Sys2Proof
end

