-- ==== Sys2Proof/Machine/Operands.lean ====
section
/-! DEFINITION. Operands: which registers a command reads and writes (R56, R134 (b), R137), the
latched operand values (R31), immediates (R57), the constant ROM (R33) and the rotations (R66). -/

namespace Sys2Proof

/-- The register `k` places after `r` in a register group (R56). Used only where the group fits. -/
def groupReg (r : Reg) (k : Nat) : Reg := Fin.ofNat Config.NREG (r.val + k)

/-- The registers a command names as sources, every register of a group included (R134 (b), R56). -/
def Instr.sources : Instr → List Reg
  | .add _ a b | .sub _ a b | .mul _ a b | .xor _ a b | .and _ a b => [a, b]
  | .shri _ a _ | .shli _ a _ | .rotri _ a _ | .rotli _ a _ => [a]
  | .rotr _ a b | .rotl _ a b => [a, b]
  | .swap a b => [a, b]
  | .ldi _ _ | .ldk _ _ => []
  | .mov _ a | .rdb _ a | .rdle32 _ a | .rdle64 _ a | .shiftmix _ a => [a]
  | .hl16 _ a b c => [a, b, c]
  | .hl16k _ a b => [a, b]
  | .wpmix _ a => [a, groupReg a 1, groupReg a 2, groupReg a 3, groupReg a 4, groupReg a 5]
  | .wpmixb _ a b c => [a, b, c]
  | .hmix _ a b c _ => [a, b, c]
  | .h32 _ a b c => [a, b, c, groupReg c 1]
  | .hl0_16 _ a | .hl17_32 _ a | .hl33_64 _ a | .hl33_64na _ a | .hl65_96 _ a => [a]
  | .na64 _ a => [a]
  | .na64s _ a b c | .uo64s _ a b c => [a, b, c]
  | .hash64 _ a => [a]
  | .hash64s _ a b c => [a, b, c]

/-- The registers a command writes at completion (R137). -/
def Instr.dests : Instr → List Reg
  | .add d _ _ | .sub d _ _ | .mul d _ _ | .xor d _ _ | .and d _ _ => [d]
  | .shri d _ _ | .shli d _ _ | .rotri d _ _ | .rotli d _ _ => [d]
  | .rotr d _ _ | .rotl d _ _ => [d]
  | .swap a b => [a, b]
  | .ldi d _ | .ldk d _ => [d]
  | .mov d _ | .rdb d _ | .rdle32 d _ | .rdle64 d _ | .shiftmix d _ => [d]
  | .hl16 d _ _ _ => [d]
  | .hl16k d _ _ => [d]
  | .wpmix d _ => [d, groupReg d 1]
  | .wpmixb d _ _ _ => [d, groupReg d 1]
  | .hmix d _ _ _ _ => [d]
  | .h32 d _ _ _ => [d]
  | .hl0_16 d _ | .hl17_32 d _ | .hl33_64 d _ | .hl33_64na d _ | .hl65_96 d _ => [d]
  | .na64 d _ => [d]
  | .na64s d _ _ _ | .uo64s d _ _ _ => [d]
  | .hash64 d _ => [d]
  | .hash64s d _ _ _ => [d]

namespace Machine

/-- `R[i]` (R11, R17). -/
def State.reg (s : State) (r : Reg) : Word := s.regs[r.val]

/-- The value latched for register `r` (R134): what the command computes from. While a command runs
it equals `R[r]`, and `R[r]` stands in where nothing is latched for `r` (assumption 5). -/
def State.operand (s : State) (r : Reg) : Word := (s.opv.lookup r).getD (s.reg r)

/-- The operand values an accepted word latches: one for each register it names as a source
(R134 (b)). A word that is no command names none. -/
def State.latch (s : State) (w : CmdWord) : List (Reg × Word) :=
  match decode w with
  | .ok i => i.sources.map fun r => (r, s.reg r)
  | .error _ => []

/-- An immediate as a `u64` (R57, R79). -/
def immWord (n : Imm6) : Word := BitVec.ofNat 64 n.val

/-- The constant ROM: each word is the parameter of the same name (R33). -/
def rom (P : Params) (k : Imm6) : Option Word :=
  match k.val with
  | 0 => some P.K0
  | 1 => some P.K1
  | 2 => some P.K2
  | 3 => some P.KMUL
  | 4 => some P.SEED_NA
  | 5 => some P.C113
  | _ => none

/-- `rotr(x, r)` for any `r` (R66). -/
def rotr (x : Word) (r : Nat) : Word :=
  let s := r % 64
  if s = 0 then x else (x >>> s) ||| (x <<< (64 - s))

/-- `rotl(x, r)` for any `r` (R66). -/
def rotl (x : Word) (r : Nat) : Word :=
  let s := r % 64
  if s = 0 then x else (x <<< s) ||| (x >>> (64 - s))

end Machine

end Sys2Proof
end

