-- ==== Sys2Proof/Machine/Ops.lean ====
section
/-! DEFINITION. The named operations the meanings share: the input buffer and its little-endian
reader (`20_memory.md`), acceptance, completion and taking a fault (`44_dispatch.md`,
`60_exceptions.md`), and `check_length` (R136). -/

namespace Sys2Proof.Machine

/-- The outcome of a step of this machine. -/
abbrev Result := Host.Outcome State Fault Refusal

/-! ### The input buffer (R29, R38, R39) -/

/-- What an unlisted offset reads as. `Attach` gives every byte of `B`, so no offset in `[0, N)` is
ever unwritten: an unlisted one holds an attached zero byte (assumption 6). -/
def Memory.unlisted : Byte := 0#8

/-- The canonical form: offsets strictly rising, no entry equal to what an unlisted offset reads
as. -/
abbrev Memory.wf (m : Memory) : Prop :=
  m.Pairwise (fun c c' => c.1 < c'.1) ∧ ∀ c ∈ m, c.2 ≠ Memory.unlisted

/-- The byte at an offset. -/
def Memory.byte : Memory → Nat → Byte
  | [], _ => Memory.unlisted
  | (k, b) :: m, off => if k = off then b else Memory.byte m off

/-- A byte put at an offset, in canonical form. -/
def Memory.write : Memory → Nat → Byte → Memory
  | [], off, b => if b = Memory.unlisted then [] else [(off, b)]
  | (k, c) :: m, off, b =>
    if off < k then (if b = Memory.unlisted then (k, c) :: m else (off, b) :: (k, c) :: m)
    else if off = k then (if b = Memory.unlisted then m else (off, b) :: m)
    else (k, c) :: Memory.write m off b

/-- The cells of a byte sequence whose first byte lies at `off`. -/
def Memory.ofBytes : Nat → List Byte → Memory
  | _, [] => []
  | off, b :: bs =>
    if b = Memory.unlisted then Memory.ofBytes (off + 1) bs
    else (off, b) :: Memory.ofBytes (off + 1) bs

/-- The buffer's cells are canonical and lie in `[0, N)` (R39). -/
abbrev Buffer.wf (B : Buffer) : Prop := Memory.wf B.cells ∧ ∀ c ∈ B.cells, c.1 < B.len.toNat

/-- `B[off]` (R29). -/
def Buffer.byteAt (B : Buffer) (off : Nat) : Byte := Memory.byte B.cells off

/-- The buffer that `Attach(bytes)` sets (R29). -/
def Buffer.ofBytes (bytes : List Byte) : Buffer :=
  { len := BitVec.ofNat 64 bytes.length, cells := Memory.ofBytes 0 bytes }

/-- One backing byte changed. An offset outside `[0, N)` is no byte of `B` (R39). -/
def Buffer.change (B : Buffer) (off : Nat) (b : Byte) : Buffer :=
  if off < B.len.toNat then { B with cells := Memory.write B.cells off b } else B

/-! ### The reader port (R40) -/

/-- A value computed with buffer reads, or the offset of the first read that is out of range. -/
abbrev Read (α : Type) := Except Nat α

/-- `n` consecutive bytes from `off` as an unsigned little-endian integer (R40, R41). -/
def leBytes (B : Buffer) (off : Nat) : Nat → Nat
  | 0 => 0
  | n + 1 => (B.byteAt off).toNat + 2 ^ 8 * leBytes B (off + 1) n

/-- `MemRead(off, n)`. The offset and the sum `off + n` are unbounded integers (R40, R149). -/
def memRead (B : Buffer) (off n : Nat) : Read Word :=
  if off + n > B.len.toNat then .error off else .ok (BitVec.ofNat 64 (leBytes B off n))

/-- `Byte(off)` (R12). -/
def byteRead (B : Buffer) (off : Nat) : Read Word := memRead B off 1

/-- `Fetch32(off)` (R12). -/
def fetch32 (B : Buffer) (off : Nat) : Read Word := memRead B off 4

/-- `Fetch64(off)` (R12). -/
def fetch64 (B : Buffer) (off : Nat) : Read Word := memRead B off 8

/-! ### Operand registers -/

/-- `R[r] <- v` (R11). -/
def State.setReg (s : State) (r : Reg) (v : Word) : State := { s with regs := s.regs.set r.val v }

/-- Register writes, in order, the later of two to one register winning. -/
def writeRegs : Vector Word Config.NREG → List (Reg × Word) → Vector Word Config.NREG
  | regs, [] => regs
  | regs, (r, v) :: ws => writeRegs (regs.set r.val v) ws

/-- Register writes (R11). -/
def State.setRegs (s : State) (ws : List (Reg × Word)) : State :=
  { s with regs := writeRegs s.regs ws }

/-! ### The life of a command (R134, R137, R146) -/

/-- Acceptance of a command word (R134): `cwl`, `CMD` and `opv` are latched, `DONE` is cleared,
`BUSY` is set and the phase is RUN. -/
def State.accept (s : State) (w : CmdWord) : State :=
  { s with
    cmd := w, cwl := w, opv := s.latch w
    status := { s.status with done := false, busy := true }
    phase := .run, stage := .start, disturbed := false }

/-- The end of a command: IDLE, and every internal word takes a free value (R32, R146, U14;
assumption 2). -/
def State.retire (s : State) : State :=
  let word := fun k => Config.freeWord (s.free + k)
  { s with
    phase := .idle, stage := .start, disturbed := false
    acc := Acc.ofWords (Vector.ofFn fun k => word k.val) (word 8)
    pos := word 9, endPos := word 10, last64 := word 11, len := word 12
    cwl := (word 13).setWidth 32, opv := Config.freeOperands s.free
    free := s.free + 16 }

/-- The same destinations with free values in place of the results (R48, U4; assumption 3). -/
def freeResults : Nat → List (Reg × Word) → List (Reg × Word)
  | _, [] => []
  | n, (r, _) :: ws => (r, Config.freeWord n) :: freeResults (n + 1) ws

/-- What a command writes: its results, or free values if the host changed the buffer while it ran
(R48). -/
def State.results (s : State) (ws : List (Reg × Word)) : List (Reg × Word) :=
  if s.disturbed then freeResults (s.free + 14) ws else ws

/-- Completion (R137): the destinations are written, `DONE` is set, `BUSY` cleared, and the phase is
IDLE. -/
def State.complete (s : State) (ws : List (Reg × Word)) : State :=
  let t := (s.setRegs (s.results ws)).retire
  { t with status := { t.status with done := true, busy := false } }

/-- `raise Fault(cause, info)` (R13, R146): `FAULT`, `CAUSE` and `FINFO` are recorded, `BUSY` is
cleared, and the phase is IDLE. No destination is written. The way back is `State.clearFault`
(R151). -/
def State.takeFault (s : State) (cause : Cause) (info : Word) : State :=
  let t := s.retire
  { t with status := { t.status with fault := true, cause := cause, busy := false }, finfo := info }

/-- The fault of an operand that is not legal: `FINFO` is the command word (R60, R149). -/
def State.illegalOperand (s : State) : State := s.takeFault .illegalOperand (s.cwl.setWidth 64)

/-- A read out of range: `FINFO` is its offset modulo `2^ADDR_W` (R149). -/
def State.oobRead (s : State) (off : Nat) : State :=
  s.takeFault .oobRead (BitVec.ofNat 64 (off % 2 ^ s.params.ADDR_W.val))

/-- Completion with the results of reads, or the fault of the first read out of range (R135). -/
def State.completeRead (s : State) : Read (List (Reg × Word)) → State
  | .ok ws => s.complete ws
  | .error off => s.oobRead off

/-- `check_length(L, lo, hi)` before `go` (R136). -/
def State.checkLength (s : State) (L : Word) (lo hi : Nat) (go : State → State) : State :=
  if L.toNat > s.buf.len.toNat ∨ L.toNat < lo ∨ L.toNat > hi then s.takeFault .badLength L else go s

end Sys2Proof.Machine
end

