-- ==== Sys2Proof/Machine/HostPort.lean ====
section
/-! DEFINITION. What the host can do: the register map and its accesses (`10_state.md` R20 to R28),
`Attach` (R29), a change of the buffer's backing bytes (`20_memory.md` R48) and `Reset`
(`70_reset_and_hazards.md` R161). Each is one indivisible action (R148). -/

namespace Sys2Proof.Machine

/-- The host registers (R20). -/
inductive HostReg where
  | cmd
  | status
  | ctrl
  | finfo
  | buflen
  | reserved
  | operand (r : Reg)
  deriving DecidableEq, Repr

/-- The host register at a byte offset, if R20 lists the offset. -/
def hostReg (off : Nat) : Option HostReg :=
  if off % 8 ≠ 0 then none
  else if off = 0x000 then some .cmd
  else if off = 0x008 then some .status
  else if off = 0x010 then some .ctrl
  else if off = 0x018 then some .finfo
  else if off = 0x020 then some .buflen
  else if off ≤ 0x0F8 then some .reserved
  else if off ≤ 0x178 then some (.operand (Fin.ofNat Config.NREG ((off - 0x100) / 8)))
  else none

/-- The host register of an access: whole 64-bit registers at the offsets of R20 only (R28). -/
def accessed (off width : Nat) : Option HostReg := if width = 64 then hostReg off else none

/-- What a host read returns (R20 to R28). Reads have no side effect. -/
def State.hostValue (s : State) : HostReg → Word
  | .cmd => s.cmd.setWidth 64
  | .status => s.status.word
  | .ctrl => ctrlWord s.ie
  | .finfo => s.finfo
  | .buflen => s.buf.len
  | .reserved => 0
  | .operand r => s.reg r

/-- A write of `v` to `CMD`: accepted when neither busy nor faulted, else ignored with `OVR`
(R21, R134, R152 (a) (b)). -/
def State.writeCmd (s : State) (v : Word) : State :=
  if s.status.busy || s.status.fault then s.setOvr else s.accept (v.setWidth 32)

/-- A write of `v` to `R[r]`: ignored with `OVR` while busy (R28, R152 (c)). -/
def State.writeOperand (s : State) (r : Reg) (v : Word) : State :=
  if s.status.busy then s.setOvr else s.setReg r v

/-- What a host write does (R20 to R28). A write to a read-only or reserved register has no effect
(R25, R26, R27; assumption 8). -/
def State.hostWrite (s : State) (v : Word) : HostReg → State
  | .cmd => s.writeCmd v
  | .status => s.writeStatus v
  | .ctrl => { s with ie := v.getLsbD 0 }
  | .finfo | .buflen | .reserved => s
  | .operand r => s.writeOperand r v

/-- `Attach(bytes)`: ignored with `OVR` while busy (R29, R152 (d)). -/
def State.attach (s : State) (bytes : List Byte) : Result :=
  if s.status.busy then .next s.setOvr
  else if bytes.length > s.params.maxLen then .refused .bufferTooLong
  else .next { s with buf := Buffer.ofBytes bytes }

/-- The host changes a backing byte. While a command runs, what it will write is no longer known
(R48, R165, U4; assumptions 3 and 7). -/
def State.changeBacking (s : State) (off : Nat) (b : Byte) : State :=
  { s with buf := s.buf.change off b
           disturbed := s.disturbed || (s.status.busy && decide (off < s.buf.len.toNat)) }

/-- `Reset`: every piece of state at its reset value, at any time (R161, R36). The constant ROM is
not affected. The turns to come and what the host last read are the host's, and the free values go
on. -/
def State.doReset (s : State) : State :=
  { State.reset with
    params := s.params, agenda := s.agenda, readData := s.readData, free := s.free }

/-- One host action (R16). -/
def hostAct (a : HostAction) (s : State) : Result :=
  match a with
  | .write off width v =>
    match accessed off width with
    | some r => .next (s.hostWrite v r)
    | none => .refused .badHostAccess
  | .read off width =>
    match accessed off width with
    | some r => .next { s with readData := s.hostValue r }
    | none => .refused .badHostAccess
  | .attach bytes => s.attach bytes
  | .changeBacking off b => .next (s.changeBacking off b)
  | .reset => .next s.doReset

end Sys2Proof.Machine
end

