-- ==== Sys2Proof/Machine/Combiners.lean ====
section
/-! DEFINITION. The combiners, the avalanche finalizer and the window hash, as the functions every
path shares (R99) and as commands (`41_combiners.md`, R85 to R98). -/

namespace Sys2Proof.Machine

/-! ### The functions -/

/-- `ShiftMix(v)` (R85). -/
def shiftMix (v : Word) : Word := v ^^^ (v >>> 47)

/-- `HashLen16(u, v, mul)` (R87). -/
def hashLen16 (u v mul : Word) : Word :=
  let a := (u ^^^ v) * mul
  let a := a ^^^ (a >>> 47)
  let b := (v ^^^ a) * mul
  let b := b ^^^ (b >>> 47)
  b * mul

/-- `Hash128to64(u, v)` (R89). -/
def hash128to64 (P : Params) (u v : Word) : Word := hashLen16 u v P.KMUL

/-- `WeakPairMix(w, x, y, z, a, b)`, as the pair of its `.lo` and `.hi` (R91). -/
def weakPairMix (w x y z a b : Word) : Word × Word :=
  let a := a + w
  let b := rotr (b + a + z) 21
  let c := a
  let a := a + x
  let a := a + y
  let b := b + rotr a 44
  (a + z, b + c)

/-- `WeakPairMixAt(off, a, b)`: the window's four words in ascending order (R92). -/
def weakPairMixAt (B : Buffer) (off : Nat) (a b : Word) : Read (Word × Word) := do
  let w ← fetch64 B off
  let x ← fetch64 B (off + 8)
  let y ← fetch64 B (off + 16)
  let z ← fetch64 B (off + 24)
  return weakPairMix w x y z a b

/-- `H(x, y, mul, r)` (R95). -/
def avalancheH (x y mul : Word) (r : Nat) : Word :=
  let a := (x ^^^ y) * mul
  let a := a ^^^ (a >>> 47)
  let b := (y ^^^ a) * mul
  rotr b r * mul

/-- `H32(off, mul, seed0, seed1)`, the window hash, with its reads in the order of R97. -/
def windowHash (P : Params) (B : Buffer) (off : Nat) (mul seed0 seed1 : Word) : Read Word := do
  let a := (← fetch64 B off) * P.K1
  let b ← fetch64 B (off + 8)
  let c := (← fetch64 B (off + 24)) * mul
  let d := (← fetch64 B (off + 16)) * P.K2
  let u := rotr (a + b) 43 + rotr c 30 + d + seed0
  let v := a + rotr (b + P.K2) 18 + c + seed1
  let a := shiftMix ((u ^^^ v) * mul)
  let b := shiftMix ((v ^^^ a) * mul)
  return b

/-! ### The commands -/

/-- `SHIFTMIX` (R86). -/
def execShiftmix (d a : Reg) (s : State) : Result :=
  .next (s.complete [(d, shiftMix (s.operand a))])

/-- `HL16` (R88). -/
def execHl16 (d a b c : Reg) (s : State) : Result :=
  .next (s.complete [(d, hashLen16 (s.operand a) (s.operand b) (s.operand c))])

/-- `HL16K` (R90). -/
def execHl16k (d a b : Reg) (s : State) : Result :=
  .next (s.complete [(d, hash128to64 s.params (s.operand a) (s.operand b))])

/-- A result pair in a pair of registers, `.lo` first (R93, R94). -/
def pairWrites (d : Reg) (p : Word × Word) : List (Reg × Word) := [(d, p.1), (groupReg d 1, p.2)]

/-- `WPMIX` (R93). A group past `R15` is an illegal operand (R56, R60). -/
def execWpmix (d a : Reg) (s : State) : Result :=
  if groupFits a 6 && groupFits d 2 then
    .next (s.complete (pairWrites d
      (weakPairMix (s.operand a) (s.operand (groupReg a 1)) (s.operand (groupReg a 2))
        (s.operand (groupReg a 3)) (s.operand (groupReg a 4)) (s.operand (groupReg a 5)))))
  else .next s.illegalOperand

/-- `WPMIXB` (R94). A group past `R15` is an illegal operand (R56, R60). -/
def execWpmixb (d a b c : Reg) (s : State) : Result :=
  if groupFits d 2 then
    .next (s.completeRead do
      return pairWrites d (← weakPairMixAt s.buf (s.operand a).toNat (s.operand b) (s.operand c)))
  else .next s.illegalOperand

/-- `HMIX` (R96). -/
def execHmix (d a b c : Reg) (r : Imm6) (s : State) : Result :=
  .next (s.complete [(d, avalancheH (s.operand a) (s.operand b) (s.operand c) r.val)])

/-- `H32` (R98). A group past `R15` is an illegal operand (R56, R60). -/
def execH32 (d a b c : Reg) (s : State) : Result :=
  if groupFits c 2 then
    .next (s.completeRead do
      return [(d, ← windowHash s.params s.buf (s.operand a).toNat (s.operand b) (s.operand c)
        (s.operand (groupReg c 1)))])
  else .next s.illegalOperand

end Sys2Proof.Machine
end

