-- ==== Sys2Proof/Machine/ShortMedium.lean ====
section
/-! DEFINITION. The closed-form paths for 0 to 96 bytes, as functions of the buffer prefix
`B[0 .. L-1]` and as commands (`42_short_medium.md`, R100 to R114). -/

namespace Sys2Proof.Machine

/-! ### The functions -/

/-- `HashLen0to16(L)`, branch `8 ≤ L ≤ 16` (R101). -/
def hashLen8to16 (P : Params) (B : Buffer) (L : Word) : Read Word := do
  let mul := P.K2 + L * 2
  let a := (← fetch64 B 0) + P.K2
  let b ← fetch64 B (L.toNat - 8)
  let c := rotr b 37 * mul + a
  let d := (rotr a 25 + b) * mul
  return hashLen16 c d mul

/-- `HashLen0to16(L)`, branch `4 ≤ L ≤ 7` (R102). -/
def hashLen4to7 (P : Params) (B : Buffer) (L : Word) : Read Word := do
  let mul := P.K2 + L * 2
  let a ← fetch32 B 0
  return hashLen16 (L + (a <<< 3)) (← fetch32 B (L.toNat - 4)) mul

/-- `HashLen0to16(L)`, branch `1 ≤ L ≤ 3` (R103; `90_conflicts.md` C1). -/
def hashLen1to3 (P : Params) (B : Buffer) (L : Word) : Read Word := do
  let a ← byteRead B 0
  let b ← byteRead B (L.toNat / 2)
  let c ← byteRead B (L.toNat - 1)
  let y := a + (b <<< 8)
  let z := L + (c <<< 2)
  return shiftMix (y * P.K2 ^^^ z * P.K0) * P.K2

/-- `HashLen0to16(L)`: exactly one of four branches (R100, R104). -/
def hashLen0to16 (P : Params) (B : Buffer) (L : Word) : Read Word :=
  if L.toNat ≥ 8 then hashLen8to16 P B L
  else if L.toNat ≥ 4 then hashLen4to7 P B L
  else if L.toNat ≥ 1 then hashLen1to3 P B L
  else .ok P.K2

/-- `HashLen17to32(L)` (R106). -/
def hashLen17to32 (P : Params) (B : Buffer) (L : Word) : Read Word := do
  let mul := P.K2 + L * 2
  let a := (← fetch64 B 0) * P.K1
  let b ← fetch64 B 8
  let c := (← fetch64 B (L.toNat - 8)) * mul
  let d := (← fetch64 B (L.toNat - 16)) * P.K2
  return hashLen16 (rotr (a + b) 43 + rotr c 30 + d) (a + rotr (b + P.K2) 18 + c) mul

/-- `HashLen33to64(L)`, the medium mixer with two windows (R108). -/
def hashLen33to64 (P : Params) (B : Buffer) (L : Word) : Read Word := do
  let mul0 := P.K2 - 30
  let mul1 := P.K2 - 30 + 2 * L
  let h0 ← windowHash P B 0 mul0 0 0
  let h1 ← windowHash P B (L.toNat - 32) mul1 0 0
  return (h1 * mul1 + h0) * mul1

/-- `HashLen33to64NA(L)`, the na loop's form (R110). -/
def hashLen33to64na (P : Params) (B : Buffer) (L : Word) : Read Word := do
  let mul := P.K2 + L * 2
  let a := (← fetch64 B 0) * P.K2
  let b ← fetch64 B 8
  let c := (← fetch64 B (L.toNat - 8)) * mul
  let d := (← fetch64 B (L.toNat - 16)) * P.K2
  let y := rotr (a + b) 43 + rotr c 30 + d
  let z := hashLen16 y (a + rotr (b + P.K2) 18 + c) mul
  let e := (← fetch64 B 16) * mul
  let f ← fetch64 B 24
  let g := (y + (← fetch64 B (L.toNat - 32))) * mul
  let h := (z + (← fetch64 B (L.toNat - 24))) * mul
  return hashLen16 (rotr (e + f) 43 + rotr g 30 + h) (e + rotr (f + a) 18 + g) mul

/-- `HashLen65to96(L)`, the medium mixer with three windows (R112). -/
def hashLen65to96 (P : Params) (B : Buffer) (L : Word) : Read Word := do
  let mul0 := P.K2 - 114
  let mul1 := P.K2 - 114 + 2 * L
  let h0 ← windowHash P B 0 mul0 0 0
  let h1 ← windowHash P B 32 mul1 0 0
  let h2 ← windowHash P B (L.toNat - 32) mul1 h0 h1
  return (h2 * 9 + (h0 >>> 17) + (h1 >>> 21)) * mul1

/-! ### The commands -/

/-- A closed-form path command: `check_length`, then the path's value in `R[d]` (R135, R136). -/
def closedForm (path : Params → Buffer → Word → Read Word) (lo hi : Nat) (d a : Reg) (s : State) :
    State :=
  let L := s.operand a
  s.checkLength L lo hi fun s => s.completeRead do return [(d, ← path s.params s.buf L)]

/-- `HL0_16` (R105). -/
def execHl0_16 (d a : Reg) (s : State) : Result := .next (closedForm hashLen0to16 0 16 d a s)

/-- `HL17_32` (R107). -/
def execHl17_32 (d a : Reg) (s : State) : Result := .next (closedForm hashLen17to32 17 32 d a s)

/-- `HL33_64` (R109). -/
def execHl33_64 (d a : Reg) (s : State) : Result := .next (closedForm hashLen33to64 33 64 d a s)

/-- `HL33_64NA` (R111). -/
def execHl33_64na (d a : Reg) (s : State) : Result :=
  .next (closedForm hashLen33to64na 33 64 d a s)

/-- `HL65_96` (R113). -/
def execHl65_96 (d a : Reg) (s : State) : Result := .next (closedForm hashLen65to96 65 96 d a s)

end Sys2Proof.Machine
end

