-- ==== Sys2Proof/Machine/BlockLoop.lean ====
section
/-! DEFINITION. The na and uo block loops and the seeded forms (`43_block_loop.md`, R115 to R133):
their statement sequences on the accumulator, the whole functions `NA64`, `NA64S` and `UO64S`, the
sequencer's steps (R132), and the loop commands. -/

namespace Sys2Proof.Machine

/-! ### Loop geometry (R117) -/

/-- The number of iterations of a loop over `L` bytes (R117). -/
def iterations (L : Word) : Nat := (L.toNat - 1) / 64

/-- `end` (R117). -/
def loopEnd (L : Word) : Nat := iterations L * 64

/-- `last64` (R117). -/
def tailOffset (L : Word) : Nat := L.toNat - 64

/-- `STEPS(cmd)` of a loop command with `L > 64` in the reference decomposition (R132, R169). -/
def loopSteps (L : Word) : Nat := iterations L + 3

/-! ### The na loop -/

/-- na initialisation (R120). `u` is left unused (R119); `mul` is written by the tail. -/
def naInit (P : Params) (B : Buffer) (acc : Acc) : Read Acc := do
  let seed := P.SEED_NA
  let x := seed
  let y := seed * P.K1 + P.C113
  let z := shiftMix (y * P.K2 + P.C113) * P.K2
  let x := x * P.K2 + (← fetch64 B 0)
  return { acc with x, y, z, vlo := 0, vhi := 0, wlo := 0, whi := 0 }

/-- na iteration at block offset `p` (R121). -/
def naIteration (P : Params) (B : Buffer) (p : Nat) (acc : Acc) : Read Acc := do
  let x := rotr (acc.x + acc.y + acc.vlo + (← fetch64 B (p + 8))) 37 * P.K1
  let y := rotr (acc.y + acc.vhi + (← fetch64 B (p + 48))) 42 * P.K1
  let x := x ^^^ acc.whi
  let y := y + (acc.vlo + (← fetch64 B (p + 40)))
  let z := rotr (acc.z + acc.wlo) 33 * P.K1
  let v ← weakPairMixAt B p (acc.vhi * P.K1) (x + acc.wlo)
  let w ← weakPairMixAt B (p + 32) (z + acc.whi) (y + (← fetch64 B (p + 16)))
  return { acc with x := z, y, z := x, vlo := v.1, vhi := v.2, wlo := w.1, whi := w.2 }

/-- na tail (R122). -/
def naTail (P : Params) (B : Buffer) (L : Word) (acc : Acc) : Read Acc := do
  let mul := P.K1 + ((acc.z &&& 0xFF) <<< 1)
  let p := tailOffset L
  let wlo := acc.wlo + ((L - 1) &&& 63)
  let vlo := acc.vlo + wlo
  let wlo := wlo + vlo
  let x := rotr (acc.x + acc.y + vlo + (← fetch64 B (p + 8))) 37 * mul
  let y := rotr (acc.y + acc.vhi + (← fetch64 B (p + 48))) 42 * mul
  let x := x ^^^ (acc.whi * 9)
  let y := y + (vlo * 9 + (← fetch64 B (p + 40)))
  let z := rotr (acc.z + wlo) 33 * mul
  let v ← weakPairMixAt B p (acc.vhi * mul) (x + wlo)
  let w ← weakPairMixAt B (p + 32) (z + acc.whi) (y + (← fetch64 B (p + 16)))
  return { acc with x := z, y, z := x, vlo := v.1, vhi := v.2, wlo := w.1, whi := w.2, mul }

/-- na finalisation (R123). -/
def naFinish (P : Params) (acc : Acc) : Word :=
  hashLen16 (hashLen16 acc.vlo acc.wlo acc.mul + shiftMix acc.y * P.K0 + acc.z)
    (hashLen16 acc.vhi acc.whi acc.mul + acc.x) acc.mul

/-! ### The uo loop -/

/-- uo initialisation (R128). -/
def uoInit (P : Params) (s0 s1 : Word) : Acc :=
  let x := s0
  let y := s1 * P.K2 + P.C113
  let z := shiftMix (y * P.K2) * P.K2
  let u := x - z
  let x := x * P.K2
  let mul := P.K2 + (u &&& 0x82)
  { x, y, z, u, vlo := s0, vhi := s1, wlo := 0, whi := 0, mul }

/-- uo iteration at block offset `p` (R129). -/
def uoIteration (B : Buffer) (p : Nat) (acc : Acc) : Read Acc := do
  let a0 ← fetch64 B p
  let a1 ← fetch64 B (p + 8)
  let a2 ← fetch64 B (p + 16)
  let a3 ← fetch64 B (p + 24)
  let a4 ← fetch64 B (p + 32)
  let a5 ← fetch64 B (p + 40)
  let a6 ← fetch64 B (p + 48)
  let a7 ← fetch64 B (p + 56)
  let x := acc.x + (a0 + a1)
  let y := acc.y + a2
  let z := acc.z + a3
  let vlo := acc.vlo + a4
  let vhi := acc.vhi + (a5 + a1)
  let wlo := acc.wlo + a6
  let whi := acc.whi + a7
  let x := rotr x 26
  let x := x * 9
  let y := rotr y 29
  let z := z * acc.mul
  let vlo := rotr vlo 33
  let vhi := rotr vhi 30
  let wlo := wlo ^^^ x
  let wlo := wlo * 9
  let z := rotr z 32
  let z := z + whi
  let whi := whi + z
  let z := z * 9
  let (u, y) := (y, acc.u)
  let z := z + (a0 + a6)
  let vlo := vlo + a2
  let vhi := vhi + a3
  let wlo := wlo + a4
  let whi := whi + (a5 + a6)
  let x := x + a1
  let y := y + a7
  let y := y + vlo
  let vlo := vlo + (x - y)
  let vhi := vhi + wlo
  let wlo := wlo + vhi
  let whi := whi + (x - y)
  let x := x + whi
  let whi := rotr whi 34
  let (u, z) := (z, u)
  return { acc with x, y, z, u, vlo, vhi, wlo, whi }

/-- uo tail (R130, up to the second weak-pair call). -/
def uoTail (B : Buffer) (L : Word) (acc : Acc) : Read Acc := do
  let p := tailOffset L
  let u := acc.u * 9
  let vhi := rotr acc.vhi 28
  let vlo := rotr acc.vlo 20
  let wlo := acc.wlo + ((L - 1) &&& 63)
  let u := u + acc.y
  let y := acc.y + u
  let x := rotr (y - acc.x + vlo + (← fetch64 B (p + 8))) 37 * acc.mul
  let y := rotr (y ^^^ vhi ^^^ (← fetch64 B (p + 48))) 42 * acc.mul
  let x := x ^^^ (acc.whi * 9)
  let y := y + vlo * (← fetch64 B (p + 40))
  let z := rotr (acc.z + wlo) 33 * acc.mul
  let v ← weakPairMixAt B p (vhi * acc.mul) (x + wlo)
  let w ← weakPairMixAt B (p + 32) (z + acc.whi) (y + (← fetch64 B (p + 16)))
  return { acc with x, y, z, u, vlo := v.1, vhi := v.2, wlo := w.1, whi := w.2 }

/-- uo finalisation (R130, the `return`; `90_conflicts.md` C5). -/
def uoFinish (P : Params) (acc : Acc) : Word :=
  avalancheH (hashLen16 (acc.vlo + acc.x) (acc.wlo ^^^ acc.y) acc.mul + acc.z - acc.u)
    (avalancheH (acc.vhi + acc.y) (acc.whi + acc.z) P.K2 30 ^^^ acc.x) acc.mul 31

/-! ### The whole functions -/

/-- `n` iterations, the first at block offset `p` (R116). -/
def iterateFrom (body : Nat → Acc → Read Acc) : Nat → Nat → Acc → Read Acc
  | 0, _, acc => .ok acc
  | n + 1, p, acc => do iterateFrom body n (p + 64) (← body p acc)

/-- `NA64(L)` for `L ≤ 64`: the na closed forms (R118). -/
def naClosed (P : Params) (B : Buffer) (L : Word) : Read Word :=
  if L.toNat ≤ 16 then hashLen0to16 P B L
  else if L.toNat ≤ 32 then hashLen17to32 P B L
  else hashLen33to64na P B L

/-- The na loop over `L > 64` bytes, from any accumulator (R119). -/
def naLoop (P : Params) (B : Buffer) (L : Word) (acc : Acc) : Read Word := do
  let acc ← naInit P B acc
  let acc ← iterateFrom (naIteration P B) (iterations L) 0 acc
  return naFinish P (← naTail P B L acc)

/-- The uo loop over `L > 64` bytes (R127). -/
def uoLoop (P : Params) (B : Buffer) (L s0 s1 : Word) : Read Word := do
  let acc ← iterateFrom (uoIteration B) (iterations L) 0 (uoInit P s0 s1)
  return uoFinish P (← uoTail B L acc)

/-- `NA64(L)` (R118, R119). The accumulator its loop starts from is never read (R32). -/
def na64 (P : Params) (B : Buffer) (L : Word) : Read Word :=
  if L.toNat ≤ 64 then naClosed P B L else naLoop P B L Acc.zero

/-- The seeded form of a one-seed value (R124). -/
def seeded (P : Params) (h s0 s1 : Word) : Word := hash128to64 P (h - s0) s1

/-- `NA64S(L, s0, s1)` (R124). -/
def na64s (P : Params) (B : Buffer) (L s0 s1 : Word) : Read Word := do
  return seeded P (← na64 P B L) s0 s1

/-- `UO64S(L, s0, s1)` (R127). -/
def uo64s (P : Params) (B : Buffer) (L s0 s1 : Word) : Read Word :=
  if L.toNat ≤ 64 then na64s P B L s0 s1 else uoLoop P B L s0 s1

/-! ### The sequencer (R31, R132) -/

/-- The path a loop command takes for its length and seeds. -/
inductive Path where
  /-- A closed form: one step. -/
  | closed (value : Read Word)
  /-- The na loop, then the seeded form if there are seeds (R119, R124). -/
  | na (seeds : Option (Word × Word))
  /-- The uo loop (R127). -/
  | uo (s0 s1 : Word)

/-- The result of the na loop, seeded if there are seeds (R124). -/
def applySeeds (P : Params) : Option (Word × Word) → Word → Word
  | none, h => h
  | some (s0, s1), h => seeded P h s0 s1

/-- The accumulator after a step, or the fault of its first read out of range. -/
def State.withAcc (s : State) (acc : Read Acc) (go : State → State) : State :=
  match acc with
  | .ok acc => go { s with acc }
  | .error off => s.oobRead off

/-- Step 1: the loop bounds and the first accumulator (R120, R128, R117). -/
def State.beginLoop (s : State) (L : Word) (init : Read Acc) : State :=
  s.withAcc init fun s =>
    { s with len := L, pos := 0, endPos := BitVec.ofNat 64 (loopEnd L),
             last64 := BitVec.ofNat 64 (tailOffset L), stage := .iterate }

/-- One iteration at `pos`, then `pos += 64`, until `pos = end` (R117, R121, R129). -/
def State.iterateOnce (s : State) (body : Nat → Acc → Read Acc) : State :=
  s.withAcc (body s.pos.toNat s.acc) fun s =>
    let pos := s.pos + 64
    { s with pos, stage := if pos = s.endPos then .tail else .iterate }

/-- The tail: `p = last64` (R122, R130). -/
def State.runTail (s : State) (tail : Word → Acc → Read Acc) : State :=
  s.withAcc (tail s.len s.acc) fun s => { s with pos := s.last64, stage := .finish }

/-- One sequencer step of a loop command on the na loop (R119, R132). -/
def naStep (seeds : Option (Word × Word)) (d : Reg) (L : Word) (s : State) : State :=
  match s.stage with
  | .start =>
    s.checkLength L 0 s.params.maxLen fun s => s.beginLoop L (naInit s.params s.buf s.acc)
  | .iterate => s.iterateOnce (naIteration s.params s.buf)
  | .tail => s.runTail (naTail s.params s.buf)
  | .finish => s.complete [(d, applySeeds s.params seeds (naFinish s.params s.acc))]

/-- One sequencer step of a loop command on the uo loop (R127, R132). -/
def uoStep (s0 s1 : Word) (d : Reg) (L : Word) (s : State) : State :=
  match s.stage with
  | .start =>
    s.checkLength L 0 s.params.maxLen fun s => s.beginLoop L (.ok (uoInit s.params s0 s1))
  | .iterate => s.iterateOnce (uoIteration s.buf)
  | .tail => s.runTail (uoTail s.buf)
  | .finish => s.complete [(d, uoFinish s.params s.acc)]

/-- One sequencer step of a loop command: `check_length` and a closed form, or a step of its loop
(R132, R135). -/
def loopStep (path : Path) (d : Reg) (L : Word) (s : State) : State :=
  match path with
  | .closed value =>
    s.checkLength L 0 s.params.maxLen fun s => s.completeRead do return [(d, ← value)]
  | .na seeds => naStep seeds d L s
  | .uo s0 s1 => uoStep s0 s1 d L s

/-- At most `n` sequencer steps, up to the command's completion or fault. -/
def runSteps (stepOnce : State → State) : Nat → State → State
  | 0, s => s
  | n + 1, s =>
    let t := stepOnce s
    match t.phase with
    | .idle => t
    | .run => runSteps stepOnce n t

/-! ### The commands -/

/-- The path of `NA64` (R118). -/
def pathNa64 (P : Params) (B : Buffer) (L : Word) : Path :=
  if L.toNat ≤ 64 then .closed (naClosed P B L) else .na none

/-- The path of `NA64S` (R124). -/
def pathNa64s (P : Params) (B : Buffer) (L s0 s1 : Word) : Path :=
  if L.toNat ≤ 64 then .closed do return seeded P (← naClosed P B L) s0 s1 else .na (some (s0, s1))

/-- The path of `UO64S` (R127). -/
def pathUo64s (P : Params) (B : Buffer) (L s0 s1 : Word) : Path :=
  if L.toNat ≤ 64 then .closed do return seeded P (← naClosed P B L) s0 s1 else .uo s0 s1

/-- One sequencer step of `NA64` (R125). -/
def stepNa64 (d a : Reg) (s : State) : State :=
  let L := s.operand a
  loopStep (pathNa64 s.params s.buf L) d L s

/-- One sequencer step of `NA64S` (R126). -/
def stepNa64s (d a b c : Reg) (s : State) : State :=
  let L := s.operand a
  loopStep (pathNa64s s.params s.buf L (s.operand b) (s.operand c)) d L s

/-- One sequencer step of `UO64S` (R131). -/
def stepUo64s (d a b c : Reg) (s : State) : State :=
  let L := s.operand a
  loopStep (pathUo64s s.params s.buf L (s.operand b) (s.operand c)) d L s

/-- `NA64` (R125): its remaining sequencer steps. -/
def execNa64 (d a : Reg) (s : State) : Result :=
  .next (runSteps (stepNa64 d a) (loopSteps (s.operand a)) s)

/-- `NA64S` (R126): its remaining sequencer steps. -/
def execNa64s (d a b c : Reg) (s : State) : Result :=
  .next (runSteps (stepNa64s d a b c) (loopSteps (s.operand a)) s)

/-- `UO64S` (R131): its remaining sequencer steps. -/
def execUo64s (d a b c : Reg) (s : State) : Result :=
  .next (runSteps (stepUo64s d a b c) (loopSteps (s.operand a)) s)

end Sys2Proof.Machine
end

