-- ==== Sys2Proof/Machine/LengthDispatch.lean ====
section
/-! DEFINITION. The length dispatcher and the two public entry points (`44_dispatch.md`, R138 to
R141). -/

namespace Sys2Proof.Machine

/-- The closed form of the one-seed dispatcher for `L ≤ 96` (R138). -/
def farmClosed (P : Params) (B : Buffer) (L : Word) : Read Word :=
  if L.toNat ≤ 16 then hashLen0to16 P B L
  else if L.toNat ≤ 32 then hashLen17to32 P B L
  else if L.toNat ≤ 64 then hashLen33to64 P B L
  else hashLen65to96 P B L

/-- `Farm64(L)`, the one-seed dispatcher (R138). -/
def farm64 (P : Params) (B : Buffer) (L : Word) : Read Word :=
  if L.toNat ≤ 96 then farmClosed P B L
  else if L.toNat ≤ 256 then na64 P B L
  else uo64s P B L P.SEED_NA 0

/-- `Farm64S(L, s0, s1)` (R140). -/
def farm64s (P : Params) (B : Buffer) (L s0 s1 : Word) : Read Word := uo64s P B L s0 s1

/-- The path of `HASH64` (R138). -/
def pathHash64 (P : Params) (B : Buffer) (L : Word) : Path :=
  if L.toNat ≤ 96 then .closed (farmClosed P B L)
  else if L.toNat ≤ 256 then .na none
  else .uo P.SEED_NA 0

/-- One sequencer step of `HASH64` (R139): a step of the path it dispatches to (R169). -/
def stepHash64 (d a : Reg) (s : State) : State :=
  let L := s.operand a
  loopStep (pathHash64 s.params s.buf L) d L s

/-- One sequencer step of `HASH64S` (R141): a step of the path it dispatches to (R140, R169). -/
def stepHash64s (d a b c : Reg) (s : State) : State :=
  let L := s.operand a
  loopStep (pathUo64s s.params s.buf L (s.operand b) (s.operand c)) d L s

/-- `HASH64` (R139): its remaining sequencer steps. -/
def execHash64 (d a : Reg) (s : State) : Result :=
  .next (runSteps (stepHash64 d a) (loopSteps (s.operand a)) s)

/-- `HASH64S` (R141): its remaining sequencer steps. -/
def execHash64s (d a b c : Reg) (s : State) : Result :=
  .next (runSteps (stepHash64s d a b c) (loopSteps (s.operand a)) s)

end Sys2Proof.Machine
end

