-- ==== Sys2Proof/Machine/Primitives.lean ====
section
/-! DEFINITION. The bit-primitive and datapath commands (`40_primitives.md`, R65 to R84). Each takes
one sequencer step: it computes from the latched operands and completes (R65). -/

namespace Sys2Proof.Machine

/-- `ADD` (R67). -/
def execAdd (d a b : Reg) (s : State) : Result :=
  .next (s.complete [(d, s.operand a + s.operand b)])

/-- `SUB` (R68). -/
def execSub (d a b : Reg) (s : State) : Result :=
  .next (s.complete [(d, s.operand a - s.operand b)])

/-- `MUL` (R69). -/
def execMul (d a b : Reg) (s : State) : Result :=
  .next (s.complete [(d, s.operand a * s.operand b)])

/-- `XOR` (R70). -/
def execXor (d a b : Reg) (s : State) : Result :=
  .next (s.complete [(d, s.operand a ^^^ s.operand b)])

/-- `AND` (R71). -/
def execAnd (d a b : Reg) (s : State) : Result :=
  .next (s.complete [(d, s.operand a &&& s.operand b)])

/-- `SHRI` (R72). -/
def execShri (d a : Reg) (n : Imm6) (s : State) : Result :=
  .next (s.complete [(d, s.operand a >>> n.val)])

/-- `SHLI` (R73). -/
def execShli (d a : Reg) (n : Imm6) (s : State) : Result :=
  .next (s.complete [(d, s.operand a <<< n.val)])

/-- `ROTRI` (R74). -/
def execRotri (d a : Reg) (r : Imm6) (s : State) : Result :=
  .next (s.complete [(d, rotr (s.operand a) r.val)])

/-- `ROTLI` (R75). -/
def execRotli (d a : Reg) (r : Imm6) (s : State) : Result :=
  .next (s.complete [(d, rotl (s.operand a) r.val)])

/-- `ROTR` (R76). -/
def execRotr (d a b : Reg) (s : State) : Result :=
  .next (s.complete [(d, rotr (s.operand a) ((s.operand b).toNat % 64))])

/-- `ROTL` (R77). -/
def execRotl (d a b : Reg) (s : State) : Result :=
  .next (s.complete [(d, rotl (s.operand a) ((s.operand b).toNat % 64))])

/-- `SWAP` (R78). -/
def execSwap (a b : Reg) (s : State) : Result :=
  .next (s.complete [(a, s.operand b), (b, s.operand a)])

/-- `LDI` (R79). -/
def execLdi (d : Reg) (n : Imm6) (s : State) : Result :=
  .next (s.complete [(d, immWord n)])

/-- `LDK` (R80). -/
def execLdk (d : Reg) (k : Imm6) (s : State) : Result :=
  match rom s.params k with
  | some v => .next (s.complete [(d, v)])
  | none => .next s.illegalOperand

/-- `MOV` (R81). -/
def execMov (d a : Reg) (s : State) : Result :=
  .next (s.complete [(d, s.operand a)])

/-- `RDB` (R82). -/
def execRdb (d a : Reg) (s : State) : Result :=
  .next (s.completeRead do return [(d, ← byteRead s.buf (s.operand a).toNat)])

/-- `RDLE32` (R83). -/
def execRdle32 (d a : Reg) (s : State) : Result :=
  .next (s.completeRead do return [(d, ← fetch32 s.buf (s.operand a).toNat)])

/-- `RDLE64` (R84). -/
def execRdle64 (d a : Reg) (s : State) : Result :=
  .next (s.completeRead do return [(d, ← fetch64 s.buf (s.operand a).toNat)])

end Sys2Proof.Machine
end

