-- ==== Sys2Proof/Machine/Dispatch.lean ====
section
/-! DEFINITION. What each command does from where it stands to its completion or fault: one arm per
constructor (`30_encoding.md` R58). -/

namespace Sys2Proof.Machine

def exec (i : Instr) (s : State) : Host.Outcome State Fault Refusal :=
  match i with
  -- bit primitives and datapath (`40_primitives.md`)
  | .add d a b => Sys2Proof.Machine.execAdd d a b s
  | .sub d a b => Sys2Proof.Machine.execSub d a b s
  | .mul d a b => Sys2Proof.Machine.execMul d a b s
  | .xor d a b => Sys2Proof.Machine.execXor d a b s
  | .and d a b => Sys2Proof.Machine.execAnd d a b s
  | .shri d a n => Sys2Proof.Machine.execShri d a n s
  | .shli d a n => Sys2Proof.Machine.execShli d a n s
  | .rotri d a r => Sys2Proof.Machine.execRotri d a r s
  | .rotli d a r => Sys2Proof.Machine.execRotli d a r s
  | .rotr d a b => Sys2Proof.Machine.execRotr d a b s
  | .rotl d a b => Sys2Proof.Machine.execRotl d a b s
  | .swap a b => Sys2Proof.Machine.execSwap a b s
  | .ldi d n => Sys2Proof.Machine.execLdi d n s
  | .ldk d k => Sys2Proof.Machine.execLdk d k s
  | .mov d a => Sys2Proof.Machine.execMov d a s
  | .rdb d a => Sys2Proof.Machine.execRdb d a s
  | .rdle32 d a => Sys2Proof.Machine.execRdle32 d a s
  | .rdle64 d a => Sys2Proof.Machine.execRdle64 d a s
  -- combiners (`41_combiners.md`)
  | .shiftmix d a => Sys2Proof.Machine.execShiftmix d a s
  | .hl16 d a b c => Sys2Proof.Machine.execHl16 d a b c s
  | .hl16k d a b => Sys2Proof.Machine.execHl16k d a b s
  | .wpmix d a => Sys2Proof.Machine.execWpmix d a s
  | .wpmixb d a b c => Sys2Proof.Machine.execWpmixb d a b c s
  | .hmix d a b c r => Sys2Proof.Machine.execHmix d a b c r s
  | .h32 d a b c => Sys2Proof.Machine.execH32 d a b c s
  -- short and medium paths (`42_short_medium.md`)
  | .hl0_16 d a => Sys2Proof.Machine.execHl0_16 d a s
  | .hl17_32 d a => Sys2Proof.Machine.execHl17_32 d a s
  | .hl33_64 d a => Sys2Proof.Machine.execHl33_64 d a s
  | .hl33_64na d a => Sys2Proof.Machine.execHl33_64na d a s
  | .hl65_96 d a => Sys2Proof.Machine.execHl65_96 d a s
  -- block loops (`43_block_loop.md`)
  | .na64 d a => Sys2Proof.Machine.execNa64 d a s
  | .na64s d a b c => Sys2Proof.Machine.execNa64s d a b c s
  | .uo64s d a b c => Sys2Proof.Machine.execUo64s d a b c s
  -- public entry points (`44_dispatch.md`)
  | .hash64 d a => Sys2Proof.Machine.execHash64 d a s
  | .hash64s d a b c => Sys2Proof.Machine.execHash64s d a b c s

end Sys2Proof.Machine
end

