-- ==== Sys2Proof/Machine/Sequencer.lean ====
section
/-! DEFINITION. The core's turns: some sequencer steps of the running command, or all its remaining
steps merged (`44_dispatch.md` R135, `43_block_loop.md` R132). -/

namespace Sys2Proof.Machine

/-- One sequencer step of a command. A loop command takes one of R132's steps; every other command
has one step, its whole effect (R169). -/
def execStep (i : Instr) (s : State) : Result :=
  match i with
  | .na64 d a => .next (stepNa64 d a s)
  | .na64s d a b c => .next (stepNa64s d a b c s)
  | .uo64s d a b c => .next (stepUo64s d a b c s)
  | .hash64 d a => .next (stepHash64 d a s)
  | .hash64s d a b c => .next (stepHash64s d a b c s)
  | .add .. | .sub .. | .mul .. | .xor .. | .and .. | .shri .. | .shli .. | .rotri .. | .rotli ..
  | .rotr .. | .rotl .. | .swap .. | .ldi .. | .ldk .. | .mov .. | .rdb .. | .rdle32 .. | .rdle64 ..
  | .shiftmix .. | .hl16 .. | .hl16k .. | .wpmix .. | .wpmixb .. | .hmix .. | .h32 .. | .hl0_16 ..
  | .hl17_32 .. | .hl33_64 .. | .hl33_64na .. | .hl65_96 .. => exec i s

/-- The fault cause of a word that is no command (R59, R60, R145). -/
def causeOf : DecodeError → Cause
  | .reservedOpcode => .illegalOpcode
  | .reservedBits | .unusedField | .groupPastR15 | .romIndex => .illegalOperand

/-- Stages 1 and 2 of R135: the latched word is decoded, or faults with itself in `FINFO` (R149);
then `go` runs the command. An idle core does nothing (R160). -/
def State.running (s : State) (go : Instr → State → Result) : Result :=
  match s.phase with
  | .idle => .next s
  | .run =>
    match decode s.cwl with
    | .ok i => go i s
    | .error e => .next (s.takeFault (causeOf e) (s.cwl.setWidth 64))

/-- The core takes one step of the reference decomposition (R132). -/
def coreStep (s : State) : Result := s.running execStep

/-- The core takes `n` steps of the reference decomposition, as one step of its own (R132). -/
def coreSteps : Nat → State → Result
  | 0, s => .next s
  | n + 1, s =>
    match coreStep s with
    | .next t => coreSteps n t
    | stopped => stopped

/-- The core runs the command to its completion or fault: its remaining steps merged (R132). -/
def coreRun (s : State) : Result := s.running exec

end Sys2Proof.Machine
end

