-- ==== Sys2Proof/Machine/Step.lean ====
section
/-! DEFINITION. One step of the machine: the next turn of the total order in which host actions and
core steps are serialised (`60_exceptions.md` R148, D1). -/

namespace Sys2Proof.Machine

/-- The next turn. When no turn is listed the core moves: it runs its command, or, idle, does nothing
(R160). -/
def step (s : State) : Host.Outcome State Fault Refusal :=
  match s.agenda with
  | [] => coreRun s
  | .coreRun :: rest => coreRun { s with agenda := rest }
  | .coreSteps n :: rest => coreSteps n { s with agenda := rest }
  | .host a :: rest => hostAct a { s with agenda := rest }

/-- `s` with a command word accepted and the core's turn to run it put first: the very next step runs
exactly it. A recorded fault is cleared, since no command runs while `FAULT = 1` (R151). See
assumption 9. -/
def State.withFetchWord (s : State) (nbits w : Nat) : State :=
  { s.clearFault.accept (tableWord nbits w) with agenda := .coreRun :: s.agenda }

end Sys2Proof.Machine
end

