-- ==== Sys2Proof/Machine/Assembler.lean ====
section
/-! DEFINITION. The assembler's side of the spec: how a command is written (`30_encoding.md` R63) and
what the pseudo-instructions stand for (R64). The machine does not use it. -/

namespace Sys2Proof

/-- The pseudo-instructions (R64). -/
inductive Pseudo where
  | nop
  | clr (d : Reg)
  | ldc (d : Reg) (k : Imm6)
  | rotr (d a : Reg) (r : Imm6)
  | rotl (d a : Reg) (r : Imm6)
  deriving DecidableEq, Repr

/-- The command a pseudo-instruction stands for (R64). -/
def Pseudo.expand : Pseudo → Instr
  | .nop => .mov 0 0
  | .clr d => .ldi d 0
  | .ldc d k => .ldk d k
  | .rotr d a r => .rotri d a r
  | .rotl d a r => .rotli d a r

namespace Machine

/-- A register, `Rn` (R63). -/
def asmReg (r : Reg) : String := "R" ++ toString r.val

/-- An immediate in decimal, `#n` (R63). -/
def asmImm (n : Imm6) : String := "#" ++ toString n.val

/-- An immediate in hexadecimal, `#0xNN` (R63). -/
def asmImmHex (n : Imm6) : String :=
  "#0x" ++ String.singleton (Nat.digitChar (n.val / 16)) ++
    String.singleton (Nat.digitChar (n.val % 16))

/-- The name of a constant ROM index, `#Kname` (R63, R33). -/
def asmRomName (k : Imm6) : Option String :=
  match k.val with
  | 0 => some "#K0"
  | 1 => some "#K1"
  | 2 => some "#K2"
  | 3 => some "#KMUL"
  | 4 => some "#SEED_NA"
  | 5 => some "#C113"
  | _ => none

/-- A buffer offset operand, `[Rn]` (R63). -/
def asmOffset (r : Reg) : String := "[" ++ asmReg r ++ "]"

/-- A group of `n` registers, `Rn:Rn+k` (R63). -/
def asmGroup (r : Reg) (n : Nat) : String := asmReg r ++ ":" ++ "R" ++ toString (r.val + n - 1)

/-- A mnemonic and its operands, separated by commas (R63). -/
def asmLine (mnemonic : String) (operands : List String) : String :=
  mnemonic ++ " " ++ String.intercalate ", " operands

/-- A command as it is written, its immediate written by `imm` (R63, R55). -/
def asmWith (imm : Imm6 → String) : Instr → String
  | .add d a b => asmLine "ADD" [asmReg d, asmReg a, asmReg b]
  | .sub d a b => asmLine "SUB" [asmReg d, asmReg a, asmReg b]
  | .mul d a b => asmLine "MUL" [asmReg d, asmReg a, asmReg b]
  | .xor d a b => asmLine "XOR" [asmReg d, asmReg a, asmReg b]
  | .and d a b => asmLine "AND" [asmReg d, asmReg a, asmReg b]
  | .shri d a n => asmLine "SHRI" [asmReg d, asmReg a, imm n]
  | .shli d a n => asmLine "SHLI" [asmReg d, asmReg a, imm n]
  | .rotri d a r => asmLine "ROTRI" [asmReg d, asmReg a, imm r]
  | .rotli d a r => asmLine "ROTLI" [asmReg d, asmReg a, imm r]
  | .rotr d a b => asmLine "ROTR" [asmReg d, asmReg a, asmReg b]
  | .rotl d a b => asmLine "ROTL" [asmReg d, asmReg a, asmReg b]
  | .swap a b => asmLine "SWAP" [asmReg a, asmReg b]
  | .ldi d n => asmLine "LDI" [asmReg d, imm n]
  | .ldk d k => asmLine "LDK" [asmReg d, imm k]
  | .mov d a => asmLine "MOV" [asmReg d, asmReg a]
  | .rdb d a => asmLine "RDB" [asmReg d, asmOffset a]
  | .rdle32 d a => asmLine "RDLE32" [asmReg d, asmOffset a]
  | .rdle64 d a => asmLine "RDLE64" [asmReg d, asmOffset a]
  | .shiftmix d a => asmLine "SHIFTMIX" [asmReg d, asmReg a]
  | .hl16 d a b c => asmLine "HL16" [asmReg d, asmReg a, asmReg b, asmReg c]
  | .hl16k d a b => asmLine "HL16K" [asmReg d, asmReg a, asmReg b]
  | .wpmix d a => asmLine "WPMIX" [asmGroup d 2, asmGroup a 6]
  | .wpmixb d a b c => asmLine "WPMIXB" [asmGroup d 2, asmOffset a, asmReg b, asmReg c]
  | .hmix d a b c r => asmLine "HMIX" [asmReg d, asmReg a, asmReg b, asmReg c, imm r]
  | .h32 d a b c => asmLine "H32" [asmReg d, asmOffset a, asmReg b, asmGroup c 2]
  | .hl0_16 d a => asmLine "HL0_16" [asmReg d, asmReg a]
  | .hl17_32 d a => asmLine "HL17_32" [asmReg d, asmReg a]
  | .hl33_64 d a => asmLine "HL33_64" [asmReg d, asmReg a]
  | .hl33_64na d a => asmLine "HL33_64NA" [asmReg d, asmReg a]
  | .hl65_96 d a => asmLine "HL65_96" [asmReg d, asmReg a]
  | .na64 d a => asmLine "NA64" [asmReg d, asmReg a]
  | .na64s d a b c => asmLine "NA64S" [asmReg d, asmReg a, asmReg b, asmReg c]
  | .uo64s d a b c => asmLine "UO64S" [asmReg d, asmReg a, asmReg b, asmReg c]
  | .hash64 d a => asmLine "HASH64" [asmReg d, asmReg a]
  | .hash64s d a b c => asmLine "HASH64S" [asmReg d, asmReg a, asmReg b, asmReg c]

/-- A command with its immediate in decimal (R63). -/
def asm : Instr → String := asmWith asmImm

/-- `LDK Rd, #Kname` (R63). -/
def asmLdkNamed (d : Reg) (k : Imm6) : Option String :=
  (asmRomName k).map fun name => asmLine "LDK" [asmReg d, name]

/-- A pseudo-instruction as it is written (R64). Only an index of the ROM has a name for `LDC`. -/
def asmPseudo : Pseudo → Option String
  | .nop => some "NOP"
  | .clr d => some (asmLine "CLR" [asmReg d])
  | .ldc d k => (asmRomName k).map fun name => asmLine "LDC" [asmReg d, name]
  | .rotr d a r => some (asmLine "ROTR" [asmReg d, asmReg a, asmImm r])
  | .rotl d a r => some (asmLine "ROTL" [asmReg d, asmReg a, asmImm r])

end Machine

end Sys2Proof
end

