-- ==== Sys2Proof/Safety.lean ====
section
/-! DEFINITION. The terms the claims use: what a command's completion and its fault are allowed to
change (R137, R146, R147), when a command is ready to run (R134), and the invariant of every run. -/

namespace Sys2Proof

/-- The commands that take a length: the register it is in and the range `check_length` allows, as
the table of R136 gives them. -/
def Instr.lengthRange (P : Params) : Instr → Option (Reg × Nat × Nat)
  | .hl0_16 _ a => some (a, 0, 16)
  | .hl17_32 _ a => some (a, 17, 32)
  | .hl33_64 _ a | .hl33_64na _ a => some (a, 33, 64)
  | .hl65_96 _ a => some (a, 65, 96)
  | .na64 _ a | .na64s _ a _ _ | .uo64s _ a _ _ => some (a, 0, P.maxLen)
  | .hash64 _ a | .hash64s _ a _ _ => some (a, 0, P.maxLen)
  | .add .. | .sub .. | .mul .. | .xor .. | .and .. | .shri .. | .shli .. | .rotri .. | .rotli ..
  | .rotr .. | .rotl .. | .swap .. | .ldi .. | .ldk .. | .mov .. | .rdb .. | .rdle32 .. | .rdle64 ..
  | .shiftmix .. | .hl16 .. | .hl16k .. | .wpmix .. | .wpmixb .. | .hmix .. | .h32 .. => none

/-- The commands that can run a block loop: the register their length is in, and the length above
which they do (R118, R127, R138). -/
def Instr.loopAbove : Instr → Option (Reg × Nat)
  | .na64 _ a | .na64s _ a _ _ | .uo64s _ a _ _ | .hash64s _ a _ _ => some (a, 64)
  | .hash64 _ a => some (a, 96)
  | .add .. | .sub .. | .mul .. | .xor .. | .and .. | .shri .. | .shli .. | .rotri .. | .rotli ..
  | .rotr .. | .rotl .. | .swap .. | .ldi .. | .ldk .. | .mov .. | .rdb .. | .rdle32 .. | .rdle64 ..
  | .shiftmix .. | .hl16 .. | .hl16k .. | .wpmix .. | .wpmixb .. | .hmix .. | .h32 .. | .hl0_16 ..
  | .hl17_32 .. | .hl33_64 .. | .hl33_64na .. | .hl65_96 .. => none

namespace Machine

/-! ### What a command may change -/

/-- The value of register `r` after the writes `ws`, the later of two to one register winning. -/
def written : List (Reg × Word) → Reg → Word → Word
  | [], _, old => old
  | (q, v) :: ws, r, old => written ws r (if q = r then v else old)

/-- `t` is `s` after its command completed with the register writes `ws`: those registers, `DONE`,
`BUSY` and the phase have changed, and nothing else the host can see (R137). -/
structure Completed (s t : State) (ws : List (Reg × Word)) : Prop where
  reg : ∀ r, t.reg r = written ws r (s.reg r)
  status : t.status = { s.status with done := true, busy := false }
  phase : t.phase = .idle
  cmd : t.cmd = s.cmd
  ie : t.ie = s.ie
  finfo : t.finfo = s.finfo
  buf : t.buf = s.buf
  agenda : t.agenda = s.agenda
  readData : t.readData = s.readData
  params : t.params = s.params

/-- `t` is `s` after its command raised `Fault(cause, info)`: `FAULT`, `CAUSE`, `BUSY`, `FINFO` and
the phase have changed, and nothing else the host can see (R146, R147). -/
structure Faulted (s t : State) (cause : Cause) (info : Word) : Prop where
  reg : ∀ r, t.reg r = s.reg r
  status : t.status = { s.status with fault := true, cause := cause, busy := false }
  phase : t.phase = .idle
  finfo : t.finfo = info
  cmd : t.cmd = s.cmd
  ie : t.ie = s.ie
  buf : t.buf = s.buf
  agenda : t.agenda = s.agenda
  readData : t.readData = s.readData
  params : t.params = s.params

/-- `s` and `t` agree in everything the host can see, the registers of R20's map and the buffer, in
the turns to come and in the parameters. -/
structure SameVisible (s t : State) : Prop where
  reg : ∀ r, s.reg r = t.reg r
  cmd : s.cmd = t.cmd
  status : s.status = t.status
  ie : s.ie = t.ie
  finfo : s.finfo = t.finfo
  buf : s.buf = t.buf
  phase : s.phase = t.phase
  agenda : s.agenda = t.agenda
  readData : s.readData = t.readData
  params : s.params = t.params

/-! ### When a command is ready -/

/-- The latched value of every register the command names as a source is the register's current
value, as acceptance leaves it and R134 says it stays. -/
def Latched (i : Instr) (s : State) : Prop := ∀ r ∈ i.sources, s.operand r = s.reg r

/-- The command is accepted, none of its steps has run, and the host has left the buffer alone
(R134, R48). -/
structure Ready (i : Instr) (s : State) : Prop where
  latched : Latched i s
  running : s.phase = .run
  stage : s.stage = .start
  undisturbed : s.disturbed = false

/-- The word `w` stands for the command `i`, and from every ready state `i` completes with the writes
`ws` gives for that state. -/
structure CommandMeans (w : CmdWord) (i : Instr) (ws : State → List (Reg × Word)) : Prop where
  word : decode w = .ok i
  run : ∀ s, Ready i s → ∃ t, exec i s = .next t ∧ Completed s t (ws s)

/-- From `s` the command `i` takes the fault `cause` with `info` in `FINFO`. -/
def TakesFault (i : Instr) (s : State) (cause : Cause) (info : Word) : Prop :=
  ∃ t, exec i s = .next t ∧ Faulted s t cause info

/-- From `s` the command `i` takes `OOB_READ` for its read at `base + k`: `FINFO` is that offset, an
unbounded integer, modulo `2^ADDR_W` (R149), and so the 64-bit sum where `ADDR_W` is 64. -/
def TakesReadFault (i : Instr) (s : State) (base : Word) (k : Nat) : Prop :=
  ∃ info : Word, TakesFault i s .oobRead info ∧
    info.toNat = (base.toNat + k) % 2 ^ s.params.ADDR_W.val ∧
    (s.params.ADDR_W = 64 → info = base + BitVec.ofNat 64 k)

/-- From `s` the command `i` completes with the one register write `R[d] <- v`, where `v` is the
value of `value`, a computation that reads the buffer and finds every read in range. -/
def CompletesWith (i : Instr) (s : State) (d : Reg) (value : Read Word) : Prop :=
  ∃ v t, value = .ok v ∧ exec i s = .next t ∧ Completed s t [(d, v)]

/-! ### The invariant -/

/-- Where a loop over `L` bytes stands between its steps: its length is latched, and its bounds and
position are those of R117. -/
def LoopAt (s : State) (L : Word) : Prop :=
  s.len = L ∧ s.endPos.toNat = loopEnd L ∧ s.last64.toNat = tailOffset L ∧
    match s.stage with
    | .start => True
    | .iterate => s.pos.toNat % 64 = 0 ∧ s.pos.toNat < s.endPos.toNat
    | .tail => s.pos = s.endPos
    | .finish => s.pos = s.last64

/-- The latched word is a loop command above its loop length, the length was checked, and the loop
stands where R117 allows. -/
def LoopInv (s : State) : Prop :=
  ∃ i a n, decode s.cwl = .ok i ∧ i.loopAbove = some (a, n) ∧ n < (s.operand a).toNat ∧
    (s.operand a).toNat ≤ s.buf.len.toNat ∧ LoopAt s (s.operand a)

/-- What holds in every state of a run: the buffer is in canonical form inside `[0, N)` and no longer
than `ADDR_W` bits hold (R29); at most one of `BUSY`, `DONE`, `FAULT` is 1 (R22); RUN exactly when
`BUSY` (R31); `CAUSE` and `FINFO` are 0 when `FAULT = 0` and a cause is recorded when it is 1 (R22,
R25); an idle core has no step under way; a running one reads back its own word with its operands
latched (R134); and between the steps of a loop the bounds hold (R117). -/
structure CoreInv (s : State) : Prop where
  buffer : Buffer.wf s.buf
  bufferFits : s.buf.len.toNat ≤ s.params.maxLen
  busyNotDone : s.status.busy = true → s.status.done = false
  busyNotFault : s.status.busy = true → s.status.fault = false
  doneNotFault : s.status.done = true → s.status.fault = false
  busyRun : s.status.busy = true ↔ s.phase = .run
  causeFault : s.status.fault = false ↔ s.status.cause = .none
  finfoFault : s.status.fault = false → s.finfo = 0
  idle : s.phase = .idle → s.stage = .start ∧ s.disturbed = false
  readBack : s.phase = .run → s.cmd = s.cwl
  latched : s.phase = .run → ∀ i, decode s.cwl = .ok i → Latched i s
  loop : s.stage ≠ .start → LoopInv s

/-! ### A second reading of the little-endian reader (R40) -/

/-- The sum of R40 over `n` bytes from `off`, on unbounded integers. -/
def leSum (B : Buffer) (off n : Nat) : Nat :=
  ((List.range n).map fun k => (B.byteAt (off + k)).toNat * 2 ^ (8 * k)).sum

/-- The value of R40's `MemRead(off, n)` where it is in range. -/
def wordAt (B : Buffer) (off n : Nat) : Word := BitVec.ofNat 64 (leSum B off n)

end Machine

end Sys2Proof
end

