-- ==== Sys2Proof/Certificates/Slice0/Obligations.lean ====
section
/-! DEFINITION. The statements for the provers. `OBLIGATIONS.json` lists them with the rules of the
spec they formalise. -/

open Sys2Proof Sys2Proof.Machine

/-! ### Encoding -/

/-- No bit of an encoding is dropped: every well-formed command decodes from its own word. -/
def Obligations.DecodeOfEncodeIsIdentity : Prop :=
  ∀ i : Instr, i.wellFormed = true → decode (encode i) = .ok i

/-- R62: a word is exactly one command or illegal. A word that decodes is the word of the command it
decodes to, so no two words stand for one command, and its operands are legal. -/
def Obligations.EncodeOfDecodeIsIdentity : Prop :=
  ∀ (w : CmdWord) (i : Instr), decode w = .ok i → i.wellFormed = true ∧ encode i = w

/-- Words the spec prints with the commands they stand for (R63 and the examples of
`40_primitives.md` to `44_dispatch.md`). -/
def Obligations.PrintedWordsDecode : Prop :=
  decode 0x2512341F#32 = .ok (.hmix 1 2 3 4 31) ∧ decode 0x01123000#32 = .ok (.add 1 2 3) ∧
  decode 0x0612002F#32 = .ok (.shri 1 2 47) ∧ decode 0x0C012000#32 = .ok (.swap 1 2) ∧
  decode 0x0E300002#32 = .ok (.ldk 3 2) ∧ decode 0x12120000#32 = .ok (.rdle64 1 2) ∧
  decode 0x23020000#32 = .ok (.wpmix 0 2) ∧ decode 0x26123400#32 = .ok (.h32 1 2 3 4) ∧
  decode 0x30120000#32 = .ok (.hl0_16 1 2) ∧ decode 0x36123400#32 = .ok (.na64s 1 2 3 4) ∧
  decode 0x40120000#32 = .ok (.hash64 1 2) ∧ decode 0x00000000#32 = .error .reservedOpcode

/-- R64: the words of the pseudo-instructions' expansions. -/
def Obligations.PseudoInstructionWords : Prop :=
  encode Pseudo.nop.expand = 0x0F000000#32 ∧
  (∀ d : Reg, encode (Pseudo.clr d).expand = BitVec.ofNat 32 (0x0D000000 + d.val * 0x100000)) ∧
  (∀ (d : Reg) (k : Imm6),
    encode (Pseudo.ldc d k).expand = BitVec.ofNat 32 (0x0E000000 + d.val * 0x100000 + k.val)) ∧
  (∀ (d a : Reg) (r : Imm6), (Pseudo.rotr d a r).expand = .rotri d a r) ∧
  (∀ (d a : Reg) (r : Imm6), (Pseudo.rotl d a r).expand = .rotli d a r)

/-- R59: a running core faults on a word with a reserved opcode, whatever its other fields hold. -/
def Obligations.ReservedOpcodesFault : Prop :=
  ∀ s : State, s.phase = .run →
    (let o := s.cwl.toNat / 2 ^ 24
     o = 0x00 ∨ (0x13 ≤ o ∧ o ≤ 0x1F) ∨ (0x27 ≤ o ∧ o ≤ 0x2F) ∨ (0x38 ≤ o ∧ o ≤ 0x3F) ∨
       (0x42 ≤ o ∧ o ≤ 0xFF)) →
    ∃ t, coreRun s = .next t ∧ (∀ n, coreSteps (n + 1) s = .next t) ∧
      Faulted s t .illegalOpcode (s.cwl.setWidth 64)

/-- R60: a running core faults on a word with a defined opcode and an illegal operand, before any
length or read check. -/
def Obligations.IllegalOperandsFault : Prop :=
  ∀ (s : State) (form : Form) (build : Fields → Instr), s.phase = .run →
    opcodeRow (opcodeOf s.cwl) = some (form, build) →
    (let f := fieldsOf s.cwl
     f.rsv ≠ 0 ∨ unusedZero form f = false ∨ (build f).groupsFit = false ∨
       (build f).romIndexOk = false) →
    ∃ t, coreRun s = .next t ∧ (∀ n, coreSteps (n + 1) s = .next t) ∧
      Faulted s t .illegalOperand (s.cwl.setWidth 64)

/-! ### A step runs the latched command -/

/-- A word placed with `withFetchWord` is run by the very next step, from the state its acceptance
leaves and with the other turns still to come. -/
def Obligations.StepRunsTheFetchedCommand : Prop :=
  ∀ (s : State) (nbits w : Nat) (i : Instr), decodeTableWord nbits w = some i →
    step (s.withFetchWord nbits w) =
      exec i { s.clearFault.accept (tableWord nbits w) with agenda := s.agenda }

/-- R135: when the core moves and the latched word is a command, the step is that command, run to its
end, or for as many sequencer steps, one after the other, as the turn says (assumption 10). -/
def Obligations.RunningCoreExecutesTheLatchedCommand : Prop :=
  ∀ (s : State) (i : Instr) (rest : List Turn), s.phase = .run → decode s.cwl = .ok i →
    (s.agenda = [] → step s = exec i s) ∧
    (s.agenda = .coreRun :: rest → step s = exec i { s with agenda := rest }) ∧
    (s.agenda = .coreSteps 0 :: rest → step s = .next { s with agenda := rest }) ∧
    (s.agenda = .coreSteps 1 :: rest → step s = execStep i { s with agenda := rest }) ∧
    ∀ n, s.agenda = .coreSteps (n + 1) :: rest →
      ∃ t, execStep i { s with agenda := rest } = .next t ∧ step s = coreSteps n t

/-- R134: acceptance of a command word, R21's and R152's refusal of one, and that the operands latched
stay the values of their registers. -/
def Obligations.CmdWriteAccepts : Prop :=
  (∀ (s : State) (v : Word) (rest : List Turn), s.agenda = .host (.write 0x000 64 v) :: rest →
    (s.status.busy = false → s.status.fault = false →
      ∃ t, step s = .next t ∧
        t.cwl = v.setWidth 32 ∧ t.cmd = v.setWidth 32 ∧
        t.hostValue .cmd = (v.setWidth 32).setWidth 64 ∧
        (∀ i, decode (v.setWidth 32) = .ok i → ∀ r ∈ i.sources, t.opv.lookup r = some (s.reg r)) ∧
        t.status = { s.status with done := false, busy := true } ∧ t.phase = .run ∧
        (∀ r, t.reg r = s.reg r) ∧ t.ie = s.ie ∧ t.finfo = s.finfo ∧ t.buf = s.buf ∧
        t.readData = s.readData ∧ t.agenda = rest ∧ t.params = s.params ∧
        ∀ i, decode (v.setWidth 32) = .ok i → Ready i t) ∧
    (s.status.busy = true ∨ s.status.fault = true →
      step s = .next { s with agenda := rest, status := { s.status with ovr := true } })) ∧
  ∀ (s t : State) (r : Reg) (v : Word) (rest : List Turn),
    s.agenda = .host (.write (0x100 + 8 * r.val) 64 v) :: rest → s.status.busy = true →
    step s = .next t → ∀ q, t.reg q = s.reg q ∧ t.operand q = s.operand q

/-! ### What the commands do -/

/-- R67 to R71. -/
def Obligations.ArithmeticAndLogicCommands : Prop :=
  ∀ d a b : Reg,
    CommandMeans (commandWord 0x01 d a b 0 0) (.add d a b) (fun s => [(d, s.reg a + s.reg b)]) ∧
    CommandMeans (commandWord 0x02 d a b 0 0) (.sub d a b) (fun s => [(d, s.reg a - s.reg b)]) ∧
    CommandMeans (commandWord 0x03 d a b 0 0) (.mul d a b) (fun s => [(d, s.reg a * s.reg b)]) ∧
    CommandMeans (commandWord 0x04 d a b 0 0) (.xor d a b) (fun s => [(d, s.reg a ^^^ s.reg b)]) ∧
    CommandMeans (commandWord 0x05 d a b 0 0) (.and d a b) (fun s => [(d, s.reg a &&& s.reg b)])

/-- R72 to R77. -/
def Obligations.ShiftAndRotateCommands : Prop :=
  (∀ (d a : Reg) (n : Imm6),
    CommandMeans (commandWord 0x06 d a 0 0 n) (.shri d a n) (fun s => [(d, s.reg a >>> n.val)]) ∧
    CommandMeans (commandWord 0x07 d a 0 0 n) (.shli d a n) (fun s => [(d, s.reg a <<< n.val)]) ∧
    CommandMeans (commandWord 0x08 d a 0 0 n) (.rotri d a n) (fun s => [(d, rotr (s.reg a) n.val)]) ∧
    CommandMeans (commandWord 0x09 d a 0 0 n) (.rotli d a n)
      (fun s => [(d, rotl (s.reg a) n.val)])) ∧
  (∀ d a b : Reg,
    CommandMeans (commandWord 0x0A d a b 0 0) (.rotr d a b)
      (fun s => [(d, rotr (s.reg a) ((s.reg b).toNat % 64))]) ∧
    CommandMeans (commandWord 0x0B d a b 0 0) (.rotl d a b)
      (fun s => [(d, rotl (s.reg a) ((s.reg b).toNat % 64))]))

/-- R66, bit by bit: any amount is reduced modulo 64, 0 is the identity, bit `k` of a right rotation is
bit `k + r` of the value, and a left rotation is the right rotation by what is left of 64. -/
def Obligations.RotationsReduceTheAmountModulo64 : Prop :=
  ∀ (x : Word) (r : Nat),
    rotr x r = rotr x (r % 64) ∧ rotl x r = rotl x (r % 64) ∧ rotr x 0 = x ∧ rotl x 0 = x ∧
    (∀ k, k < 64 → (rotr x r).getLsbD k = x.getLsbD ((k + r) % 64)) ∧
    (∀ k, k < 64 → (rotl x r).getLsbD ((k + r) % 64) = x.getLsbD k) ∧
    (r % 64 ≠ 0 → rotl x (r % 64) = rotr x (64 - r % 64))

/-- R78 to R81. An `LDK` with an index above 5 is an illegal operand. -/
def Obligations.MoveAndConstantCommands : Prop :=
  (∀ a b : Reg,
    CommandMeans (commandWord 0x0C 0 a b 0 0) (.swap a b)
      (fun s => [(a, s.reg b), (b, s.reg a)])) ∧
  (∀ (d : Reg) (n : Imm6),
    CommandMeans (commandWord 0x0D d 0 0 0 n) (.ldi d n) (fun _ => [(d, BitVec.ofNat 64 n.val)])) ∧
  (∀ d : Reg,
    CommandMeans (commandWord 0x0E d 0 0 0 0) (.ldk d 0) (fun s => [(d, s.params.K0)]) ∧
    CommandMeans (commandWord 0x0E d 0 0 0 1) (.ldk d 1) (fun s => [(d, s.params.K1)]) ∧
    CommandMeans (commandWord 0x0E d 0 0 0 2) (.ldk d 2) (fun s => [(d, s.params.K2)]) ∧
    CommandMeans (commandWord 0x0E d 0 0 0 3) (.ldk d 3) (fun s => [(d, s.params.KMUL)]) ∧
    CommandMeans (commandWord 0x0E d 0 0 0 4) (.ldk d 4) (fun s => [(d, s.params.SEED_NA)]) ∧
    CommandMeans (commandWord 0x0E d 0 0 0 5) (.ldk d 5) (fun s => [(d, s.params.C113)])) ∧
  (∀ (d : Reg) (k : Imm6) (s : State), k.val > 5 →
    TakesFault (.ldk d k) s .illegalOperand (s.cwl.setWidth 64)) ∧
  (∀ d a : Reg,
    CommandMeans (commandWord 0x0F d a 0 0 0) (.mov d a) (fun s => [(d, s.reg a)]))

/-- R33: the six words of the constant ROM are the parameters of the same names, and there is no
seventh; no step of the machine, `Reset` included, changes one (R36). With the values the spec adopts
(assumption 1) the ROM and the loop initialisations (R120, R128) hold what it prints. -/
def Obligations.ConstantRomHoldsSixWords : Prop :=
  (∀ P : Params, rom P 0 = some P.K0 ∧ rom P 1 = some P.K1 ∧ rom P 2 = some P.K2 ∧
    rom P 3 = some P.KMUL ∧ rom P 4 = some P.SEED_NA ∧ rom P 5 = some P.C113 ∧
    ∀ k : Imm6, rom P k = none ↔ 5 < k.val) ∧
  (∀ s t : State, step s = .next t → t.params = s.params) ∧
  State.reset.params = Config.default ∧
  (let P := Config.default
   rom P 0 = some 0xC3A5C85C97CB3127#64 ∧ rom P 1 = some 0xB492B66BE98F6C17#64 ∧
   rom P 2 = some 0x9AE16A3B2F90404F#64 ∧ rom P 3 = some 0x9DDFEA08EB382D69#64 ∧
   rom P 4 = some 0x51#64 ∧ rom P 5 = some 0x71#64 ∧
   (∀ (B : Buffer) (acc acc' : Acc) (first : Word), fetch64 B 0 = .ok first →
     naInit P B acc = .ok acc' →
     acc'.y = 0x226BB824E66133B8#64 ∧ acc'.z = 0xB0EC69D3C468191E#64 ∧
     acc'.x = 0x01529CBA0CA458FF#64 + first ∧
     acc'.vlo = 0 ∧ acc'.vhi = 0 ∧ acc'.wlo = 0 ∧ acc'.whi = 0) ∧
   uoInit P 81 0 =
     { x := 0x01529CBA0CA458FF#64, y := 0x71#64, z := 0x7CB371D23F5EB1E0#64,
       u := 0x834C8E2DC0A14E71#64, vlo := 81, vhi := 0, wlo := 0, whi := 0, mul := P.K2 })

/-- R40: the reader port, for every offset, width and buffer, on unbounded integers. -/
def Obligations.ReaderPortReadsLittleEndian : Prop :=
  ∀ (B : Buffer) (off n : Nat),
    (off + n > B.len.toNat → memRead B off n = .error off) ∧
    (off + n ≤ B.len.toNat → memRead B off n = .ok (wordAt B off n))

/-- R41: the mixed-width views of one 64-bit read. -/
def Obligations.MixedWidthReadsAgree : Prop :=
  ∀ (B : Buffer) (off : Nat), off + 8 ≤ B.len.toNat →
    ∃ v lo hi, fetch64 B off = .ok v ∧ fetch32 B off = .ok lo ∧ fetch32 B (off + 4) = .ok hi ∧
      lo = v &&& 0xFFFFFFFF#64 ∧ hi = v >>> 32 ∧
      ∀ k, k < 8 → byteRead B (off + k) = .ok ((v >>> (8 * k)) &&& 0xFF#64)

/-- R82 to R84, with the sum of R40 as the value, and the fault of a read that is out of range. -/
def Obligations.BufferReadCommands : Prop :=
  ∀ d a : Reg,
    (decode (commandWord 0x10 d a 0 0 0) = .ok (.rdb d a) ∧
      decode (commandWord 0x11 d a 0 0 0) = .ok (.rdle32 d a) ∧
      decode (commandWord 0x12 d a 0 0 0) = .ok (.rdle64 d a)) ∧
    (∀ s, Ready (.rdb d a) s →
      ((s.reg a).toNat + 1 ≤ s.buf.len.toNat →
        ∃ t, exec (.rdb d a) s = .next t ∧ Completed s t [(d, wordAt s.buf (s.reg a).toNat 1)]) ∧
      ((s.reg a).toNat + 1 > s.buf.len.toNat → TakesReadFault (.rdb d a) s (s.reg a) 0)) ∧
    (∀ s, Ready (.rdle32 d a) s →
      ((s.reg a).toNat + 4 ≤ s.buf.len.toNat →
        ∃ t, exec (.rdle32 d a) s = .next t ∧ Completed s t [(d, wordAt s.buf (s.reg a).toNat 4)]) ∧
      ((s.reg a).toNat + 4 > s.buf.len.toNat → TakesReadFault (.rdle32 d a) s (s.reg a) 0)) ∧
    (∀ s, Ready (.rdle64 d a) s →
      ((s.reg a).toNat + 8 ≤ s.buf.len.toNat →
        ∃ t, exec (.rdle64 d a) s = .next t ∧ Completed s t [(d, wordAt s.buf (s.reg a).toNat 8)]) ∧
      ((s.reg a).toNat + 8 > s.buf.len.toNat → TakesReadFault (.rdle64 d a) s (s.reg a) 0))

/-- R85, R86: `SHIFTMIX`, its value, its fixed points below `2^47`, and that it is a bijection. -/
def Obligations.ShiftMixCommandIsABijection : Prop :=
  (∀ d a : Reg,
    CommandMeans (commandWord 0x20 d a 0 0 0) (.shiftmix d a) (fun s => [(d, shiftMix (s.reg a))])) ∧
  (∀ v : Word, shiftMix v = v ^^^ (v >>> 47)) ∧
  (∀ v : Word, v.toNat < 2 ^ 47 → shiftMix v = v) ∧
  shiftMix 0xFFFFFFFFFFFFFFFF#64 = 0xFFFFFFFFFFFE0000#64 ∧
  (∀ v v' : Word, shiftMix v = shiftMix v' → v = v') ∧ ∀ u : Word, ∃ v, shiftMix v = u

/-- R87 to R90, R95 and R96: HashLen16, Hash128to64 and H by their formulas, with the corner cases and
the values R88 names, and the commands that compute them. -/
def Obligations.CombinerCommands : Prop :=
  (∀ d a b c : Reg,
    CommandMeans (commandWord 0x21 d a b c 0) (.hl16 d a b c)
      (fun s => [(d, hashLen16 (s.reg a) (s.reg b) (s.reg c))])) ∧
  (∀ d a b : Reg,
    CommandMeans (commandWord 0x22 d a b 0 0) (.hl16k d a b)
      (fun s => [(d, hashLen16 (s.reg a) (s.reg b) s.params.KMUL)])) ∧
  (∀ (d a b c : Reg) (r : Imm6),
    CommandMeans (commandWord 0x25 d a b c r) (.hmix d a b c r)
      (fun s => [(d, avalancheH (s.reg a) (s.reg b) (s.reg c) r.val)])) ∧
  (∀ u v mul : Word,
    let a := (u ^^^ v) * mul
    let b := (v ^^^ (a ^^^ (a >>> 47))) * mul
    hashLen16 u v mul = (b ^^^ (b >>> 47)) * mul) ∧
  (∀ (P : Params) (u v : Word), hash128to64 P u v = hashLen16 u v P.KMUL) ∧
  (∀ (x y mul : Word) (r : Nat),
    let a := (x ^^^ y) * mul
    let b := (y ^^^ (a ^^^ (a >>> 47))) * mul
    avalancheH x y mul r = rotr b r * mul ∧ avalancheH x y mul 0 = b * mul) ∧
  (∀ m : Word, hashLen16 0 0 m = 0) ∧ (∀ u v : Word, hashLen16 u v 0 = 0) ∧
  hashLen16 1 0 0x9AE16A3B2F90404F#64 = 0x92A035DCFA240F16#64 ∧
  hashLen16 0 1 0x9AE16A3B2F90404F#64 = 0xDC111975C8F030AE#64 ∧
  ∀ (m : Word) (r : Nat), avalancheH 0 0 m r = 0

/-- R91 to R94: the weak-pair mixer by its formula and on a window's words, the commands that compute
it, their groups, and `FINFO` of the first read that does not fit, in ascending order. -/
def Obligations.WeakPairCommands : Prop :=
  (∀ d a : Reg, a.val ≤ 10 → d.val ≤ 14 →
    CommandMeans (commandWord 0x23 d a 0 0 0) (.wpmix d a) (fun s =>
      let p := weakPairMix (s.reg a) (s.reg (groupReg a 1)) (s.reg (groupReg a 2))
        (s.reg (groupReg a 3)) (s.reg (groupReg a 4)) (s.reg (groupReg a 5))
      [(d, p.1), (groupReg d 1, p.2)])) ∧
  (∀ (d a : Reg) (s : State), a.val > 10 ∨ d.val > 14 →
    TakesFault (.wpmix d a) s .illegalOperand (s.cwl.setWidth 64)) ∧
  (∀ w x y z a b : Word,
    let c := a + w
    let e := c + x + y
    weakPairMix w x y z a b = (e + z, rotr (b + c + z) 21 + rotr e 44 + c)) ∧
  weakPairMix 0 0 0 0 0 0 = (0, 0) ∧
  (∀ (r : Reg) (k : Nat), r.val + k ≤ 15 → (groupReg r k).val = r.val + k) ∧
  (∀ (B : Buffer) (off : Nat) (a b : Word), off + 32 ≤ B.len.toNat →
    weakPairMixAt B off a b = .ok (weakPairMix (wordAt B off 8) (wordAt B (off + 8) 8)
      (wordAt B (off + 16) 8) (wordAt B (off + 24) 8) a b)) ∧
  (∀ (d a b c : Reg), d.val ≤ 14 →
    decode (commandWord 0x24 d a b c 0) = .ok (.wpmixb d a b c) ∧
    ∀ s, Ready (.wpmixb d a b c) s →
      let off := (s.reg a).toNat
      let N := s.buf.len.toNat
      (off + 32 ≤ N → ∃ t, exec (.wpmixb d a b c) s = .next t ∧
        let p := weakPairMix (wordAt s.buf off 8) (wordAt s.buf (off + 8) 8)
          (wordAt s.buf (off + 16) 8) (wordAt s.buf (off + 24) 8) (s.reg b) (s.reg c)
        Completed s t [(d, p.1), (groupReg d 1, p.2)]) ∧
      ∀ k, k < 4 → off + 8 * k + 8 > N → (∀ j, j < k → off + 8 * j + 8 ≤ N) →
        TakesReadFault (.wpmixb d a b c) s (s.reg a) (8 * k)) ∧
  (∀ (d a b c : Reg) (s : State), d.val > 14 →
    TakesFault (.wpmixb d a b c) s .illegalOperand (s.cwl.setWidth 64))

/-- R97: the window hash of a window in range. -/
def Obligations.WindowHashFormula : Prop :=
  ∀ (P : Params) (B : Buffer) (off : Nat) (mul seed0 seed1 : Word), off + 32 ≤ B.len.toNat →
    let a := wordAt B off 8 * P.K1
    let b := wordAt B (off + 8) 8
    let c := wordAt B (off + 24) 8 * mul
    let d := wordAt B (off + 16) 8 * P.K2
    let u := rotr (a + b) 43 + rotr c 30 + d + seed0
    let v := a + rotr (b + P.K2) 18 + c + seed1
    windowHash P B off mul seed0 seed1 = .ok (shiftMix ((v ^^^ shiftMix ((u ^^^ v) * mul)) * mul))

/-- R98: `H32`, its seed pair, and `FINFO` of the first read that does not fit, in the order `+0`,
`+8`, `+24`, `+16`. -/
def Obligations.WindowHashCommand : Prop :=
  (∀ (d a b c : Reg), c.val ≤ 14 →
    decode (commandWord 0x26 d a b c 0) = .ok (.h32 d a b c) ∧
    ∀ s, Ready (.h32 d a b c) s →
      let off := (s.reg a).toNat
      let N := s.buf.len.toNat
      (off + 32 ≤ N → CompletesWith (.h32 d a b c) s d
        (windowHash s.params s.buf off (s.reg b) (s.reg c) (s.reg (groupReg c 1)))) ∧
      (off + 8 > N → TakesReadFault (.h32 d a b c) s (s.reg a) 0) ∧
      (off + 8 ≤ N → off + 16 > N →
        TakesReadFault (.h32 d a b c) s (s.reg a) 8) ∧
      (off + 16 ≤ N → off + 32 > N →
        TakesReadFault (.h32 d a b c) s (s.reg a) 24)) ∧
  (∀ (d a b c : Reg) (s : State), c.val > 14 →
    TakesFault (.h32 d a b c) s .illegalOperand (s.cwl.setWidth 64)) ∧
  ∀ (P : Params) (B : Buffer) (off : Nat) (s0 s1 : Word), off + 32 ≤ B.len.toNat →
    windowHash P B off 0 s0 s1 = .ok 0

/-- R104: an empty input hashes to `K2` without a read, whatever the buffer. -/
def Obligations.EmptyInputHashesToK2 : Prop :=
  ∀ (d a : Reg) (s : State), s.reg a = 0 →
    (Ready (.hl0_16 d a) s →
      ∃ t, exec (.hl0_16 d a) s = .next t ∧ Completed s t [(d, s.params.K2)]) ∧
    (Ready (.na64 d a) s →
      ∃ t, exec (.na64 d a) s = .next t ∧ Completed s t [(d, s.params.K2)]) ∧
    (Ready (.hash64 d a) s →
      ∃ t, exec (.hash64 d a) s = .next t ∧ Completed s t [(d, s.params.K2)])

/-- R100 to R104, R106, R108, R110, R112: the value of every closed-form path, from the words the
buffer holds (R40) and the hashes of its windows (R97). -/
def Obligations.ClosedFormFormulas : Prop :=
  ∀ (P : Params) (B : Buffer) (L : Word), L.toNat ≤ B.len.toNat →
    let n := L.toNat
    let mul := P.K2 + L * 2
    (n = 0 → hashLen0to16 P B L = .ok P.K2) ∧
    (1 ≤ n → n ≤ 3 →
      let y := wordAt B 0 1 + wordAt B (n / 2) 1 <<< 8
      let z := L + wordAt B (n - 1) 1 <<< 2
      hashLen0to16 P B L = .ok (shiftMix (y * P.K2 ^^^ z * P.K0) * P.K2)) ∧
    (4 ≤ n → n ≤ 7 →
      hashLen0to16 P B L = .ok (hashLen16 (L + wordAt B 0 4 <<< 3) (wordAt B (n - 4) 4) mul)) ∧
    (8 ≤ n → n ≤ 16 →
      let a := wordAt B 0 8 + P.K2
      let b := wordAt B (n - 8) 8
      hashLen0to16 P B L = .ok (hashLen16 (rotr b 37 * mul + a) ((rotr a 25 + b) * mul) mul)) ∧
    (17 ≤ n → n ≤ 32 →
      let a := wordAt B 0 8 * P.K1
      let b := wordAt B 8 8
      let c := wordAt B (n - 8) 8 * mul
      let d := wordAt B (n - 16) 8 * P.K2
      hashLen17to32 P B L = .ok (hashLen16 (rotr (a + b) 43 + rotr c 30 + d)
        (a + rotr (b + P.K2) 18 + c) mul)) ∧
    (33 ≤ n → n ≤ 64 →
      let mul1 := P.K2 - 30 + 2 * L
      ∃ h0 h1, windowHash P B 0 (P.K2 - 30) 0 0 = .ok h0 ∧
        windowHash P B (n - 32) mul1 0 0 = .ok h1 ∧
        hashLen33to64 P B L = .ok ((h1 * mul1 + h0) * mul1)) ∧
    (33 ≤ n → n ≤ 64 →
      let a := wordAt B 0 8 * P.K2
      let b := wordAt B 8 8
      let c := wordAt B (n - 8) 8 * mul
      let d := wordAt B (n - 16) 8 * P.K2
      let y := rotr (a + b) 43 + rotr c 30 + d
      let z := hashLen16 y (a + rotr (b + P.K2) 18 + c) mul
      let e := wordAt B 16 8 * mul
      let f := wordAt B 24 8
      let g := (y + wordAt B (n - 32) 8) * mul
      let h := (z + wordAt B (n - 24) 8) * mul
      hashLen33to64na P B L = .ok (hashLen16 (rotr (e + f) 43 + rotr g 30 + h)
        (e + rotr (f + a) 18 + g) mul)) ∧
    (65 ≤ n → n ≤ 96 →
      let mul1 := P.K2 - 114 + 2 * L
      ∃ h0 h1 h2, windowHash P B 0 (P.K2 - 114) 0 0 = .ok h0 ∧
        windowHash P B 32 mul1 0 0 = .ok h1 ∧ windowHash P B (n - 32) mul1 h0 h1 = .ok h2 ∧
        hashLen65to96 P B L = .ok ((h2 * 9 + (h0 >>> 17) + (h1 >>> 21)) * mul1))

/-- R105, R107, R109, R111, R113: a closed-form path completes for every length of its range that
the buffer holds, and faults at every other length. -/
def Obligations.ClosedFormCommands : Prop :=
  ∀ (d a : Reg) (s : State),
    let P := s.params
    let L := s.reg a
    let n := L.toNat
    let N := s.buf.len.toNat
    (decode (commandWord 0x30 d a 0 0 0) = .ok (.hl0_16 d a) ∧
      decode (commandWord 0x31 d a 0 0 0) = .ok (.hl17_32 d a) ∧
      decode (commandWord 0x32 d a 0 0 0) = .ok (.hl33_64 d a) ∧
      decode (commandWord 0x33 d a 0 0 0) = .ok (.hl33_64na d a) ∧
      decode (commandWord 0x34 d a 0 0 0) = .ok (.hl65_96 d a)) ∧
    (Ready (.hl0_16 d a) s →
      (n ≤ 16 → n ≤ N → CompletesWith (.hl0_16 d a) s d (hashLen0to16 P s.buf L)) ∧
      (n > 16 ∨ n > N → TakesFault (.hl0_16 d a) s .badLength L)) ∧
    (Ready (.hl17_32 d a) s →
      (17 ≤ n → n ≤ 32 → n ≤ N → CompletesWith (.hl17_32 d a) s d (hashLen17to32 P s.buf L)) ∧
      (n < 17 ∨ n > 32 ∨ n > N → TakesFault (.hl17_32 d a) s .badLength L)) ∧
    (Ready (.hl33_64 d a) s →
      (33 ≤ n → n ≤ 64 → n ≤ N → CompletesWith (.hl33_64 d a) s d (hashLen33to64 P s.buf L)) ∧
      (n < 33 ∨ n > 64 ∨ n > N → TakesFault (.hl33_64 d a) s .badLength L)) ∧
    (Ready (.hl33_64na d a) s →
      (33 ≤ n → n ≤ 64 → n ≤ N → CompletesWith (.hl33_64na d a) s d (hashLen33to64na P s.buf L)) ∧
      (n < 33 ∨ n > 64 ∨ n > N → TakesFault (.hl33_64na d a) s .badLength L)) ∧
    (Ready (.hl65_96 d a) s →
      (65 ≤ n → n ≤ 96 → n ≤ N → CompletesWith (.hl65_96 d a) s d (hashLen65to96 P s.buf L)) ∧
      (n < 65 ∨ n > 96 ∨ n > N → TakesFault (.hl65_96 d a) s .badLength L))

/-- R136: every command that takes a length faults when the length is longer than the buffer or
outside the command's range, and writes nothing. -/
def Obligations.LengthCheckFaults : Prop :=
  ∀ (i : Instr) (a : Reg) (lo hi : Nat) (s : State), i.lengthRange s.params = some (a, lo, hi) →
    Latched i s → s.stage = .start →
    ((s.reg a).toNat > s.buf.len.toNat ∨ (s.reg a).toNat < lo ∨ (s.reg a).toNat > hi) →
    TakesFault i s .badLength (s.reg a)

/-- R125, R126, R131: the sequencer of a loop command, run through all its steps, computes the whole
function its rule gives, for every length of `ADDR_W` bits that the buffer holds, and faults at
every other. -/
def Obligations.LoopCommandsComputeTheirFunctions : Prop :=
  ∀ (d a b c : Reg) (s : State),
    let P := s.params
    let L := s.reg a
    let n := L.toNat
    let N := s.buf.len.toNat
    let max := 2 ^ P.ADDR_W.val - 1
    (decode (commandWord 0x35 d a 0 0 0) = .ok (.na64 d a) ∧
      decode (commandWord 0x36 d a b c 0) = .ok (.na64s d a b c) ∧
      decode (commandWord 0x37 d a b c 0) = .ok (.uo64s d a b c)) ∧
    (Ready (.na64 d a) s →
      (n ≤ N → n ≤ max → CompletesWith (.na64 d a) s d (na64 P s.buf L)) ∧
      (n > N ∨ n > max → TakesFault (.na64 d a) s .badLength L)) ∧
    (Ready (.na64s d a b c) s →
      (n ≤ N → n ≤ max →
        CompletesWith (.na64s d a b c) s d (na64s P s.buf L (s.reg b) (s.reg c))) ∧
      (n > N ∨ n > max → TakesFault (.na64s d a b c) s .badLength L)) ∧
    (Ready (.uo64s d a b c) s →
      (n ≤ N → n ≤ max →
        CompletesWith (.uo64s d a b c) s d (uo64s P s.buf L (s.reg b) (s.reg c))) ∧
      (n > N ∨ n > max → TakesFault (.uo64s d a b c) s .badLength L))

/-- R139, R141: the public entry points, run through all their steps, compute the dispatcher's
functions for every length of `ADDR_W` bits that the buffer holds, and fault at every other. -/
def Obligations.HashCommandsComputeTheDispatcher : Prop :=
  ∀ (d a b c : Reg) (s : State),
    let P := s.params
    let L := s.reg a
    let n := L.toNat
    let N := s.buf.len.toNat
    let max := 2 ^ P.ADDR_W.val - 1
    (decode (commandWord 0x40 d a 0 0 0) = .ok (.hash64 d a) ∧
      decode (commandWord 0x41 d a b c 0) = .ok (.hash64s d a b c)) ∧
    (Ready (.hash64 d a) s →
      (n ≤ N → n ≤ max → CompletesWith (.hash64 d a) s d (farm64 P s.buf L)) ∧
      (n > N ∨ n > max → TakesFault (.hash64 d a) s .badLength L)) ∧
    (Ready (.hash64s d a b c) s →
      (n ≤ N → n ≤ max →
        CompletesWith (.hash64s d a b c) s d (farm64s P s.buf L (s.reg b) (s.reg c))) ∧
      (n > N ∨ n > max → TakesFault (.hash64s d a b c) s .badLength L))

/-- R118, R124, R127, R138, R140: which path every length takes, and so which commands agree where
(R125, R126, R131, R141), and the seeded form of a one-seed value at every length. A loop's path is from
any accumulator. -/
def Obligations.PathsAgreeWhereTheDispatcherSays : Prop :=
  ∀ (P : Params) (B : Buffer) (L s0 s1 : Word) (acc : Acc),
    let n := L.toNat
    (n ≤ 16 → farm64 P B L = hashLen0to16 P B L ∧ na64 P B L = hashLen0to16 P B L) ∧
    (17 ≤ n → n ≤ 32 → farm64 P B L = hashLen17to32 P B L ∧ na64 P B L = hashLen17to32 P B L) ∧
    (33 ≤ n → n ≤ 64 → farm64 P B L = hashLen33to64 P B L ∧ na64 P B L = hashLen33to64na P B L) ∧
    (65 ≤ n → n ≤ 96 → farm64 P B L = hashLen65to96 P B L) ∧
    (97 ≤ n → n ≤ 256 → farm64 P B L = na64 P B L) ∧
    (64 < n → na64 P B L = naLoop P B L acc) ∧
    (256 < n → farm64 P B L = uo64s P B L P.SEED_NA 0) ∧
    (∀ h, na64 P B L = .ok h → na64s P B L s0 s1 = .ok (hash128to64 P (h - s0) s1)) ∧
    (∀ off, na64 P B L = .error off → na64s P B L s0 s1 = .error off) ∧
    (n ≤ 64 → uo64s P B L s0 s1 = na64s P B L s0 s1) ∧
    (64 < n → uo64s P B L s0 s1 = uoLoop P B L s0 s1) ∧
    farm64s P B L s0 s1 = uo64s P B L s0 s1

/-! ### The loops -/

/-- R117: the loop bounds for `L > 64`, and that the iterations' blocks and the tail lie in `[0, L)`
and cover it. -/
def Obligations.LoopBoundsCoverTheInput : Prop :=
  ∀ L : Word, 64 < L.toNat →
    loopEnd L = (L.toNat - 1) / 64 * 64 ∧ tailOffset L + 64 = L.toNat ∧ 1 ≤ iterations L ∧
    loopEnd L < L.toNat ∧ L.toNat ≤ loopEnd L + 64 ∧
    (∀ k, k < iterations L → 64 * k + 64 ≤ loopEnd L) ∧ tailOffset L ≤ loopEnd L ∧
    (L.toNat % 64 = 0 ↔ tailOffset L = loopEnd L)

/-- R121 to R123, with R120's initialisation: what each part of the na loop computes from the words of
the buffer, for every value of the constants; that the loop is the initialisation, the iterations at
`p = 0, 64, ..` up to `end`, the tail and the finalisation, whatever the accumulator before it; and
that the tail's multiplier is odd and lies in `[K1, K1 + 510]` where `K1` is odd and not within 510 of
`2^64`, as the default `K1` is. -/
def Obligations.NaLoopFollowsItsFormulas : Prop :=
  ∀ (P : Params) (B : Buffer) (acc : Acc),
    (8 ≤ B.len.toNat →
      let y := P.SEED_NA * P.K1 + P.C113
      naInit P B acc = .ok { acc with
        x := P.SEED_NA * P.K2 + wordAt B 0 8, y := y
        z := shiftMix (y * P.K2 + P.C113) * P.K2, vlo := 0, vhi := 0, wlo := 0, whi := 0 }) ∧
    (∀ p : Nat, p + 64 ≤ B.len.toNat →
      let word := fun k => wordAt B (p + k) 8
      let x1 := rotr (acc.x + acc.y + acc.vlo + word 8) 37 * P.K1
      let y1 := rotr (acc.y + acc.vhi + word 48) 42 * P.K1
      let x2 := x1 ^^^ acc.whi
      let y2 := y1 + (acc.vlo + word 40)
      let z1 := rotr (acc.z + acc.wlo) 33 * P.K1
      let v := weakPairMix (word 0) (word 8) (word 16) (word 24) (acc.vhi * P.K1) (x2 + acc.wlo)
      let w := weakPairMix (word 32) (word 40) (word 48) (word 56) (z1 + acc.whi) (y2 + word 16)
      naIteration P B p acc = .ok { acc with
        x := z1, y := y2, z := x2, vlo := v.1, vhi := v.2, wlo := w.1, whi := w.2 }) ∧
    (∀ L : Word, 64 ≤ L.toNat → L.toNat ≤ B.len.toNat →
      let word := fun k => wordAt B (L.toNat - 64 + k) 8
      let mul := P.K1 + ((acc.z &&& 0xFF) <<< 1)
      let w1 := acc.wlo + ((L - 1) &&& 63)
      let v1 := acc.vlo + w1
      let w2 := w1 + v1
      let x1 := rotr (acc.x + acc.y + v1 + word 8) 37 * mul
      let y1 := rotr (acc.y + acc.vhi + word 48) 42 * mul
      let x2 := x1 ^^^ (acc.whi * 9)
      let y2 := y1 + (v1 * 9 + word 40)
      let z1 := rotr (acc.z + w2) 33 * mul
      let v := weakPairMix (word 0) (word 8) (word 16) (word 24) (acc.vhi * mul) (x2 + w2)
      let w := weakPairMix (word 32) (word 40) (word 48) (word 56) (z1 + acc.whi) (y2 + word 16)
      naTail P B L acc = .ok { acc with
        x := z1, y := y2, z := x2, vlo := v.1, vhi := v.2, wlo := w.1, whi := w.2, mul := mul }) ∧
    naFinish P acc =
      hashLen16 (hashLen16 acc.vlo acc.wlo acc.mul + shiftMix acc.y * P.K0 + acc.z)
        (hashLen16 acc.vhi acc.whi acc.mul + acc.x) acc.mul ∧
    (∀ L : Word, 64 < L.toNat → L.toNat ≤ B.len.toNat → ∃ (accAt : Nat → Acc) (last : Acc),
      naInit P B acc = .ok (accAt 0) ∧
      (∀ k, k < (L.toNat - 1) / 64 → naIteration P B (64 * k) (accAt k) = .ok (accAt (k + 1))) ∧
      naTail P B L (accAt ((L.toNat - 1) / 64)) = .ok last ∧
      naLoop P B L acc = .ok (naFinish P last)) ∧
    (∀ (L : Word) (acc' : Acc), naTail P B L acc = .ok acc' →
      (P.K1.getLsbD 0 = true → acc'.mul.getLsbD 0 = true) ∧
      (P.K1.toNat + 510 < 2 ^ 64 →
        P.K1.toNat ≤ acc'.mul.toNat ∧ acc'.mul.toNat ≤ P.K1.toNat + 510)) ∧
    Config.default.K1.getLsbD 0 = true ∧ Config.default.K1.toNat + 510 < 2 ^ 64

/-- R129 and R130, with R128's initialisation: what each part of the uo loop computes from the words of
the buffer, for every value of the constants; that the loop is the initialisation, the iterations at
`p = 0, 64, ..` up to `end`, the tail and the finalisation; and that its multiplier takes one of
four values. -/
def Obligations.UoLoopFollowsItsFormulas : Prop :=
  ∀ (P : Params) (B : Buffer),
    (∀ s0 s1 : Word,
      let z := shiftMix ((s1 * P.K2 + P.C113) * P.K2) * P.K2
      uoInit P s0 s1 =
        { x := s0 * P.K2, y := s1 * P.K2 + P.C113, z := z, u := s0 - z, vlo := s0, vhi := s1,
          wlo := 0, whi := 0, mul := P.K2 + ((s0 - z) &&& 0x82) }) ∧
    (∀ (acc : Acc) (p : Nat), p + 64 ≤ B.len.toNat →
      let word := fun k => wordAt B (p + 8 * k) 8
      let x1 := rotr (acc.x + (word 0 + word 1)) 26 * 9
      let y1 := rotr (acc.y + word 2) 29
      let z1 := rotr ((acc.z + word 3) * acc.mul) 32 + (acc.whi + word 7)
      let v1 := rotr (acc.vlo + word 4) 33 + word 2
      let v2 := rotr (acc.vhi + (word 5 + word 1)) 30 + word 3
      let w1 := ((acc.wlo + word 6) ^^^ x1) * 9 + word 4
      let w2 := acc.whi + word 7 + z1 + (word 5 + word 6)
      let z2 := z1 * 9 + (word 0 + word 6)
      let x2 := x1 + word 1
      let y2 := acc.u + word 7 + v1
      let v3 := v2 + w1
      let w3 := w2 + (x2 - y2)
      uoIteration B p acc = .ok { acc with
        x := x2 + w3, y := y2, z := y1, u := z2, vlo := v1 + (x2 - y2), vhi := v3,
        wlo := w1 + v3, whi := rotr w3 34 }) ∧
    (∀ (acc : Acc) (L : Word), 64 ≤ L.toNat → L.toNat ≤ B.len.toNat →
      let word := fun k => wordAt B (L.toNat - 64 + k) 8
      let v1 := rotr acc.vlo 20
      let v2 := rotr acc.vhi 28
      let w1 := acc.wlo + ((L - 1) &&& 63)
      let u1 := acc.u * 9 + acc.y
      let y1 := acc.y + u1
      let x1 := rotr (y1 - acc.x + v1 + word 8) 37 * acc.mul
      let y2 := rotr (y1 ^^^ v2 ^^^ word 48) 42 * acc.mul
      let x2 := x1 ^^^ (acc.whi * 9)
      let y3 := y2 + v1 * word 40
      let z1 := rotr (acc.z + w1) 33 * acc.mul
      let v := weakPairMix (word 0) (word 8) (word 16) (word 24) (v2 * acc.mul) (x2 + w1)
      let w := weakPairMix (word 32) (word 40) (word 48) (word 56) (z1 + acc.whi) (y3 + word 16)
      uoTail B L acc = .ok { acc with
        x := x2, y := y3, z := z1, u := u1, vlo := v.1, vhi := v.2, wlo := w.1, whi := w.2 }) ∧
    (∀ acc : Acc, uoFinish P acc =
      avalancheH (hashLen16 (acc.vlo + acc.x) (acc.wlo ^^^ acc.y) acc.mul + acc.z - acc.u)
        (avalancheH (acc.vhi + acc.y) (acc.whi + acc.z) P.K2 30 ^^^ acc.x) acc.mul 31) ∧
    (∀ L s0 s1 : Word, 64 < L.toNat → L.toNat ≤ B.len.toNat → ∃ (accAt : Nat → Acc) (last : Acc),
      accAt 0 = uoInit P s0 s1 ∧
      (∀ k, k < (L.toNat - 1) / 64 → uoIteration B (64 * k) (accAt k) = .ok (accAt (k + 1))) ∧
      uoTail B L (accAt ((L.toNat - 1) / 64)) = .ok last ∧
      uoLoop P B L s0 s1 = .ok (uoFinish P last)) ∧
    ∀ s0 s1 : Word, (uoInit P s0 s1).mul ∈ [P.K2, P.K2 + 0x02, P.K2 + 0x80, P.K2 + 0x82]

/-- R132, R7: step boundaries are unobservable. However many sequencer steps a turn takes, a merged run
after it ends in the state of the merged run alone, and a turn that ends the command ends it there;
and a command may take any number of turns, `m + 1` of them (assumption 10). -/
def Obligations.StepSplittingIsUnobservable : Prop :=
  (∀ (s t : State) (n : Nat), CoreInv s → s.phase = .run → coreSteps n s = .next t →
    (t.phase = .run → coreRun t = coreRun s) ∧ (t.phase = .idle → coreRun s = .next t)) ∧
  ∀ (s : State) (m : Nat) (rest : List Turn),
    s.agenda = List.replicate m (.coreSteps 0) ++ .coreRun :: rest →
    Sys2Proof.core.run m s = .next { s with agenda := .coreRun :: rest } ∧
    Sys2Proof.core.run (m + 1) s = coreRun { s with agenda := rest }

/-- R132, R169: in the reference decomposition, a step a turn, a loop command on its loop takes exactly
`(L - 1) div 64 + 3` sequencer steps. R65, R169: every other command takes one, and so does a loop
command on a closed form or with a length that faults: one step ends it, as the merged run does. -/
def Obligations.LoopCommandStepCount : Prop :=
  (∀ (s : State) (i : Instr) (a : Reg) (above n : Nat), s.phase = .run → decode s.cwl = .ok i →
    Ready i s → i.loopAbove = some (a, above) → above < (s.reg a).toNat →
    (s.reg a).toNat ≤ s.buf.len.toNat → (s.reg a).toNat ≤ s.params.maxLen →
    ∃ t,
      Sys2Proof.core.run n ({ s with agenda := List.replicate n (.coreSteps 1) } : State) =
        .next t ∧
      (n < ((s.reg a).toNat - 1) / 64 + 3 → t.phase = .run) ∧
      (n = ((s.reg a).toNat - 1) / 64 + 3 → t.phase = .idle ∧ t.status.done = true)) ∧
  ∀ (s : State) (i : Instr), CoreInv s → s.phase = .run → decode s.cwl = .ok i →
    (i.loopAbove = none ∨ ∃ a above, i.loopAbove = some (a, above) ∧
      ((s.reg a).toNat ≤ above ∨ (s.reg a).toNat > s.buf.len.toNat)) →
    ∃ t, coreSteps 1 s = .next t ∧ coreRun s = .next t ∧ t.phase = .idle

/-- R133, R155: every running command ends, in a completion or a fault, when the core is left to
run. -/
def Obligations.EveryCommandTerminates : Prop :=
  ∀ s : State, CoreInv s → s.phase = .run →
    ∃ t, coreRun s = .next t ∧ t.phase = .idle ∧ t.status.busy = false ∧
      (t.status.done = true ∧ t.status.fault = false ∨ t.status.done = false ∧ t.status.fault = true)

/-! ### What the commands leave alone -/

/-- The frame of every command, completed, faulted or under way: every register but its destinations,
every byte of the buffer, `CMD`, `CTRL`, `OVR`, the parameters, the turns to come and the host's
last read are unchanged, and `FINFO` and `CAUSE` too unless it faults. -/
def Obligations.CommandFrame : Prop :=
  ∀ (i : Instr) (s t : State), exec i s = .next t →
    (∀ r, r ∉ i.dests → t.reg r = s.reg r) ∧
    (∀ off, t.buf.byteAt off = s.buf.byteAt off) ∧ t.buf.len = s.buf.len ∧ t.cmd = s.cmd ∧
    t.ie = s.ie ∧ t.status.ovr = s.status.ovr ∧ t.agenda = s.agenda ∧ t.readData = s.readData ∧
    t.params = s.params ∧
    (s.status.fault = false → t.status.fault = false →
      t.finfo = s.finfo ∧ t.status.cause = s.status.cause)

/-- R146, R147: a command that faults leaves everything the host can see as it was, but `STATUS` and
`FINFO`; no register is written. -/
def Obligations.FaultsArePrecise : Prop :=
  ∀ (i : Instr) (s t : State), exec i s = .next t → s.status.fault = false →
    t.status.fault = true → ∃ cause info, cause ≠ .none ∧ Faulted s t cause info

/-- R145, R149: which fault a command can raise and what `FINFO` then holds. -/
def Obligations.FaultCausesAndInformation : Prop :=
  ∀ (i : Instr) (s t : State), exec i s = .next t → s.stage = .start → s.status.fault = false →
    t.status.fault = true →
    (t.status.cause = .illegalOperand ∧ i.wellFormed = false ∧ t.finfo = s.cwl.setWidth 64) ∨
    (t.status.cause = .badLength ∧
      ∃ a lo hi, i.lengthRange s.params = some (a, lo, hi) ∧ t.finfo = s.operand a) ∨
    (t.status.cause = .oobRead ∧ ∃ d a b c,
      i = .rdb d a ∨ i = .rdle32 d a ∨ i = .rdle64 d a ∨ i = .wpmixb d a b c ∨ i = .h32 d a b c)

/-- R144: once `check_length` has accepted `L`, every read of a length command lies in `[0, L)`: cut
down to `L` bytes, the buffer still answers every read, with the same value. -/
def Obligations.LengthCommandsReadInsideTheLength : Prop :=
  ∀ (P : Params) (B : Buffer) (L s0 s1 : Word), L.toNat ≤ B.len.toNat →
    let cut : Buffer := { B with len := L }
    (L.toNat ≤ 16 → ∃ v, hashLen0to16 P cut L = .ok v ∧ hashLen0to16 P B L = .ok v) ∧
    (17 ≤ L.toNat → L.toNat ≤ 32 → ∃ v, hashLen17to32 P cut L = .ok v ∧ hashLen17to32 P B L = .ok v) ∧
    (33 ≤ L.toNat → L.toNat ≤ 64 → ∃ v, hashLen33to64 P cut L = .ok v ∧ hashLen33to64 P B L = .ok v) ∧
    (33 ≤ L.toNat → L.toNat ≤ 64 →
      ∃ v, hashLen33to64na P cut L = .ok v ∧ hashLen33to64na P B L = .ok v) ∧
    (65 ≤ L.toNat → L.toNat ≤ 96 → ∃ v, hashLen65to96 P cut L = .ok v ∧ hashLen65to96 P B L = .ok v) ∧
    (∃ v, na64 P cut L = .ok v ∧ na64 P B L = .ok v) ∧
    (∃ v, na64s P cut L s0 s1 = .ok v ∧ na64s P B L s0 s1 = .ok v) ∧
    (∃ v, uo64s P cut L s0 s1 = .ok v ∧ uo64s P B L s0 s1 = .ok v) ∧
    (∃ v, farm64 P cut L = .ok v ∧ farm64 P B L = .ok v) ∧
    (∃ v, farm64s P cut L s0 s1 = .ok v ∧ farm64s P B L s0 s1 = .ok v)

/-- R139: a hash depends on the first `L` bytes of the buffer alone. -/
def Obligations.HashIgnoresBytesPastTheLength : Prop :=
  ∀ (P : Params) (B B' : Buffer) (L s0 s1 : Word), L.toNat ≤ B.len.toNat → L.toNat ≤ B'.len.toNat →
    (∀ k, k < L.toNat → B.byteAt k = B'.byteAt k) →
    farm64 P B L = farm64 P B' L ∧ farm64s P B L s0 s1 = farm64s P B' L s0 s1

/-- R143, R32: what a command answers is a function of the command, its operands, the buffer and
the constants. No other register, no earlier accumulator and no other internal word reaches a result,
a flag or `FINFO`. -/
def Obligations.ResultsDependOnOperandsAndBufferAlone : Prop :=
  ∀ (i : Instr) (s s' t t' : State), Ready i s → Ready i s' → s.buf = s'.buf → s.cwl = s'.cwl →
    s.params = s'.params → s.status = s'.status → s.status.fault = false →
    (∀ r ∈ i.sources, s.reg r = s'.reg r) →
    exec i s = .next t → exec i s' = .next t' →
    t.status = t'.status ∧ t.phase = t'.phase ∧
    (t.status.fault = false → ∀ r ∈ i.dests, t.reg r = t'.reg r) ∧
    (t.status.fault = true → t.finfo = t'.finfo)

/-- R137: no destination changes, and nothing else the host can see, before a command's last step. -/
def Obligations.NothingShowsBeforeCompletion : Prop :=
  ∀ (s t : State) (n : Nat), s.phase = .run → coreSteps n s = .next t → t.phase = .run →
    SameVisible s t

/-- R48: if the host changes bytes of the buffer while a command runs, at whatever step, the command
still ends as it would have: same `STATUS`, same `FINFO`, same registers but its destinations. What
those hold is a free value (assumption 3). -/
def Obligations.DisturbedBufferLeavesAllButTheResult : Prop :=
  ∀ (s t t' : State) (i : Instr) (cells : Memory), CoreInv s → s.phase = .run →
    decode s.cwl = .ok i → coreRun s = .next t →
    coreRun { s with disturbed := true, buf := { s.buf with cells } } = .next t' →
    t'.status = t.status ∧ t'.finfo = t.finfo ∧ t'.phase = t.phase ∧ t'.cmd = t.cmd ∧
    t'.ie = t.ie ∧ ∀ r, r ∉ i.dests → t'.reg r = t.reg r

/-- R46: no turn of the core changes the buffer. -/
def Obligations.CoreNeverWritesTheBuffer : Prop :=
  ∀ s t : State, (∀ a rest, s.agenda ≠ .host a :: rest) → step s = .next t → t.buf = s.buf

/-! ### The invariant -/

/-- The state after reset meets the invariant. -/
def Obligations.ResetMeetsTheInvariant : Prop := CoreInv State.reset

/-- Every step keeps the invariant. -/
def Obligations.StepKeepsTheInvariant : Prop :=
  ∀ s t : State, CoreInv s → step s = .next t → CoreInv t

/-- R155: the host cannot stop a running command but by `Reset`. Any other host action leaves it
running, with its word, its operands, its step and the registers as they were. -/
def Obligations.OnlyResetStopsARunningCommand : Prop :=
  ∀ (s t : State) (a : HostAction) (rest : List Turn), CoreInv s → s.phase = .run →
    s.agenda = .host a :: rest → a ≠ .reset → step s = .next t →
    t.phase = .run ∧ t.status.busy = true ∧ t.cwl = s.cwl ∧ t.cmd = s.cmd ∧ t.opv = s.opv ∧
    t.stage = s.stage ∧ t.acc = s.acc ∧ t.pos = s.pos ∧ t.len = s.len ∧ t.endPos = s.endPos ∧
    t.last64 = s.last64 ∧ t.buf.len = s.buf.len ∧ t.params = s.params ∧ ∀ r, t.reg r = s.reg r

/-- R160, R153: an idle core does nothing, and no command runs while a fault is recorded. -/
def Obligations.IdleCoreDoesNothing : Prop :=
  (∀ s : State, s.phase = .idle → coreRun s = .next s ∧ (∀ n, coreSteps n s = .next s) ∧
    (s.agenda = [] → step s = .next s)) ∧
  ∀ s : State, CoreInv s → s.status.fault = true →
    coreRun s = .next s ∧ ∀ n, coreSteps n s = .next s

/-! ### The host's side -/

/-- R36: the state after reset. -/
def Obligations.ResetState : Prop :=
  let s := State.reset
  (∀ r, s.reg r = 0) ∧ s.hostValue .cmd = 0 ∧ s.hostValue .status = 0 ∧ s.hostValue .ctrl = 0 ∧
  s.hostValue .finfo = 0 ∧ s.hostValue .buflen = 0 ∧ s.status =
    { busy := false, done := false, fault := false, ovr := false, cause := .none } ∧
  s.buf = Buffer.ofBytes [] ∧ s.phase = .idle

/-- R161: `Reset`, at any time. -/
def Obligations.ResetActionFromAnyState : Prop :=
  ∀ (s : State) (rest : List Turn), s.agenda = .host .reset :: rest →
    ∃ t, step s = .next t ∧ (∀ r, t.reg r = 0) ∧ t.cmd = 0 ∧ t.status =
      { busy := false, done := false, fault := false, ovr := false, cause := .none } ∧
    t.ie = false ∧ t.finfo = 0 ∧ t.buf = Buffer.ofBytes [] ∧ t.phase = .idle ∧ t.irq = false ∧
    t.agenda = rest ∧ t.params = s.params

/-- R23: a host write to `STATUS` acts on the W1C bits alone. -/
def Obligations.StatusWriteClearsOnlyTheBitsSet : Prop :=
  ∀ (s : State) (v : Word) (rest : List Turn), s.agenda = .host (.write 0x008 64 v) :: rest →
    step s = .next { s with
      agenda := rest
      status :=
        { busy := s.status.busy
          done := s.status.done && !v.getLsbD 1
          fault := s.status.fault && !v.getLsbD 2
          ovr := s.status.ovr && !v.getLsbD 3
          cause := if v.getLsbD 2 then .none else s.status.cause }
      finfo := if v.getLsbD 2 then 0 else s.finfo }

/-- R22: the bits of `STATUS` as the host reads it, with the cause codes of R145. -/
def Obligations.StatusReadShowsItsFields : Prop :=
  (∀ (s : State) (rest : List Turn), s.agenda = .host (.read 0x008 64) :: rest →
    ∃ v : Word, step s = .next { s with agenda := rest, readData := v } ∧
      v.getLsbD 0 = s.status.busy ∧ v.getLsbD 1 = s.status.done ∧ v.getLsbD 2 = s.status.fault ∧
      v.getLsbD 3 = s.status.ovr ∧ v.toNat / 2 ^ 8 % 2 ^ 4 = s.status.cause.code ∧
      (∀ k, 4 ≤ k → k ≤ 7 → v.getLsbD k = false) ∧ ∀ k, 12 ≤ k → v.getLsbD k = false) ∧
  Cause.none.code = 0 ∧ Cause.illegalOpcode.code = 1 ∧ Cause.illegalOperand.code = 2 ∧
  Cause.badLength.code = 3 ∧ Cause.oobRead.code = 4

/-- R20, R25 to R27: what a host read returns, and that it changes nothing else. -/
def Obligations.HostReadsFollowTheRegisterMap : Prop :=
  ∀ (s : State) (off : Nat) (rest : List Turn), s.agenda = .host (.read off 64) :: rest →
    (off = 0x000 → step s = .next { s with agenda := rest, readData := s.cmd.setWidth 64 }) ∧
    (off = 0x010 →
      step s = .next { s with agenda := rest, readData := if s.ie then 1 else 0 }) ∧
    (off = 0x018 → step s = .next { s with agenda := rest, readData := s.finfo }) ∧
    (off = 0x020 → step s = .next { s with agenda := rest, readData := s.buf.len }) ∧
    (0x028 ≤ off → off ≤ 0x0F8 → off % 8 = 0 →
      step s = .next { s with agenda := rest, readData := 0 }) ∧
    ∀ r : Reg, off = 0x100 + 8 * r.val →
      step s = .next { s with agenda := rest, readData := s.reg r }

/-- R28: an access of another width or at another offset is refused, and no other access is. -/
def Obligations.AccessesOutsideTheMapAreRefused : Prop :=
  ∀ (s : State) (off width : Nat) (v : Word) (rest : List Turn),
    (s.agenda = .host (.read off width) :: rest ∨ s.agenda = .host (.write off width v) :: rest) →
    (step s = .refused .badHostAccess ↔ width ≠ 64 ∨ off % 8 ≠ 0 ∨ off > 0x178)

/-- R17, R24, R27, R28: host writes to an operand register while not busy, to `CTRL` at any time, and
to a reserved register. That a write to `FINFO` or `BUFLEN` has no effect is assumption 8. -/
def Obligations.HostWritesFollowTheRegisterMap : Prop :=
  ∀ (s : State) (off : Nat) (v : Word) (rest : List Turn),
    s.agenda = .host (.write off 64 v) :: rest →
    (∀ r : Reg, off = 0x100 + 8 * r.val → s.status.busy = false →
      step s = .next { s with agenda := rest, regs := s.regs.set r.val v }) ∧
    (off = 0x010 → step s = .next { s with agenda := rest, ie := v.getLsbD 0 }) ∧
    (0x028 ≤ off → off ≤ 0x0F8 → off % 8 = 0 → step s = .next { s with agenda := rest }) ∧
    (off = 0x018 ∨ off = 0x020 → step s = .next { s with agenda := rest })

/-- R29: `Attach` sets `B` and `N` while not busy, and the buffer it sets is in canonical form. -/
def Obligations.AttachSetsTheBuffer : Prop :=
  ∀ (s : State) (bytes : List Byte) (rest : List Turn), s.agenda = .host (.attach bytes) :: rest →
    s.status.busy = false →
    (bytes.length ≤ 2 ^ s.params.ADDR_W.val - 1 →
      ∃ B, step s = .next { s with agenda := rest, buf := B } ∧ B.len.toNat = bytes.length ∧
        (∀ k (h : k < bytes.length), B.byteAt k = bytes[k]) ∧ Buffer.wf B) ∧
    (bytes.length > 2 ^ s.params.ADDR_W.val - 1 → step s = .refused .bufferTooLong)

/-- Assumptions 3 and 7: a change of one backing byte changes that byte of `B` alone, and marks a
running command's result as unknown. -/
def Obligations.BackingChangeTouchesOneByte : Prop :=
  ∀ (s : State) (off : Nat) (b : Byte) (rest : List Turn), Buffer.wf s.buf →
    s.agenda = .host (.changeBacking off b) :: rest →
    ∃ B, step s = .next { s with
        agenda := rest, buf := B
        disturbed := s.disturbed || (s.status.busy && decide (off < s.buf.len.toNat)) } ∧
      B.len = s.buf.len ∧ Buffer.wf B ∧
      ∀ k, B.byteAt k = if k = off ∧ off < s.buf.len.toNat then b else s.buf.byteAt k

/-- R152: the four ignored host writes; that `OVR` is sticky, stops nothing and is not part of the
completion signal; and that writes to `STATUS` and `CTRL` are never ignored. -/
def Obligations.IgnoredWritesSetOvr : Prop :=
  (∀ (s : State) (a : HostAction) (rest : List Turn), s.agenda = .host a :: rest →
    ((∃ v, a = .write 0x000 64 v) ∧ (s.status.busy = true ∨ s.status.fault = true) ∨
      (∃ (r : Reg) (v : Word), a = .write (0x100 + 8 * r.val) 64 v) ∧ s.status.busy = true ∨
      (∃ bytes, a = .attach bytes) ∧ s.status.busy = true) →
    step s = .next { s with agenda := rest, status := { s.status with ovr := true } }) ∧
  (∀ s t : State, s.status.ovr = true → step s = .next t → t.status.ovr = false →
    ∃ rest, s.agenda = .host .reset :: rest ∨
      ∃ v, s.agenda = .host (.write 0x008 64 v) :: rest ∧ v.getLsbD 3 = true) ∧
  (∀ s : State, (s.setOvr).irq = s.irq) ∧
  (∀ s : State, CoreInv s → s.phase = .run →
    ∃ t, coreRun s.setOvr = .next t ∧ t.phase = .idle ∧ t.status.ovr = true) ∧
  (∀ (s : State) (v : Word) (rest : List Turn), s.agenda = .host (.write 0x000 64 v) :: rest →
    s.status.busy = false → s.status.fault = false → ∃ t, step s = .next t ∧ t.phase = .run) ∧
  ∀ (s : State) (v : Word) (rest : List Turn),
    (s.agenda = .host (.write 0x008 64 v) :: rest →
      ∃ t, step s = .next t ∧ t.status.ovr = (s.status.ovr && !v.getLsbD 3)) ∧
    (s.agenda = .host (.write 0x010 64 v) :: rest →
      step s = .next { s with agenda := rest, ie := v.getLsbD 0 })

/-- R151: how a fault ends. While `FAULT = 1` a `CMD` write is ignored and every other host action is
taken; a `STATUS` write with bit 2 set clears the fault, and the next `CMD` write is accepted. -/
def Obligations.FaultEndsWithAStatusWrite : Prop :=
  ∀ (s : State) (v w : Word) (rest : List Turn), s.status.busy = false → s.status.fault = true →
    v.getLsbD 2 = true →
    (s.agenda = .host (.write 0x000 64 w) :: rest →
      step s = .next { s with agenda := rest, status := { s.status with ovr := true } }) ∧
    (s.agenda = .host (.write 0x008 64 v) :: .host (.write 0x000 64 w) :: rest →
      ∃ t, Sys2Proof.core.run 1 s = .next t ∧ t.status.fault = false ∧ t.status.cause = .none ∧
        t.finfo = 0 ∧ t.irq = (t.ie && t.status.done) ∧
        ∃ u, Sys2Proof.core.run 2 s = .next u ∧ u.phase = .run ∧ u.cwl = w.setWidth 32 ∧
          u.status.busy = true ∧ u.agenda = rest) ∧
    (∀ r : Reg, s.agenda = .host (.write (0x100 + 8 * r.val) 64 w) :: rest →
      ∃ t, step s = .next t ∧ t.reg r = w ∧ t.status = s.status) ∧
    (s.agenda = .host (.write 0x010 64 w) :: rest →
      ∃ t, step s = .next t ∧ t.ie = w.getLsbD 0 ∧ t.status = s.status) ∧
    (∀ bytes : List Byte, bytes.length ≤ 2 ^ s.params.ADDR_W.val - 1 →
      s.agenda = .host (.attach bytes) :: rest →
      ∃ t, step s = .next t ∧ t.buf = Buffer.ofBytes bytes ∧ t.status = s.status)

/-- R154: the completion signal, and the four ways it falls. -/
def Obligations.CompletionSignalFollowsDoneAndFault : Prop :=
  (∀ s : State, s.irq = (s.ie && (s.status.done || s.status.fault))) ∧
  ∀ (s t : State) (v : Word) (rest : List Turn), step s = .next t →
    (s.agenda = .host (.write 0x008 64 v) :: rest →
      (v.getLsbD 1 = true → s.status.fault = false → t.irq = false) ∧
      (v.getLsbD 2 = true → s.status.done = false → t.irq = false)) ∧
    (s.agenda = .host (.write 0x010 64 v) :: rest → v.getLsbD 0 = false → t.irq = false) ∧
    (s.agenda = .host (.write 0x000 64 v) :: rest → s.status.busy = false →
      s.status.fault = false → t.irq = false)
end

