-- ==== Sys2Proof/Laws/Word.lean ====
section
/-! SUPPORT. The widths of R7 as numerals, for arithmetic that must see them. -/

namespace Sys2Proof

theorem Reg.val_lt (r : Reg) : r.val < 16 := r.isLt

theorem Word.toNat_lt (v : Word) : v.toNat < 2 ^ 64 := v.isLt

theorem Word.toNat_ofNat (n : Nat) : (BitVec.ofNat 64 n : Word).toNat = n % 2 ^ 64 :=
  BitVec.toNat_ofNat ..

theorem Word.toNat_add (v v' : Word) : (v + v').toNat = (v.toNat + v'.toNat) % 2 ^ 64 :=
  BitVec.toNat_add ..

/-- A length of `ADDR_W` bits is a register value. -/
theorem Params.maxLen_lt (P : Params) : P.maxLen < 2 ^ 64 := by
  have := Nat.pow_le_pow_right (n := 2) (by decide) (Nat.le_of_lt_succ P.ADDR_W.isLt)
  rw [Params.maxLen]
  omega

end Sys2Proof
end

