-- ==== Sys2Proof/Laws/Decode.lean ====
section
/-! SUPPORT. The fields of a command word read back as they were put, and a word is made of its
fields. -/

namespace Sys2Proof

/-- The unsigned value of a command word made from its fields. -/
theorem commandWord_toNat {opc : Nat} (h : opc < 256) (d a b c : Reg) (imm : Imm6) :
    (commandWord opc d a b c imm).toNat =
      opc * 2 ^ 24 + d.val * 2 ^ 20 + a.val * 2 ^ 16 + b.val * 2 ^ 12 + c.val * 2 ^ 8 + imm.val := by
  have hd := Reg.val_lt d
  have ha := Reg.val_lt a
  have hb := Reg.val_lt b
  have hc := Reg.val_lt c
  rw [commandWord, BitVec.toNat_ofNat, Nat.mod_eq_of_lt]
  omega

theorem opcodeOf_commandWord {opc : Nat} (h : opc < 256) (d a b c : Reg) (imm : Imm6) :
    opcodeOf (commandWord opc d a b c imm) = opc := by
  have hd := Reg.val_lt d
  have ha := Reg.val_lt a
  have hb := Reg.val_lt b
  have hc := Reg.val_lt c
  rw [opcodeOf, bits, commandWord_toNat h]
  omega

theorem fieldsOf_commandWord {opc : Nat} (h : opc < 256) (d a b c : Reg) (imm : Imm6) :
    fieldsOf (commandWord opc d a b c imm) =
      { d := d, a := a, b := b, c := c, rsv := 0, imm := imm } := by
  have hd := Reg.val_lt d
  have ha := Reg.val_lt a
  have hb := Reg.val_lt b
  have hc := Reg.val_lt c
  simp only [fieldsOf, bits, commandWord_toNat h, Fields.mk.injEq]
  refine ⟨?_, ?_, ?_, ?_, ?_, ?_⟩
  · apply Fin.ext; show _ % 16 = _; omega
  · apply Fin.ext; show _ % 16 = _; omega
  · apply Fin.ext; show _ % 16 = _; omega
  · apply Fin.ext; show _ % 16 = _; omega
  · omega
  · apply Fin.ext; show _ % 64 = _; omega

/-- A number is the sum of its fields when its `RSV` bits are zero. -/
theorem sum_of_fields (n : Nat) (hrsv : n / 2 ^ 6 % 2 ^ 2 = 0) :
    n / 2 ^ 24 * 2 ^ 24 + n / 2 ^ 20 % 16 * 2 ^ 20 + n / 2 ^ 16 % 16 * 2 ^ 16 +
      n / 2 ^ 12 % 16 * 2 ^ 12 + n / 2 ^ 8 % 16 * 2 ^ 8 + n % 64 = n := by
  have h1 : n = n / 2 ^ 6 * 2 ^ 6 + n % 64 := by omega
  have h2 : n / 2 ^ 6 = n / 2 ^ 8 * 2 ^ 2 := by omega
  have h3 : n / 2 ^ 8 = n / 2 ^ 12 * 16 + n / 2 ^ 8 % 16 := by omega
  have h4 : n / 2 ^ 12 = n / 2 ^ 16 * 16 + n / 2 ^ 12 % 16 := by omega
  have h5 : n / 2 ^ 16 = n / 2 ^ 20 * 16 + n / 2 ^ 16 % 16 := by omega
  have h6 : n / 2 ^ 20 = n / 2 ^ 24 * 16 + n / 2 ^ 20 % 16 := by omega
  generalize n / 2 ^ 24 = f24, n / 2 ^ 20 % 16 = f20, n / 2 ^ 16 % 16 = f16, n / 2 ^ 12 % 16 = f12,
    n / 2 ^ 8 % 16 = f8, n % 64 = f0, n / 2 ^ 20 = g20, n / 2 ^ 16 = g16, n / 2 ^ 12 = g12,
    n / 2 ^ 8 = g8, n / 2 ^ 6 = g6 at *
  omega

/-- A word whose `RSV` is zero is made of its opcode and its fields. -/
theorem commandWord_fieldsOf (w : CmdWord) (h : (fieldsOf w).rsv = 0) :
    commandWord (opcodeOf w) (fieldsOf w).d (fieldsOf w).a (fieldsOf w).b (fieldsOf w).c
      (fieldsOf w).imm = w := by
  have hw : w.toNat < 2 ^ 32 := w.isLt
  have hopc : opcodeOf w = w.toNat / 2 ^ 24 := by
    simp only [opcodeOf, bits]
    omega
  apply BitVec.eq_of_toNat_eq
  rw [commandWord_toNat (by omega), hopc]
  refine Eq.trans ?_ (sum_of_fields w.toNat h)
  simp [fieldsOf, bits]

end Sys2Proof
end

