-- ==== Sys2Proof/Laws/State.lean ====
section
/-! SUPPORT. What each update of the state does to each field: one lemma per field, so that no later
proof unfolds a record update. -/

namespace Sys2Proof.Machine

/-! ### `setReg` -/

@[simp] theorem State.setReg_regs (s : State) (r : Reg) (v : Word) : (s.setReg r v).regs = s.regs.set r.val v := rfl
@[simp] theorem State.setReg_params (s : State) (r : Reg) (v : Word) : (s.setReg r v).params = s.params := rfl
@[simp] theorem State.setReg_cmd (s : State) (r : Reg) (v : Word) : (s.setReg r v).cmd = s.cmd := rfl
@[simp] theorem State.setReg_status (s : State) (r : Reg) (v : Word) : (s.setReg r v).status = s.status := rfl
@[simp] theorem State.setReg_ie (s : State) (r : Reg) (v : Word) : (s.setReg r v).ie = s.ie := rfl
@[simp] theorem State.setReg_finfo (s : State) (r : Reg) (v : Word) : (s.setReg r v).finfo = s.finfo := rfl
@[simp] theorem State.setReg_buf (s : State) (r : Reg) (v : Word) : (s.setReg r v).buf = s.buf := rfl
@[simp] theorem State.setReg_acc (s : State) (r : Reg) (v : Word) : (s.setReg r v).acc = s.acc := rfl
@[simp] theorem State.setReg_phase (s : State) (r : Reg) (v : Word) : (s.setReg r v).phase = s.phase := rfl
@[simp] theorem State.setReg_cwl (s : State) (r : Reg) (v : Word) : (s.setReg r v).cwl = s.cwl := rfl
@[simp] theorem State.setReg_opv (s : State) (r : Reg) (v : Word) : (s.setReg r v).opv = s.opv := rfl
@[simp] theorem State.setReg_pos (s : State) (r : Reg) (v : Word) : (s.setReg r v).pos = s.pos := rfl
@[simp] theorem State.setReg_endPos (s : State) (r : Reg) (v : Word) : (s.setReg r v).endPos = s.endPos := rfl
@[simp] theorem State.setReg_last64 (s : State) (r : Reg) (v : Word) : (s.setReg r v).last64 = s.last64 := rfl
@[simp] theorem State.setReg_len (s : State) (r : Reg) (v : Word) : (s.setReg r v).len = s.len := rfl
@[simp] theorem State.setReg_stage (s : State) (r : Reg) (v : Word) : (s.setReg r v).stage = s.stage := rfl
@[simp] theorem State.setReg_agenda (s : State) (r : Reg) (v : Word) : (s.setReg r v).agenda = s.agenda := rfl
@[simp] theorem State.setReg_readData (s : State) (r : Reg) (v : Word) : (s.setReg r v).readData = s.readData := rfl
@[simp] theorem State.setReg_disturbed (s : State) (r : Reg) (v : Word) : (s.setReg r v).disturbed = s.disturbed := rfl
@[simp] theorem State.setReg_free (s : State) (r : Reg) (v : Word) : (s.setReg r v).free = s.free := rfl

/-! ### `setOvr` -/

@[simp] theorem State.setOvr_regs (s : State) : (s.setOvr).regs = s.regs := rfl
@[simp] theorem State.setOvr_params (s : State) : (s.setOvr).params = s.params := rfl
@[simp] theorem State.setOvr_cmd (s : State) : (s.setOvr).cmd = s.cmd := rfl
@[simp] theorem State.setOvr_status (s : State) : (s.setOvr).status = { s.status with ovr := true } := rfl
@[simp] theorem State.setOvr_ie (s : State) : (s.setOvr).ie = s.ie := rfl
@[simp] theorem State.setOvr_finfo (s : State) : (s.setOvr).finfo = s.finfo := rfl
@[simp] theorem State.setOvr_buf (s : State) : (s.setOvr).buf = s.buf := rfl
@[simp] theorem State.setOvr_acc (s : State) : (s.setOvr).acc = s.acc := rfl
@[simp] theorem State.setOvr_phase (s : State) : (s.setOvr).phase = s.phase := rfl
@[simp] theorem State.setOvr_cwl (s : State) : (s.setOvr).cwl = s.cwl := rfl
@[simp] theorem State.setOvr_opv (s : State) : (s.setOvr).opv = s.opv := rfl
@[simp] theorem State.setOvr_pos (s : State) : (s.setOvr).pos = s.pos := rfl
@[simp] theorem State.setOvr_endPos (s : State) : (s.setOvr).endPos = s.endPos := rfl
@[simp] theorem State.setOvr_last64 (s : State) : (s.setOvr).last64 = s.last64 := rfl
@[simp] theorem State.setOvr_len (s : State) : (s.setOvr).len = s.len := rfl
@[simp] theorem State.setOvr_stage (s : State) : (s.setOvr).stage = s.stage := rfl
@[simp] theorem State.setOvr_agenda (s : State) : (s.setOvr).agenda = s.agenda := rfl
@[simp] theorem State.setOvr_readData (s : State) : (s.setOvr).readData = s.readData := rfl
@[simp] theorem State.setOvr_disturbed (s : State) : (s.setOvr).disturbed = s.disturbed := rfl
@[simp] theorem State.setOvr_free (s : State) : (s.setOvr).free = s.free := rfl

/-! ### `clearOvr` -/

@[simp] theorem State.clearOvr_regs (s : State) : (s.clearOvr).regs = s.regs := rfl
@[simp] theorem State.clearOvr_params (s : State) : (s.clearOvr).params = s.params := rfl
@[simp] theorem State.clearOvr_cmd (s : State) : (s.clearOvr).cmd = s.cmd := rfl
@[simp] theorem State.clearOvr_status (s : State) : (s.clearOvr).status = { s.status with ovr := false } := rfl
@[simp] theorem State.clearOvr_ie (s : State) : (s.clearOvr).ie = s.ie := rfl
@[simp] theorem State.clearOvr_finfo (s : State) : (s.clearOvr).finfo = s.finfo := rfl
@[simp] theorem State.clearOvr_buf (s : State) : (s.clearOvr).buf = s.buf := rfl
@[simp] theorem State.clearOvr_acc (s : State) : (s.clearOvr).acc = s.acc := rfl
@[simp] theorem State.clearOvr_phase (s : State) : (s.clearOvr).phase = s.phase := rfl
@[simp] theorem State.clearOvr_cwl (s : State) : (s.clearOvr).cwl = s.cwl := rfl
@[simp] theorem State.clearOvr_opv (s : State) : (s.clearOvr).opv = s.opv := rfl
@[simp] theorem State.clearOvr_pos (s : State) : (s.clearOvr).pos = s.pos := rfl
@[simp] theorem State.clearOvr_endPos (s : State) : (s.clearOvr).endPos = s.endPos := rfl
@[simp] theorem State.clearOvr_last64 (s : State) : (s.clearOvr).last64 = s.last64 := rfl
@[simp] theorem State.clearOvr_len (s : State) : (s.clearOvr).len = s.len := rfl
@[simp] theorem State.clearOvr_stage (s : State) : (s.clearOvr).stage = s.stage := rfl
@[simp] theorem State.clearOvr_agenda (s : State) : (s.clearOvr).agenda = s.agenda := rfl
@[simp] theorem State.clearOvr_readData (s : State) : (s.clearOvr).readData = s.readData := rfl
@[simp] theorem State.clearOvr_disturbed (s : State) : (s.clearOvr).disturbed = s.disturbed := rfl
@[simp] theorem State.clearOvr_free (s : State) : (s.clearOvr).free = s.free := rfl

/-! ### `clearDone` -/

@[simp] theorem State.clearDone_regs (s : State) : (s.clearDone).regs = s.regs := rfl
@[simp] theorem State.clearDone_params (s : State) : (s.clearDone).params = s.params := rfl
@[simp] theorem State.clearDone_cmd (s : State) : (s.clearDone).cmd = s.cmd := rfl
@[simp] theorem State.clearDone_status (s : State) : (s.clearDone).status = { s.status with done := false } := rfl
@[simp] theorem State.clearDone_ie (s : State) : (s.clearDone).ie = s.ie := rfl
@[simp] theorem State.clearDone_finfo (s : State) : (s.clearDone).finfo = s.finfo := rfl
@[simp] theorem State.clearDone_buf (s : State) : (s.clearDone).buf = s.buf := rfl
@[simp] theorem State.clearDone_acc (s : State) : (s.clearDone).acc = s.acc := rfl
@[simp] theorem State.clearDone_phase (s : State) : (s.clearDone).phase = s.phase := rfl
@[simp] theorem State.clearDone_cwl (s : State) : (s.clearDone).cwl = s.cwl := rfl
@[simp] theorem State.clearDone_opv (s : State) : (s.clearDone).opv = s.opv := rfl
@[simp] theorem State.clearDone_pos (s : State) : (s.clearDone).pos = s.pos := rfl
@[simp] theorem State.clearDone_endPos (s : State) : (s.clearDone).endPos = s.endPos := rfl
@[simp] theorem State.clearDone_last64 (s : State) : (s.clearDone).last64 = s.last64 := rfl
@[simp] theorem State.clearDone_len (s : State) : (s.clearDone).len = s.len := rfl
@[simp] theorem State.clearDone_stage (s : State) : (s.clearDone).stage = s.stage := rfl
@[simp] theorem State.clearDone_agenda (s : State) : (s.clearDone).agenda = s.agenda := rfl
@[simp] theorem State.clearDone_readData (s : State) : (s.clearDone).readData = s.readData := rfl
@[simp] theorem State.clearDone_disturbed (s : State) : (s.clearDone).disturbed = s.disturbed := rfl
@[simp] theorem State.clearDone_free (s : State) : (s.clearDone).free = s.free := rfl

/-! ### `clearFault` -/

@[simp] theorem State.clearFault_regs (s : State) : (s.clearFault).regs = s.regs := rfl
@[simp] theorem State.clearFault_params (s : State) : (s.clearFault).params = s.params := rfl
@[simp] theorem State.clearFault_cmd (s : State) : (s.clearFault).cmd = s.cmd := rfl
@[simp] theorem State.clearFault_status (s : State) : (s.clearFault).status = { s.status with fault := false, cause := .none } := rfl
@[simp] theorem State.clearFault_ie (s : State) : (s.clearFault).ie = s.ie := rfl
@[simp] theorem State.clearFault_finfo (s : State) : (s.clearFault).finfo = 0#64 := rfl
@[simp] theorem State.clearFault_buf (s : State) : (s.clearFault).buf = s.buf := rfl
@[simp] theorem State.clearFault_acc (s : State) : (s.clearFault).acc = s.acc := rfl
@[simp] theorem State.clearFault_phase (s : State) : (s.clearFault).phase = s.phase := rfl
@[simp] theorem State.clearFault_cwl (s : State) : (s.clearFault).cwl = s.cwl := rfl
@[simp] theorem State.clearFault_opv (s : State) : (s.clearFault).opv = s.opv := rfl
@[simp] theorem State.clearFault_pos (s : State) : (s.clearFault).pos = s.pos := rfl
@[simp] theorem State.clearFault_endPos (s : State) : (s.clearFault).endPos = s.endPos := rfl
@[simp] theorem State.clearFault_last64 (s : State) : (s.clearFault).last64 = s.last64 := rfl
@[simp] theorem State.clearFault_len (s : State) : (s.clearFault).len = s.len := rfl
@[simp] theorem State.clearFault_stage (s : State) : (s.clearFault).stage = s.stage := rfl
@[simp] theorem State.clearFault_agenda (s : State) : (s.clearFault).agenda = s.agenda := rfl
@[simp] theorem State.clearFault_readData (s : State) : (s.clearFault).readData = s.readData := rfl
@[simp] theorem State.clearFault_disturbed (s : State) : (s.clearFault).disturbed = s.disturbed := rfl
@[simp] theorem State.clearFault_free (s : State) : (s.clearFault).free = s.free := rfl

/-! ### `accept` -/

@[simp] theorem State.accept_regs (s : State) (w : CmdWord) : (s.accept w).regs = s.regs := rfl
@[simp] theorem State.accept_params (s : State) (w : CmdWord) : (s.accept w).params = s.params := rfl
@[simp] theorem State.accept_cmd (s : State) (w : CmdWord) : (s.accept w).cmd = w := rfl
@[simp] theorem State.accept_status (s : State) (w : CmdWord) : (s.accept w).status = { s.status with done := false, busy := true } := rfl
@[simp] theorem State.accept_ie (s : State) (w : CmdWord) : (s.accept w).ie = s.ie := rfl
@[simp] theorem State.accept_finfo (s : State) (w : CmdWord) : (s.accept w).finfo = s.finfo := rfl
@[simp] theorem State.accept_buf (s : State) (w : CmdWord) : (s.accept w).buf = s.buf := rfl
@[simp] theorem State.accept_acc (s : State) (w : CmdWord) : (s.accept w).acc = s.acc := rfl
@[simp] theorem State.accept_phase (s : State) (w : CmdWord) : (s.accept w).phase = .run := rfl
@[simp] theorem State.accept_cwl (s : State) (w : CmdWord) : (s.accept w).cwl = w := rfl
@[simp] theorem State.accept_opv (s : State) (w : CmdWord) : (s.accept w).opv = s.latch w := rfl
@[simp] theorem State.accept_pos (s : State) (w : CmdWord) : (s.accept w).pos = s.pos := rfl
@[simp] theorem State.accept_endPos (s : State) (w : CmdWord) : (s.accept w).endPos = s.endPos := rfl
@[simp] theorem State.accept_last64 (s : State) (w : CmdWord) : (s.accept w).last64 = s.last64 := rfl
@[simp] theorem State.accept_len (s : State) (w : CmdWord) : (s.accept w).len = s.len := rfl
@[simp] theorem State.accept_stage (s : State) (w : CmdWord) : (s.accept w).stage = .start := rfl
@[simp] theorem State.accept_agenda (s : State) (w : CmdWord) : (s.accept w).agenda = s.agenda := rfl
@[simp] theorem State.accept_readData (s : State) (w : CmdWord) : (s.accept w).readData = s.readData := rfl
@[simp] theorem State.accept_disturbed (s : State) (w : CmdWord) : (s.accept w).disturbed = false := rfl
@[simp] theorem State.accept_free (s : State) (w : CmdWord) : (s.accept w).free = s.free := rfl

/-! ### `retire`: the internal words it frees have no lemma, since nothing may rest on a free value -/

@[simp] theorem State.retire_regs (s : State) : (s.retire).regs = s.regs := rfl
@[simp] theorem State.retire_params (s : State) : (s.retire).params = s.params := rfl
@[simp] theorem State.retire_cmd (s : State) : (s.retire).cmd = s.cmd := rfl
@[simp] theorem State.retire_status (s : State) : (s.retire).status = s.status := rfl
@[simp] theorem State.retire_ie (s : State) : (s.retire).ie = s.ie := rfl
@[simp] theorem State.retire_finfo (s : State) : (s.retire).finfo = s.finfo := rfl
@[simp] theorem State.retire_buf (s : State) : (s.retire).buf = s.buf := rfl
@[simp] theorem State.retire_phase (s : State) : (s.retire).phase = .idle := rfl
@[simp] theorem State.retire_stage (s : State) : (s.retire).stage = .start := rfl
@[simp] theorem State.retire_agenda (s : State) : (s.retire).agenda = s.agenda := rfl
@[simp] theorem State.retire_readData (s : State) : (s.retire).readData = s.readData := rfl
@[simp] theorem State.retire_disturbed (s : State) : (s.retire).disturbed = false := rfl
@[simp] theorem State.retire_free (s : State) : (s.retire).free = s.free + 16 := rfl

/-! ### `takeFault` -/

@[simp] theorem State.takeFault_regs (s : State) (cause : Cause) (info : Word) : (s.takeFault cause info).regs = s.regs := rfl
@[simp] theorem State.takeFault_params (s : State) (cause : Cause) (info : Word) : (s.takeFault cause info).params = s.params := rfl
@[simp] theorem State.takeFault_cmd (s : State) (cause : Cause) (info : Word) : (s.takeFault cause info).cmd = s.cmd := rfl
@[simp] theorem State.takeFault_status (s : State) (cause : Cause) (info : Word) : (s.takeFault cause info).status = { s.status with fault := true, cause := cause, busy := false } := rfl
@[simp] theorem State.takeFault_ie (s : State) (cause : Cause) (info : Word) : (s.takeFault cause info).ie = s.ie := rfl
@[simp] theorem State.takeFault_finfo (s : State) (cause : Cause) (info : Word) : (s.takeFault cause info).finfo = info := rfl
@[simp] theorem State.takeFault_buf (s : State) (cause : Cause) (info : Word) : (s.takeFault cause info).buf = s.buf := rfl
@[simp] theorem State.takeFault_phase (s : State) (cause : Cause) (info : Word) : (s.takeFault cause info).phase = .idle := rfl
@[simp] theorem State.takeFault_stage (s : State) (cause : Cause) (info : Word) : (s.takeFault cause info).stage = .start := rfl
@[simp] theorem State.takeFault_agenda (s : State) (cause : Cause) (info : Word) : (s.takeFault cause info).agenda = s.agenda := rfl
@[simp] theorem State.takeFault_readData (s : State) (cause : Cause) (info : Word) : (s.takeFault cause info).readData = s.readData := rfl
@[simp] theorem State.takeFault_disturbed (s : State) (cause : Cause) (info : Word) : (s.takeFault cause info).disturbed = false := rfl
@[simp] theorem State.takeFault_free (s : State) (cause : Cause) (info : Word) : (s.takeFault cause info).free = s.free + 16 := rfl

/-! ### `doReset` -/

@[simp] theorem State.doReset_regs (s : State) : (s.doReset).regs = State.reset.regs := rfl
@[simp] theorem State.doReset_params (s : State) : (s.doReset).params = s.params := rfl
@[simp] theorem State.doReset_cmd (s : State) : (s.doReset).cmd = State.reset.cmd := rfl
@[simp] theorem State.doReset_status (s : State) : (s.doReset).status = State.reset.status := rfl
@[simp] theorem State.doReset_ie (s : State) : (s.doReset).ie = State.reset.ie := rfl
@[simp] theorem State.doReset_finfo (s : State) : (s.doReset).finfo = State.reset.finfo := rfl
@[simp] theorem State.doReset_buf (s : State) : (s.doReset).buf = State.reset.buf := rfl
@[simp] theorem State.doReset_acc (s : State) : (s.doReset).acc = State.reset.acc := rfl
@[simp] theorem State.doReset_phase (s : State) : (s.doReset).phase = State.reset.phase := rfl
@[simp] theorem State.doReset_cwl (s : State) : (s.doReset).cwl = State.reset.cwl := rfl
@[simp] theorem State.doReset_opv (s : State) : (s.doReset).opv = State.reset.opv := rfl
@[simp] theorem State.doReset_pos (s : State) : (s.doReset).pos = State.reset.pos := rfl
@[simp] theorem State.doReset_endPos (s : State) : (s.doReset).endPos = State.reset.endPos := rfl
@[simp] theorem State.doReset_last64 (s : State) : (s.doReset).last64 = State.reset.last64 := rfl
@[simp] theorem State.doReset_len (s : State) : (s.doReset).len = State.reset.len := rfl
@[simp] theorem State.doReset_stage (s : State) : (s.doReset).stage = State.reset.stage := rfl
@[simp] theorem State.doReset_agenda (s : State) : (s.doReset).agenda = s.agenda := rfl
@[simp] theorem State.doReset_readData (s : State) : (s.doReset).readData = s.readData := rfl
@[simp] theorem State.doReset_disturbed (s : State) : (s.doReset).disturbed = State.reset.disturbed := rfl
@[simp] theorem State.doReset_free (s : State) : (s.doReset).free = s.free := rfl

/-! ### `changeBacking` -/

@[simp] theorem State.changeBacking_regs (s : State) (off : Nat) (b : Byte) : (s.changeBacking off b).regs = s.regs := rfl
@[simp] theorem State.changeBacking_params (s : State) (off : Nat) (b : Byte) : (s.changeBacking off b).params = s.params := rfl
@[simp] theorem State.changeBacking_cmd (s : State) (off : Nat) (b : Byte) : (s.changeBacking off b).cmd = s.cmd := rfl
@[simp] theorem State.changeBacking_status (s : State) (off : Nat) (b : Byte) : (s.changeBacking off b).status = s.status := rfl
@[simp] theorem State.changeBacking_ie (s : State) (off : Nat) (b : Byte) : (s.changeBacking off b).ie = s.ie := rfl
@[simp] theorem State.changeBacking_finfo (s : State) (off : Nat) (b : Byte) : (s.changeBacking off b).finfo = s.finfo := rfl
@[simp] theorem State.changeBacking_buf (s : State) (off : Nat) (b : Byte) : (s.changeBacking off b).buf = s.buf.change off b := rfl
@[simp] theorem State.changeBacking_acc (s : State) (off : Nat) (b : Byte) : (s.changeBacking off b).acc = s.acc := rfl
@[simp] theorem State.changeBacking_phase (s : State) (off : Nat) (b : Byte) : (s.changeBacking off b).phase = s.phase := rfl
@[simp] theorem State.changeBacking_cwl (s : State) (off : Nat) (b : Byte) : (s.changeBacking off b).cwl = s.cwl := rfl
@[simp] theorem State.changeBacking_opv (s : State) (off : Nat) (b : Byte) : (s.changeBacking off b).opv = s.opv := rfl
@[simp] theorem State.changeBacking_pos (s : State) (off : Nat) (b : Byte) : (s.changeBacking off b).pos = s.pos := rfl
@[simp] theorem State.changeBacking_endPos (s : State) (off : Nat) (b : Byte) : (s.changeBacking off b).endPos = s.endPos := rfl
@[simp] theorem State.changeBacking_last64 (s : State) (off : Nat) (b : Byte) : (s.changeBacking off b).last64 = s.last64 := rfl
@[simp] theorem State.changeBacking_len (s : State) (off : Nat) (b : Byte) : (s.changeBacking off b).len = s.len := rfl
@[simp] theorem State.changeBacking_stage (s : State) (off : Nat) (b : Byte) : (s.changeBacking off b).stage = s.stage := rfl
@[simp] theorem State.changeBacking_agenda (s : State) (off : Nat) (b : Byte) : (s.changeBacking off b).agenda = s.agenda := rfl
@[simp] theorem State.changeBacking_readData (s : State) (off : Nat) (b : Byte) : (s.changeBacking off b).readData = s.readData := rfl
@[simp] theorem State.changeBacking_disturbed (s : State) (off : Nat) (b : Byte) : (s.changeBacking off b).disturbed = (s.disturbed || (s.status.busy && decide (off < s.buf.len.toNat))) := rfl
@[simp] theorem State.changeBacking_free (s : State) (off : Nat) (b : Byte) : (s.changeBacking off b).free = s.free := rfl

/-! ### `setRegs` leaves every other field alone -/

@[simp] theorem State.setRegs_params (s : State) (ws : List (Reg × Word)) : (s.setRegs ws).params = s.params := rfl
@[simp] theorem State.setRegs_cmd (s : State) (ws : List (Reg × Word)) : (s.setRegs ws).cmd = s.cmd := rfl
@[simp] theorem State.setRegs_status (s : State) (ws : List (Reg × Word)) : (s.setRegs ws).status = s.status := rfl
@[simp] theorem State.setRegs_ie (s : State) (ws : List (Reg × Word)) : (s.setRegs ws).ie = s.ie := rfl
@[simp] theorem State.setRegs_finfo (s : State) (ws : List (Reg × Word)) : (s.setRegs ws).finfo = s.finfo := rfl
@[simp] theorem State.setRegs_buf (s : State) (ws : List (Reg × Word)) : (s.setRegs ws).buf = s.buf := rfl
@[simp] theorem State.setRegs_acc (s : State) (ws : List (Reg × Word)) : (s.setRegs ws).acc = s.acc := rfl
@[simp] theorem State.setRegs_phase (s : State) (ws : List (Reg × Word)) : (s.setRegs ws).phase = s.phase := rfl
@[simp] theorem State.setRegs_cwl (s : State) (ws : List (Reg × Word)) : (s.setRegs ws).cwl = s.cwl := rfl
@[simp] theorem State.setRegs_opv (s : State) (ws : List (Reg × Word)) : (s.setRegs ws).opv = s.opv := rfl
@[simp] theorem State.setRegs_pos (s : State) (ws : List (Reg × Word)) : (s.setRegs ws).pos = s.pos := rfl
@[simp] theorem State.setRegs_endPos (s : State) (ws : List (Reg × Word)) : (s.setRegs ws).endPos = s.endPos := rfl
@[simp] theorem State.setRegs_last64 (s : State) (ws : List (Reg × Word)) : (s.setRegs ws).last64 = s.last64 := rfl
@[simp] theorem State.setRegs_len (s : State) (ws : List (Reg × Word)) : (s.setRegs ws).len = s.len := rfl
@[simp] theorem State.setRegs_stage (s : State) (ws : List (Reg × Word)) : (s.setRegs ws).stage = s.stage := rfl
@[simp] theorem State.setRegs_agenda (s : State) (ws : List (Reg × Word)) : (s.setRegs ws).agenda = s.agenda := rfl
@[simp] theorem State.setRegs_readData (s : State) (ws : List (Reg × Word)) : (s.setRegs ws).readData = s.readData := rfl
@[simp] theorem State.setRegs_disturbed (s : State) (ws : List (Reg × Word)) : (s.setRegs ws).disturbed = s.disturbed := rfl
@[simp] theorem State.setRegs_free (s : State) (ws : List (Reg × Word)) : (s.setRegs ws).free = s.free := rfl

/-! ### `complete` -/

@[simp] theorem State.complete_params (s : State) (ws : List (Reg × Word)) : (s.complete ws).params = s.params := rfl
@[simp] theorem State.complete_cmd (s : State) (ws : List (Reg × Word)) : (s.complete ws).cmd = s.cmd := rfl
@[simp] theorem State.complete_status (s : State) (ws : List (Reg × Word)) : (s.complete ws).status = { s.status with done := true, busy := false } := rfl
@[simp] theorem State.complete_ie (s : State) (ws : List (Reg × Word)) : (s.complete ws).ie = s.ie := rfl
@[simp] theorem State.complete_finfo (s : State) (ws : List (Reg × Word)) : (s.complete ws).finfo = s.finfo := rfl
@[simp] theorem State.complete_buf (s : State) (ws : List (Reg × Word)) : (s.complete ws).buf = s.buf := rfl
@[simp] theorem State.complete_phase (s : State) (ws : List (Reg × Word)) : (s.complete ws).phase = .idle := rfl
@[simp] theorem State.complete_stage (s : State) (ws : List (Reg × Word)) : (s.complete ws).stage = .start := rfl
@[simp] theorem State.complete_agenda (s : State) (ws : List (Reg × Word)) : (s.complete ws).agenda = s.agenda := rfl
@[simp] theorem State.complete_readData (s : State) (ws : List (Reg × Word)) : (s.complete ws).readData = s.readData := rfl
@[simp] theorem State.complete_disturbed (s : State) (ws : List (Reg × Word)) : (s.complete ws).disturbed = false := rfl
@[simp] theorem State.complete_free (s : State) (ws : List (Reg × Word)) : (s.complete ws).free = s.free + 16 := rfl

/-! ### Reading registers -/

@[simp] theorem State.reg_setReg_same (s : State) (r : Reg) (v : Word) : (s.setReg r v).reg r = v := by
  simp [State.reg]

theorem State.reg_setReg_other (s : State) {r q : Reg} (v : Word) (h : r ≠ q) :
    (s.setReg r v).reg q = s.reg q := by
  have h' : r.val ≠ q.val := fun e => h (Fin.ext e)
  simp [State.reg, h']

theorem State.reg_setReg (s : State) (r q : Reg) (v : Word) :
    (s.setReg r v).reg q = if r = q then v else s.reg q := by
  by_cases h : r = q
  · subst h; simp
  · simp [State.reg_setReg_other _ _ h, h]

@[simp] theorem State.reg_retire (s : State) (q : Reg) : s.retire.reg q = s.reg q := rfl

@[simp] theorem State.reg_takeFault (s : State) (cause : Cause) (info : Word) (q : Reg) :
    (s.takeFault cause info).reg q = s.reg q := rfl

@[simp] theorem State.reg_accept (s : State) (w : CmdWord) (q : Reg) : (s.accept w).reg q = s.reg q := rfl

@[simp] theorem State.reg_clearFault (s : State) (q : Reg) : s.clearFault.reg q = s.reg q := rfl

theorem State.reg_complete (s : State) (ws : List (Reg × Word)) (q : Reg) :
    (s.complete ws).reg q = (s.setRegs (s.results ws)).reg q := rfl

/-- A register reads as the last write to it, or as before. -/
theorem State.reg_setRegs (s : State) (ws : List (Reg × Word)) (q : Reg) :
    (s.setRegs ws).reg q = written ws q (s.reg q) := by
  induction ws generalizing s with
  | nil => rfl
  | cons w ws ih =>
    obtain ⟨r, v⟩ := w
    rw [written, ← State.reg_setReg, ← ih]
    rfl

/-- A register no write of the list names keeps its value. -/
theorem written_other (ws : List (Reg × Word)) (q : Reg) (old : Word) (h : ∀ w ∈ ws, w.1 ≠ q) :
    written ws q old = old := by
  induction ws generalizing old with
  | nil => rfl
  | cons w ws ih =>
    rw [written, if_neg (h w List.mem_cons_self)]
    exact ih old fun w' hw' => h w' (List.mem_cons_of_mem _ hw')

/-- Two states with the same value in every register have the same register file. -/
theorem State.regs_ext {s t : State} (h : ∀ r : Reg, t.reg r = s.reg r) : t.regs = s.regs := by
  apply Vector.ext
  intro i hi
  exact h ⟨i, hi⟩

end Sys2Proof.Machine
end

