-- ==== Sys2Proof/Laws/Ops.lean ====
section
/-! SUPPORT. What each shared operation does, once: the reader port, the length check, acceptance,
completion and taking a fault. -/

namespace Sys2Proof.Machine

/-! ### The reader port -/

theorem memRead_ok {B : Buffer} {off n : Nat} (h : off + n ≤ B.len.toNat) :
    memRead B off n = .ok (BitVec.ofNat 64 (leBytes B off n)) := by
  rw [memRead, if_neg (by omega)]

theorem memRead_error {B : Buffer} {off n : Nat} (h : B.len.toNat < off + n) :
    memRead B off n = .error off := by
  rw [memRead, if_pos h]

/-- A read answers in range exactly. -/
theorem memRead_eq_ok {B : Buffer} {off n : Nat} {v : Word} (h : memRead B off n = .ok v) :
    off + n ≤ B.len.toNat ∧ v = BitVec.ofNat 64 (leBytes B off n) := by
  rw [memRead] at h
  split_ifs at h with hr
  exact ⟨by omega, (Except.ok.inj h).symm⟩

/-- `n` bytes are less than `2^(8n)`. -/
theorem leBytes_lt (B : Buffer) (off n : Nat) : leBytes B off n < 2 ^ (8 * n) := by
  induction n generalizing off with
  | zero => simp [leBytes]
  | succ n ih =>
    have hb := (B.byteAt off).isLt
    have := ih (off + 1)
    have hp : 2 ^ (8 * (n + 1)) = 2 ^ 8 * 2 ^ (8 * n) := by rw [← Nat.pow_add]; congr 1; omega
    rw [leBytes, hp]
    generalize leBytes B (off + 1) n = rest at *
    generalize 2 ^ (8 * n) = p at *
    omega

/-- Reads depend on the bytes they read alone. -/
theorem leBytes_congr {B B' : Buffer} {off n : Nat}
    (h : ∀ k, off ≤ k → k < off + n → B.byteAt k = B'.byteAt k) :
    leBytes B off n = leBytes B' off n := by
  induction n generalizing off with
  | zero => rfl
  | succ n ih =>
    rw [leBytes, leBytes, h off (by omega) (by omega),
      ih fun k hk hk' => h k (by omega) (by omega)]

/-! ### The length check (R136) -/

theorem State.checkLength_ok (s : State) {L : Word} {lo hi : Nat} (go : State → State)
    (hN : L.toNat ≤ s.buf.len.toNat) (hlo : lo ≤ L.toNat) (hhi : L.toNat ≤ hi) :
    s.checkLength L lo hi go = go s := by
  rw [State.checkLength, if_neg (by omega)]

theorem State.checkLength_bad (s : State) {L : Word} {lo hi : Nat} (go : State → State)
    (h : s.buf.len.toNat < L.toNat ∨ L.toNat < lo ∨ hi < L.toNat) :
    s.checkLength L lo hi go = s.takeFault .badLength L := by
  rw [State.checkLength, if_pos h]

/-! ### Acceptance (R134) -/

/-- A list of register values holds, for each register in it, that register's value. -/
theorem lookup_latched (s : State) (rs : List Reg) (r : Reg) (h : r ∈ rs) :
    (rs.map fun q => (q, s.reg q)).lookup r = some (s.reg r) := by
  induction rs with
  | nil => simp at h
  | cons q rs ih =>
    rw [List.map_cons, List.lookup_cons]
    by_cases hq : r = q
    · subst hq; simp
    · rw [beq_false_of_ne hq]
      exact ih ((List.mem_cons.1 h).resolve_left hq)

/-- Acceptance latches the operands of the command the word stands for. -/
theorem latched_accept (s : State) {w : CmdWord} {i : Instr} (h : decode w = .ok i) :
    Latched i (s.accept w) := by
  intro r hr
  have hl : (s.accept w).opv = i.sources.map fun q => (q, s.reg q) := by
    simp [State.latch, h]
  rw [State.operand, hl, lookup_latched s _ _ hr]
  rfl

/-- An accepted command is ready. -/
theorem ready_accept (s : State) {w : CmdWord} {i : Instr} (h : decode w = .ok i) :
    Ready i (s.accept w) :=
  ⟨latched_accept s h, rfl, rfl, rfl⟩

/-! ### Completion and faults (R137, R146) -/

theorem freeResults_fst (n : Nat) (ws : List (Reg × Word)) :
    (freeResults n ws).map Prod.fst = ws.map Prod.fst := by
  induction ws generalizing n with
  | nil => rfl
  | cons w ws ih => simp [freeResults, ih]

/-- Undisturbed or not, a command writes the same registers. -/
theorem State.results_fst (s : State) (ws : List (Reg × Word)) :
    (s.results ws).map Prod.fst = ws.map Prod.fst := by
  rw [State.results]
  split_ifs
  · exact freeResults_fst _ _
  · rfl

theorem State.results_undisturbed {s : State} (h : s.disturbed = false) (ws : List (Reg × Word)) :
    s.results ws = ws := by
  simp [State.results, h]

/-- What completion does. -/
theorem completed_complete (s : State) (ws : List (Reg × Word)) :
    Completed s (s.complete ws) (s.results ws) where
  reg r := State.reg_setRegs s _ r
  status := rfl
  phase := rfl
  cmd := rfl
  ie := rfl
  finfo := rfl
  buf := rfl
  agenda := rfl
  readData := rfl
  params := rfl

/-- What completion does when the host left the buffer alone. -/
theorem completed_undisturbed {s : State} (h : s.disturbed = false) (ws : List (Reg × Word)) :
    Completed s (s.complete ws) ws := by
  have := completed_complete s ws
  rwa [State.results_undisturbed h] at this

/-- What a fault does. -/
theorem faulted_takeFault (s : State) (cause : Cause) (info : Word) :
    Faulted s (s.takeFault cause info) cause info where
  reg _ := rfl
  status := rfl
  phase := rfl
  finfo := rfl
  cmd := rfl
  ie := rfl
  buf := rfl
  agenda := rfl
  readData := rfl
  params := rfl

/-- What a read out of range does (R149). -/
theorem faulted_oobRead (s : State) (off : Nat) :
    Faulted s (s.oobRead off) .oobRead (BitVec.ofNat 64 (off % 2 ^ s.params.ADDR_W.val)) :=
  faulted_takeFault s _ _

/-! ### The words that retirement frees do not matter before it -/

/-- `t` is `s` but for the accumulator and the loop words of the sequencer. -/
def SameOutsideLoop (s t : State) : Prop :=
  t = { s with acc := t.acc, pos := t.pos, endPos := t.endPos, last64 := t.last64, len := t.len,
               stage := t.stage }

theorem SameOutsideLoop.refl (s : State) : SameOutsideLoop s s := rfl

theorem SameOutsideLoop.trans {s t u : State} (h : SameOutsideLoop s t) (h' : SameOutsideLoop t u) :
    SameOutsideLoop s u := by
  rw [SameOutsideLoop] at *
  rw [h] at h'
  exact h'

theorem SameOutsideLoop.complete {s t : State} (h : SameOutsideLoop s t) (ws : List (Reg × Word)) :
    t.complete ws = s.complete ws := by
  rw [h]
  rfl

theorem SameOutsideLoop.takeFault {s t : State} (h : SameOutsideLoop s t) (cause : Cause)
    (info : Word) : t.takeFault cause info = s.takeFault cause info := by
  rw [h]
  rfl

theorem SameOutsideLoop.phase {s t : State} (h : SameOutsideLoop s t) : t.phase = s.phase := by
  rw [h]

theorem SameOutsideLoop.buf {s t : State} (h : SameOutsideLoop s t) : t.buf = s.buf := by
  rw [h]

theorem SameOutsideLoop.params {s t : State} (h : SameOutsideLoop s t) : t.params = s.params := by
  rw [h]

theorem SameOutsideLoop.operand {s t : State} (h : SameOutsideLoop s t) (r : Reg) :
    t.operand r = s.operand r := by
  rw [h]
  rfl

end Sys2Proof.Machine
end

