-- ==== Sys2Proof/Laws/Exec.lean ====
section
/-! SUPPORT. What a command can do, once: its step, and so its run, completes with writes to its own
destinations, takes a fault, or changes the loop words of the sequencer alone. -/

namespace Sys2Proof.Machine

/-- The two ways a command whose destinations are `ds` can end from `s` (R137, R146). -/
inductive CommandEnd (ds : List Reg) (s : State) : State → Prop where
  | completed (ws : List (Reg × Word)) (h : ws.map Prod.fst = ds) : CommandEnd ds s (s.complete ws)
  | faulted (cause : Cause) (info : Word) (h : cause ≠ .none) :
      CommandEnd ds s (s.takeFault cause info)

/-- A command whose destinations are `ds` ends, or goes on with its loop words alone changed. -/
inductive CommandOutcome (ds : List Reg) (s : State) : State → Prop where
  | ended (t : State) (h : CommandEnd ds s t) : CommandOutcome ds s t
  | underWay (t : State) (h : SameOutsideLoop s t) : CommandOutcome ds s t

/-- A command that has ended leaves the core idle. -/
theorem CommandEnd.phase {ds : List Reg} {s t : State} (h : CommandEnd ds s t) :
    t.phase = .idle := by
  cases h <;> rfl

/-- An end from a state that differs in the loop words alone is an end. -/
theorem CommandEnd.of_same {ds : List Reg} {s t u : State} (h : SameOutsideLoop s t)
    (hu : CommandEnd ds t u) : CommandEnd ds s u := by
  cases hu with
  | completed ws hd => rw [h.complete]; exact .completed ws hd
  | faulted cause info hc => rw [h.takeFault]; exact .faulted cause info hc

/-- An outcome from a state that differs in the loop words alone is an outcome. -/
theorem CommandOutcome.of_same {ds : List Reg} {s t u : State} (h : SameOutsideLoop s t)
    (hu : CommandOutcome ds t u) : CommandOutcome ds s u := by
  cases hu with
  | ended he => exact .ended _ (he.of_same h)
  | underWay h' => exact .underWay _ (h.trans h')

/-! ### The shared operations -/

theorem completeRead_end (s : State) {ds : List Reg} {r : Read (List (Reg × Word))}
    (h : ∀ ws, r = .ok ws → ws.map Prod.fst = ds) : CommandEnd ds s (s.completeRead r) := by
  cases r with
  | ok ws => exact .completed ws (h ws rfl)
  | error off => exact .faulted _ _ (by decide)

theorem checkLength_end (s : State) (L : Word) (lo hi : Nat) {ds : List Reg} {go : State → State}
    (h : CommandEnd ds s (go s)) : CommandEnd ds s (s.checkLength L lo hi go) := by
  rw [State.checkLength]
  split_ifs
  · exact .faulted _ _ (by decide)
  · exact h

theorem checkLength_outcome (s : State) (L : Word) (lo hi : Nat) {ds : List Reg}
    {go : State → State} (h : CommandOutcome ds s (go s)) :
    CommandOutcome ds s (s.checkLength L lo hi go) := by
  rw [State.checkLength]
  split_ifs
  · exact .ended _ (.faulted _ _ (by decide))
  · exact h

theorem withAcc_outcome (s : State) (acc : Read Acc) {ds : List Reg} {go : State → State}
    (h : ∀ t, SameOutsideLoop t (go t)) : CommandOutcome ds s (s.withAcc acc go) := by
  cases acc with
  | ok acc => exact .underWay _ (SameOutsideLoop.trans (t := { s with acc }) rfl (h _))
  | error off => exact .ended _ (.faulted _ _ (by decide))

/-- A result in one register. -/
theorem one_write {d : Reg} {r : Read Word} (ws : List (Reg × Word))
    (h : (do return [(d, ← r)] : Read (List (Reg × Word))) = .ok ws) : ws.map Prod.fst = [d] := by
  cases r with
  | ok v => cases h; rfl
  | error off => cases h

/-! ### One sequencer step -/

theorem naStep_outcome (seeds : Option (Word × Word)) (d : Reg) (L : Word) (s : State) :
    CommandOutcome [d] s (naStep seeds d L s) := by
  rw [naStep]
  split
  · exact checkLength_outcome _ _ _ _ (withAcc_outcome _ _ fun _ => rfl)
  · exact withAcc_outcome _ _ fun _ => rfl
  · exact withAcc_outcome _ _ fun _ => rfl
  · exact .ended _ (.completed _ rfl)

theorem uoStep_outcome (s0 s1 : Word) (d : Reg) (L : Word) (s : State) :
    CommandOutcome [d] s (uoStep s0 s1 d L s) := by
  rw [uoStep]
  split
  · exact checkLength_outcome _ _ _ _ (withAcc_outcome _ _ fun _ => rfl)
  · exact withAcc_outcome _ _ fun _ => rfl
  · exact withAcc_outcome _ _ fun _ => rfl
  · exact .ended _ (.completed _ rfl)

/-- A closed form ends at once. -/
theorem loopStep_closed_end (value : Read Word) (d : Reg) (L : Word) (s : State) :
    CommandEnd [d] s (loopStep (.closed value) d L s) := by
  rw [loopStep]
  exact checkLength_end _ _ _ _ (completeRead_end _ one_write)

theorem loopStep_outcome (path : Path) (d : Reg) (L : Word) (s : State) :
    CommandOutcome [d] s (loopStep path d L s) := by
  cases path with
  | closed value => exact .ended _ (loopStep_closed_end _ _ _ _)
  | na seeds => exact naStep_outcome _ _ _ _
  | uo s0 s1 => exact uoStep_outcome _ _ _ _ _

/-- On every path the first step of a loop command is its length check (R136). -/
theorem loopStep_tooLong {s : State} (hstage : s.stage = .start) {L : Word}
    (h : s.buf.len.toNat < L.toNat ∨ s.params.maxLen < L.toNat) (path : Path) (d : Reg) :
    loopStep path d L s = s.takeFault .badLength L := by
  cases path <;> simp only [loopStep, naStep, uoStep, hstage] <;>
    exact State.checkLength_bad _ _ (h.imp_right .inr)

theorem closedForm_end (path : Params → Buffer → Word → Read Word) (lo hi : Nat) (d a : Reg)
    (s : State) : CommandEnd [d] s (closedForm path lo hi d a s) := by
  rw [closedForm]
  exact checkLength_end _ _ _ _ (completeRead_end _ one_write)

/-! ### A run of steps -/

/-- Where every step has one of the three outcomes, so has every run. -/
theorem runSteps_outcome {ds : List Reg} {f : State → State}
    (h : ∀ s, CommandOutcome ds s (f s)) (n : Nat) (s : State) :
    CommandOutcome ds s (runSteps f n s) := by
  induction n generalizing s with
  | zero => exact .underWay _ rfl
  | succ n ih =>
    have hs := h s
    rw [runSteps]
    split
    · exact hs
    · rename_i hrun
      generalize f s = t at *
      cases hs with
      | ended he => exact absurd (he.phase.symm.trans hrun) (by decide)
      | underWay hsame => exact .of_same hsame (ih t)

/-- A run stops at the first idle state. -/
theorem runSteps_of_idle {f : State → State} {s : State} (n : Nat) (h : (f s).phase = .idle) :
    runSteps f (n + 1) s = f s := by
  simp [runSteps, h]

/-- A run goes on from a running state. -/
theorem runSteps_of_run {f : State → State} {s : State} (n : Nat) (h : (f s).phase = .run) :
    runSteps f (n + 1) s = runSteps f n (f s) := by
  simp [runSteps, h]

/-- A run that has ended is not changed by steps allowed beyond its end. -/
theorem runSteps_more {f : State → State} {n : Nat} {s : State} (hrun : s.phase = .run)
    (h : (runSteps f n s).phase = .idle) (m : Nat) : runSteps f (n + m) s = runSteps f n s := by
  induction n generalizing s with
  | zero => exact absurd (hrun.symm.trans h) (by decide)
  | succ n ih =>
    rw [show n + 1 + m = (n + m) + 1 by omega]
    cases hf : (f s).phase with
    | idle => rw [runSteps_of_idle _ hf, runSteps_of_idle _ hf]
    | run =>
      rw [runSteps_of_run _ hf] at h ⊢
      rw [runSteps_of_run _ hf]
      exact ih hf h

/-! ### The commands -/

/-- A command that runs no loop ends at once: its one step is its whole effect. -/
theorem exec_end {i : Instr} (hi : i.loopAbove = none) (s : State) :
    ∃ t, exec i s = .next t ∧ execStep i s = .next t ∧ CommandEnd i.dests s t := by
  cases i with
  | ldk d k =>
    simp only [execStep, exec, execLdk]
    split
    · exact ⟨_, rfl, rfl, .completed _ rfl⟩
    · exact ⟨_, rfl, rfl, .faulted _ _ (by decide)⟩
  | wpmix d a =>
    simp only [execStep, exec, execWpmix]
    split
    · exact ⟨_, rfl, rfl, .completed _ rfl⟩
    · exact ⟨_, rfl, rfl, .faulted _ _ (by decide)⟩
  | wpmixb d a b c =>
    simp only [execStep, exec, execWpmixb]
    split
    · refine ⟨_, rfl, rfl, completeRead_end _ fun ws h => ?_⟩
      cases hw : weakPairMixAt s.buf (s.operand a).toNat (s.operand b) (s.operand c) with
      | ok v => rw [hw] at h; cases h; rfl
      | error off => rw [hw] at h; cases h
    · exact ⟨_, rfl, rfl, .faulted _ _ (by decide)⟩
  | h32 d a b c =>
    simp only [execStep, exec, execH32]
    split
    · exact ⟨_, rfl, rfl, completeRead_end _ one_write⟩
    · exact ⟨_, rfl, rfl, .faulted _ _ (by decide)⟩
  | rdb | rdle32 | rdle64 => exact ⟨_, rfl, rfl, completeRead_end _ one_write⟩
  | hl0_16 | hl17_32 | hl33_64 | hl33_64na | hl65_96 =>
    exact ⟨_, rfl, rfl, closedForm_end _ _ _ _ _ _⟩
  | na64 | na64s | uo64s | hash64 | hash64s => cases hi
  | _ => exact ⟨_, rfl, rfl, .completed _ rfl⟩

/-- Every command runs: it answers a next state, by one of the three outcomes. -/
theorem exec_outcome (i : Instr) (s : State) :
    ∃ t, exec i s = .next t ∧ CommandOutcome i.dests s t := by
  cases h : i.loopAbove with
  | none =>
    obtain ⟨t, ht, -, he⟩ := exec_end h s
    exact ⟨t, ht, .ended t he⟩
  | some p =>
    cases i <;> first
      | (cases h; done)
      | exact ⟨_, rfl, runSteps_outcome (fun s => loopStep_outcome _ _ _ s) _ _⟩

/-- One sequencer step of a command has one of the three outcomes. -/
theorem execStep_outcome (i : Instr) (s : State) :
    ∃ t, execStep i s = .next t ∧ CommandOutcome i.dests s t := by
  cases h : i.loopAbove with
  | none =>
    obtain ⟨t, -, ht, he⟩ := exec_end h s
    exact ⟨t, ht, .ended t he⟩
  | some p =>
    cases i <;> first
      | (cases h; done)
      | exact ⟨_, rfl, loopStep_outcome _ _ _ _⟩

/-- So does a loop command that takes a closed form, or whose length is past the buffer or past
`ADDR_W` bits. -/
theorem exec_end_of_short {i : Instr} {a : Reg} {n : Nat} (hi : i.loopAbove = some (a, n)) {s : State}
    (hstage : s.stage = .start)
    (h : (s.operand a).toNat ≤ n ∨ s.buf.len.toNat < (s.operand a).toNat ∨
      s.params.maxLen < (s.operand a).toNat) :
    ∃ t, exec i s = .next t ∧ execStep i s = .next t ∧ CommandEnd i.dests s t := by
  have key : ∀ (f : State → State) (path : Path) (d : Reg) (k : Nat),
      f s = loopStep path d (s.operand a) s →
      ((s.operand a).toNat ≤ n → ∃ value, path = .closed value) →
      runSteps f (k + 1) s = f s ∧ CommandEnd [d] s (f s) := by
    intro f path d k hf hpath
    have he : CommandEnd [d] s (f s) := by
      rw [hf]
      rcases h with h | h
      · obtain ⟨value, rfl⟩ := hpath h
        exact loopStep_closed_end _ _ _ _
      · rw [loopStep_tooLong hstage h]
        exact .faulted _ _ (by decide)
    exact ⟨runSteps_of_idle _ he.phase, he⟩
  cases i <;> simp only [Instr.loopAbove, Option.some.injEq, Prod.mk.injEq, reduceCtorEq] at hi
  all_goals obtain ⟨rfl, rfl⟩ := hi
  case na64 d _ =>
    obtain ⟨h1, h2⟩ := key (stepNa64 d _) _ d _ rfl fun h => ⟨_, if_pos h⟩
    exact ⟨_, congrArg Host.Outcome.next h1, rfl, h2⟩
  case na64s d _ b c =>
    obtain ⟨h1, h2⟩ := key (stepNa64s d _ b c) _ d _ rfl fun h => ⟨_, if_pos h⟩
    exact ⟨_, congrArg Host.Outcome.next h1, rfl, h2⟩
  case uo64s d _ b c =>
    obtain ⟨h1, h2⟩ := key (stepUo64s d _ b c) _ d _ rfl fun h => ⟨_, if_pos h⟩
    exact ⟨_, congrArg Host.Outcome.next h1, rfl, h2⟩
  case hash64 d _ =>
    obtain ⟨h1, h2⟩ := key (stepHash64 d _) _ d _ rfl fun h => ⟨_, if_pos h⟩
    exact ⟨_, congrArg Host.Outcome.next h1, rfl, h2⟩
  case hash64s d _ b c =>
    obtain ⟨h1, h2⟩ := key (stepHash64s d _ b c) _ d _ rfl fun h => ⟨_, if_pos h⟩
    exact ⟨_, congrArg Host.Outcome.next h1, rfl, h2⟩

end Sys2Proof.Machine
end

