-- ==== Sys2Proof/Laws/Reads.lean ====
section
/-! SUPPORT. The reads of every path: which offsets they lie at for a length of its range, and that
they are all a path's value depends on. -/

namespace Sys2Proof.Machine

/-! ### Reads inside a length (R116, R144) -/

/-- Every read of `B` inside `[0, n)` answers the word `W` gives for it. -/
def ReadsAs (B : Buffer) (n : Nat) (W : Nat → Nat → Word) : Prop :=
  ∀ off k, off + k ≤ n → memRead B off k = .ok (W off k)

/-- `f` reads inside `[0, n)` alone: whatever buffer answers those reads with `W`, its value is one
and the same. -/
def ReadsInside {α : Type} (n : Nat) (W : Nat → Nat → Word) (f : Buffer → Read α) : Prop :=
  ∃ v, ∀ B, ReadsAs B n W → f B = .ok v

/-- The words a buffer answers. -/
def wordsOf (B : Buffer) (off k : Nat) : Word := BitVec.ofNat 64 (leBytes B off k)

/-- A buffer answers every read inside a length it holds. -/
theorem readsAs_wordsOf {B : Buffer} {n : Nat} (h : n ≤ B.len.toNat) : ReadsAs B n (wordsOf B) :=
  fun _ _ hr => memRead_ok (by omega)

/-- So does any other buffer that holds that length and those bytes. -/
theorem readsAs_of_bytes {B B' : Buffer} {n : Nat} (h : n ≤ B'.len.toNat)
    (hbytes : ∀ k, k < n → B.byteAt k = B'.byteAt k) : ReadsAs B' n (wordsOf B) := by
  intro off k hr
  have hcongr : leBytes B off k = leBytes B' off k :=
    leBytes_congr fun j _ hj => hbytes j (by omega)
  rw [memRead_ok (by omega), ← hcongr, wordsOf]

variable {n : Nat} {W : Nat → Nat → Word} {P : Params}

theorem ReadsInside.pure {α : Type} (v : α) : ReadsInside n W fun _ => Pure.pure v :=
  ⟨v, fun _ _ => rfl⟩

theorem ReadsInside.bind {α β : Type} {f : Buffer → Read α} {g : Buffer → α → Read β}
    (hf : ReadsInside n W f) (hg : ∀ v, ReadsInside n W fun B => g B v) :
    ReadsInside n W fun B => f B >>= g B := by
  obtain ⟨v, hv⟩ := hf
  obtain ⟨u, hu⟩ := hg v
  refine ⟨u, fun B hB => ?_⟩
  show f B >>= g B = _
  rw [hv B hB]
  exact hu B hB

theorem ReadsInside.memRead {off k : Nat} (h : off + k ≤ n) :
    ReadsInside n W fun B => memRead B off k :=
  ⟨W off k, fun _ hB => hB off k h⟩

theorem ReadsInside.fetch64 {off : Nat} (h : off + 8 ≤ n) :
    ReadsInside n W fun B => fetch64 B off := .memRead h
theorem ReadsInside.fetch32 {off : Nat} (h : off + 4 ≤ n) :
    ReadsInside n W fun B => fetch32 B off := .memRead h
theorem ReadsInside.byteRead {off : Nat} (h : off + 1 ≤ n) :
    ReadsInside n W fun B => byteRead B off := .memRead h

theorem ReadsInside.weakPairMixAt {off : Nat} (h : off + 32 ≤ n) (a b : Word) :
    ReadsInside n W fun B => weakPairMixAt B off a b :=
  .bind (.fetch64 (by omega)) fun _ => .bind (.fetch64 (by omega)) fun _ =>
  .bind (.fetch64 (by omega)) fun _ => .bind (.fetch64 (by omega)) fun _ => .pure _

theorem ReadsInside.windowHash {off : Nat} (h : off + 32 ≤ n) (mul s0 s1 : Word) :
    ReadsInside n W fun B => windowHash P B off mul s0 s1 :=
  .bind (.fetch64 (by omega)) fun _ => .bind (.fetch64 (by omega)) fun _ =>
  .bind (.fetch64 (by omega)) fun _ => .bind (.fetch64 (by omega)) fun _ => .pure _

theorem ReadsInside.hashLen0to16 (L : Word) : ReadsInside L.toNat W fun B => hashLen0to16 P B L := by
  unfold Machine.hashLen0to16
  split_ifs
  · exact .bind (.fetch64 (by omega)) fun _ => .bind (.fetch64 (by omega)) fun _ => .pure _
  · exact .bind (.fetch32 (by omega)) fun _ => .bind (.fetch32 (by omega)) fun _ => .pure _
  · exact .bind (.byteRead (by omega)) fun _ => .bind (.byteRead (by omega)) fun _ =>
      .bind (.byteRead (by omega)) fun _ => .pure _
  · exact .pure _

theorem ReadsInside.hashLen17to32 {L : Word} (h : 17 ≤ L.toNat) :
    ReadsInside L.toNat W fun B => hashLen17to32 P B L :=
  .bind (.fetch64 (by omega)) fun _ => .bind (.fetch64 (by omega)) fun _ =>
  .bind (.fetch64 (by omega)) fun _ => .bind (.fetch64 (by omega)) fun _ => .pure _

theorem ReadsInside.hashLen33to64 {L : Word} (h : 33 ≤ L.toNat) :
    ReadsInside L.toNat W fun B => hashLen33to64 P B L :=
  .bind (.windowHash (by omega) _ _ _) fun _ => .bind (.windowHash (by omega) _ _ _) fun _ =>
  .pure _

theorem ReadsInside.hashLen33to64na {L : Word} (h : 33 ≤ L.toNat) :
    ReadsInside L.toNat W fun B => hashLen33to64na P B L :=
  .bind (.fetch64 (by omega)) fun _ => .bind (.fetch64 (by omega)) fun _ =>
  .bind (.fetch64 (by omega)) fun _ => .bind (.fetch64 (by omega)) fun _ =>
  .bind (.fetch64 (by omega)) fun _ => .bind (.fetch64 (by omega)) fun _ =>
  .bind (.fetch64 (by omega)) fun _ => .bind (.fetch64 (by omega)) fun _ => .pure _

theorem ReadsInside.hashLen65to96 {L : Word} (h : 65 ≤ L.toNat) :
    ReadsInside L.toNat W fun B => hashLen65to96 P B L :=
  .bind (.windowHash (by omega) _ _ _) fun _ => .bind (.windowHash (by omega) _ _ _) fun _ =>
  .bind (.windowHash (by omega) _ _ _) fun _ => .pure _

theorem ReadsInside.naInit (acc : Acc) (h : 8 ≤ n) : ReadsInside n W fun B => naInit P B acc :=
  .bind (.fetch64 (by omega)) fun _ => .pure _

theorem ReadsInside.naIteration {p : Nat} (h : p + 64 ≤ n) (acc : Acc) :
    ReadsInside n W fun B => naIteration P B p acc :=
  .bind (.fetch64 (by omega)) fun _ => .bind (.fetch64 (by omega)) fun _ =>
  .bind (.fetch64 (by omega)) fun _ => .bind (.weakPairMixAt (by omega) _ _) fun _ =>
  .bind (.fetch64 (by omega)) fun _ => .bind (.weakPairMixAt (by omega) _ _) fun _ => .pure _

theorem ReadsInside.naTail {L : Word} (h : 64 ≤ L.toNat) (acc : Acc) :
    ReadsInside L.toNat W fun B => naTail P B L acc := by
  have hp : tailOffset L + 64 ≤ L.toNat := by rw [tailOffset]; omega
  exact .bind (.fetch64 (by omega)) fun _ => .bind (.fetch64 (by omega)) fun _ =>
    .bind (.fetch64 (by omega)) fun _ => .bind (.weakPairMixAt (by omega) _ _) fun _ =>
    .bind (.fetch64 (by omega)) fun _ => .bind (.weakPairMixAt (by omega) _ _) fun _ => .pure _

theorem ReadsInside.uoIteration {p : Nat} (h : p + 64 ≤ n) (acc : Acc) :
    ReadsInside n W fun B => uoIteration B p acc :=
  .bind (.fetch64 (by omega)) fun _ => .bind (.fetch64 (by omega)) fun _ =>
  .bind (.fetch64 (by omega)) fun _ => .bind (.fetch64 (by omega)) fun _ =>
  .bind (.fetch64 (by omega)) fun _ => .bind (.fetch64 (by omega)) fun _ =>
  .bind (.fetch64 (by omega)) fun _ => .bind (.fetch64 (by omega)) fun _ => .pure _

theorem ReadsInside.uoTail {L : Word} (h : 64 ≤ L.toNat) (acc : Acc) :
    ReadsInside L.toNat W fun B => uoTail B L acc := by
  have hp : tailOffset L + 64 ≤ L.toNat := by rw [tailOffset]; omega
  exact .bind (.fetch64 (by omega)) fun _ => .bind (.fetch64 (by omega)) fun _ =>
    .bind (.fetch64 (by omega)) fun _ => .bind (.weakPairMixAt (by omega) _ _) fun _ =>
    .bind (.fetch64 (by omega)) fun _ => .bind (.weakPairMixAt (by omega) _ _) fun _ => .pure _

theorem ReadsInside.iterateFrom {body : Buffer → Nat → Acc → Read Acc}
    (hbody : ∀ p acc, p + 64 ≤ n → ReadsInside n W fun B => body B p acc) (k p : Nat)
    (acc : Acc) (h : p + k * 64 ≤ n) : ReadsInside n W fun B => iterateFrom (body B) k p acc := by
  induction k generalizing p acc with
  | zero => exact .pure acc
  | succ k ih => exact .bind (hbody p acc (by omega)) fun v => ih (p + 64) v (by omega)

theorem ReadsInside.naClosed {L : Word} (h : L.toNat ≤ 64) :
    ReadsInside L.toNat W fun B => naClosed P B L := by
  unfold Machine.naClosed
  split_ifs
  · exact .hashLen0to16 L
  · exact .hashLen17to32 (by omega)
  · exact .hashLen33to64na (by omega)

theorem ReadsInside.naLoop {L : Word} (h : 64 < L.toNat) (acc : Acc) :
    ReadsInside L.toNat W fun B => naLoop P B L acc :=
  .bind (.naInit acc (by omega)) fun _ =>
    .bind (.iterateFrom (fun _ acc hp => .naIteration hp acc) _ _ _
      (by rw [iterations]; omega)) fun _ =>
    .bind (.naTail (by omega) _) fun _ => .pure _

theorem ReadsInside.uoLoop {L : Word} (h : 64 < L.toNat) (s0 s1 : Word) :
    ReadsInside L.toNat W fun B => uoLoop P B L s0 s1 :=
    .bind (.iterateFrom (fun _ acc hp => .uoIteration hp acc) _ _ _
      (by rw [iterations]; omega)) fun _ =>
    .bind (.uoTail (by omega) _) fun _ => .pure _

theorem ReadsInside.na64 (L : Word) : ReadsInside L.toNat W fun B => na64 P B L := by
  unfold Machine.na64
  split_ifs
  · exact .naClosed (by omega)
  · exact .naLoop (by omega) _

theorem ReadsInside.na64s (L s0 s1 : Word) : ReadsInside L.toNat W fun B => na64s P B L s0 s1 :=
  .bind (.na64 L) fun _ => .pure _

theorem ReadsInside.uo64s (L s0 s1 : Word) : ReadsInside L.toNat W fun B => uo64s P B L s0 s1 := by
  unfold Machine.uo64s
  split_ifs
  · exact .na64s L s0 s1
  · exact .uoLoop (by omega) _ _

theorem ReadsInside.farmClosed {L : Word} (h : L.toNat ≤ 96) :
    ReadsInside L.toNat W fun B => farmClosed P B L := by
  unfold Machine.farmClosed
  split_ifs
  · exact .hashLen0to16 L
  · exact .hashLen17to32 (by omega)
  · exact .hashLen33to64 (by omega)
  · exact .hashLen65to96 (by omega)

theorem ReadsInside.farm64 (L : Word) : ReadsInside L.toNat W fun B => farm64 P B L := by
  unfold Machine.farm64
  split_ifs
  · exact .farmClosed (by omega)
  · exact .na64 L
  · exact .uo64s L _ _

end Sys2Proof.Machine
end

