-- ==== Sys2Proof/Laws/Loop.lean ====
section
/-! SUPPORT. The block loops as runs of sequencer steps: from each stage, how a loop command goes on,
and that it completes. -/

namespace Sys2Proof.Machine

/-- On every state that differs from `s₀` in the loop words alone, `f` is the step of a loop over `L`
bytes with these four parts (R119, R127, R132). -/
structure LoopShape (s₀ : State) (f : State → State) (d : Reg) (L : Word)
    (init : Acc → Read Acc) (body : Nat → Acc → Read Acc) (tail : Word → Acc → Read Acc)
    (fin : Acc → Word) : Prop where
  start : ∀ s, SameOutsideLoop s₀ s → s.stage = .start →
    f s = s.checkLength L 0 s₀.params.maxLen fun s => s.beginLoop L (init s.acc)
  iterate : ∀ s, SameOutsideLoop s₀ s → s.stage = .iterate → f s = s.iterateOnce body
  tail : ∀ s, SameOutsideLoop s₀ s → s.stage = .tail → f s = s.runTail tail
  finish : ∀ s, SameOutsideLoop s₀ s → s.stage = .finish → f s = s.complete [(d, fin s.acc)]

variable {s₀ : State} {f : State → State} {d : Reg} {L : Word} {init : Acc → Read Acc}
  {body : Nat → Acc → Read Acc} {tail : Word → Acc → Read Acc} {fin : Acc → Word} {P : Params}

/-- The finalisation completes the command. -/
theorem LoopShape.run_finish (h : LoopShape s₀ f d L init body tail fin) {s : State}
    (hs : SameOutsideLoop s₀ s) (hstage : s.stage = .finish) (n : Nat) :
    runSteps f (n + 1) s = s₀.complete [(d, fin s.acc)] := by
  have hf := h.finish s hs hstage
  rw [hs.complete] at hf
  rw [runSteps_of_idle _ (by rw [hf]; rfl), hf]

/-- The tail goes on to the finalisation. -/
theorem LoopShape.run_tail (h : LoopShape s₀ f d L init body tail fin) {s : State}
    (hs : SameOutsideLoop s₀ s) (hrun : s₀.phase = .run) (hstage : s.stage = .tail) {acc : Acc}
    (hacc : tail s.len s.acc = .ok acc) (n : Nat) :
    runSteps f (n + 2) s = s₀.complete [(d, fin acc)] := by
  have hf := h.tail s hs hstage
  simp only [State.runTail, State.withAcc, hacc] at hf
  have hsame : SameOutsideLoop s₀ (f s) := by rw [hf]; exact hs.trans rfl
  rw [runSteps_of_run _ (by rw [hsame.phase, hrun]), h.run_finish hsame (by rw [hf])]
  rw [hf]

/-- The remaining `k + 1` iterations, from block offset `p`, go on to the tail. -/
theorem LoopShape.run_iterate (h : LoopShape s₀ f d L init body tail fin) {s : State}
    (hs : SameOutsideLoop s₀ s) (hrun : s₀.phase = .run) (hstage : s.stage = .iterate) {k : Nat}
    (hend : s.endPos.toNat = s.pos.toNat + (k + 1) * 64) {acc acc' : Acc}
    (hacc : iterateFrom body (k + 1) s.pos.toNat s.acc = .ok acc)
    (hacc' : tail s.len acc = .ok acc') (n : Nat) :
    runSteps f (n + k + 3) s = s₀.complete [(d, fin acc')] := by
  induction k generalizing s with
  | zero =>
    have hf := h.iterate s hs hstage
    simp only [iterateFrom] at hacc
    cases hb : body s.pos.toNat s.acc with
    | error off => rw [hb] at hacc; cases hacc
    | ok a =>
      rw [hb] at hacc
      cases hacc
      have hpos : s.pos + 64 = s.endPos := by
        have := Word.toNat_lt s.endPos
        apply BitVec.eq_of_toNat_eq
        rw [Word.toNat_add, hend]
        show (_ + 64) % 2 ^ 64 = _
        omega
      simp only [State.iterateOnce, State.withAcc, hb, hpos, if_true] at hf
      have hsame : SameOutsideLoop s₀ (f s) := by rw [hf]; exact hs.trans rfl
      rw [show n + 0 + 3 = (n + 2) + 1 by omega, runSteps_of_run _ (by rw [hsame.phase, hrun])]
      exact h.run_tail hsame hrun (by rw [hf]) (by rw [hf]; exact hacc') n
  | succ k ih =>
    have hf := h.iterate s hs hstage
    rw [iterateFrom] at hacc
    cases hb : body s.pos.toNat s.acc with
    | error off => rw [hb] at hacc; cases hacc
    | ok a =>
      rw [hb] at hacc
      have hlt := Word.toNat_lt s.endPos
      have hpos : s.pos + 64 ≠ s.endPos := fun e => by
        have hsum : (s.pos.toNat + 64) % 2 ^ 64 = s.endPos.toNat := congrArg BitVec.toNat e
        omega
      have hp : (s.pos + 64).toNat = s.pos.toNat + 64 := by
        rw [Word.toNat_add]
        show (_ + 64) % 2 ^ 64 = _
        omega
      simp only [State.iterateOnce, State.withAcc, hb, if_neg hpos] at hf
      have hsame : SameOutsideLoop s₀ (f s) := by rw [hf]; exact hs.trans rfl
      rw [show n + (k + 1) + 3 = (n + k + 3) + 1 by omega,
        runSteps_of_run _ (by rw [hsame.phase, hrun])]
      refine ih hsame (by rw [hf]) ?_ ?_ (by rw [hf]; exact hacc')
      · rw [hf]; show _ = (s.pos + 64).toNat + _; rw [hp, hend]; omega
      · rw [hf]; show iterateFrom body (k + 1) (s.pos + 64).toNat a = _; rw [hp]; exact hacc

theorem loopEnd_eq (L : Word) : loopEnd L = iterations L * 64 := rfl

theorem loopEnd_lt (L : Word) : loopEnd L < 2 ^ 64 := by
  have := Word.toNat_lt L
  simp only [loopEnd, iterations]; omega

/-- A whole loop, from its first step. -/
theorem LoopShape.run_start (h : LoopShape s₀ f d L init body tail fin) (hrun : s₀.phase = .run)
    (hstage : s₀.stage = .start) (hL : 64 < L.toNat) (hN : L.toNat ≤ s₀.buf.len.toNat)
    (hmax : L.toNat ≤ s₀.params.maxLen) {acc acc' acc'' : Acc} (hinit : init s₀.acc = .ok acc)
    (hacc : iterateFrom body (iterations L) 0 acc = .ok acc') (htail : tail L acc' = .ok acc'')
    (n : Nat) : runSteps f (n + loopSteps L) s₀ = s₀.complete [(d, fin acc'')] := by
  have hf := h.start s₀ (.refl s₀) hstage
  rw [State.checkLength_ok _ _ hN (Nat.zero_le _) hmax] at hf
  simp only [State.beginLoop, State.withAcc, hinit] at hf
  have hsame : SameOutsideLoop s₀ (f s₀) := by rw [hf]; rfl
  obtain ⟨k, hk⟩ : ∃ k, iterations L = k + 1 := ⟨iterations L - 1, by rw [iterations]; omega⟩
  rw [show n + loopSteps L = (n + k + 3) + 1 by rw [loopSteps]; omega,
    runSteps_of_run _ (by rw [hsame.phase, hrun])]
  refine h.run_iterate hsame hrun (by rw [hf]) ?_ (by rw [hf]; exact hk ▸ hacc)
    (by rw [hf]; exact htail) n
  rw [hf]
  show (BitVec.ofNat 64 (loopEnd L)).toNat = (0 : Word).toNat + _
  rw [BitVec.toNat_ofNat, Nat.mod_eq_of_lt (loopEnd_lt L), loopEnd_eq, hk]
  simp

/-! ### The two loops -/

/-- The step of a loop command on the na loop. -/
theorem naShape {s₀ : State} {f : State → State} {seeds : Option (Word × Word)} {d : Reg} {L : Word}
    (h : ∀ s, SameOutsideLoop s₀ s → f s = loopStep (.na seeds) d L s) :
    LoopShape s₀ f d L (naInit s₀.params s₀.buf) (naIteration s₀.params s₀.buf)
      (naTail s₀.params s₀.buf)
      (fun acc => applySeeds s₀.params seeds (naFinish s₀.params acc)) where
  start s hs hstage := by
    simp only [h s hs, loopStep, naStep, hstage, State.checkLength, hs.buf, hs.params]
  iterate s hs hstage := by simp only [h s hs, loopStep, naStep, hstage, hs.buf, hs.params]
  tail s hs hstage := by simp only [h s hs, loopStep, naStep, hstage, hs.buf, hs.params]
  finish s hs hstage := by simp only [h s hs, loopStep, naStep, hstage, hs.params]

/-- The step of a loop command on the uo loop. -/
theorem uoShape {s₀ : State} {f : State → State} {s0 s1 : Word} {d : Reg} {L : Word}
    (h : ∀ s, SameOutsideLoop s₀ s → f s = loopStep (.uo s0 s1) d L s) :
    LoopShape s₀ f d L (fun _ => .ok (uoInit s₀.params s0 s1)) (uoIteration s₀.buf) (uoTail s₀.buf)
      (uoFinish s₀.params) where
  start s hs hstage := by
    simp only [h s hs, loopStep, uoStep, hstage, State.checkLength, hs.params]
  iterate s hs hstage := by simp only [h s hs, loopStep, uoStep, hstage, hs.buf]
  tail s hs hstage := by simp only [h s hs, loopStep, uoStep, hstage, hs.buf]
  finish s hs hstage := by simp only [h s hs, loopStep, uoStep, hstage, hs.params]

/-! ### The na loop does not read `u` or an earlier `mul` (R32, R119) -/

/-- An accumulator with other values in the two words the na loop leaves unused or writes last. -/
def Acc.withSpare (acc : Acc) (u mul : Word) : Acc := { acc with u, mul }

theorem naIteration_withSpare (B : Buffer) (p : Nat) (acc : Acc) (u mul : Word) :
    naIteration P B p (acc.withSpare u mul) = (naIteration P B p acc).map (·.withSpare u mul) := by
  simp only [naIteration, Acc.withSpare, bind, Except.bind, pure, Except.pure, Except.map]
  repeat' split
  all_goals simp_all

theorem naIterate_withSpare (B : Buffer) (k p : Nat) (acc : Acc) (u mul : Word) :
    iterateFrom (naIteration P B) k p (acc.withSpare u mul) =
      (iterateFrom (naIteration P B) k p acc).map (·.withSpare u mul) := by
  induction k generalizing p acc with
  | zero => rfl
  | succ k ih =>
    rw [iterateFrom, iterateFrom, naIteration_withSpare]
    cases naIteration P B p acc with
    | error off => rfl
    | ok acc' => exact ih (p + 64) acc'

theorem naTail_withSpare (B : Buffer) (L : Word) (acc : Acc) (u mul : Word) :
    naTail P B L (acc.withSpare u mul) = (naTail P B L acc).map fun a => a.withSpare u a.mul := by
  simp only [naTail, Acc.withSpare, bind, Except.bind, pure, Except.pure, Except.map]
  repeat' split
  all_goals simp_all

/-- The na loop's value is the same from any accumulator. -/
theorem naLoop_acc (B : Buffer) (L : Word) (acc acc' : Acc) :
    naLoop P B L acc = naLoop P B L acc' := by
  have hinit : naInit P B acc = (naInit P B acc').map (·.withSpare acc.u acc.mul) := by
    simp only [naInit, bind, Except.bind]
    cases fetch64 B 0 <;> rfl
  rw [naLoop, naLoop, hinit]
  cases naInit P B acc' with
  | error off => rfl
  | ok a =>
    show (iterateFrom (naIteration P B) (iterations L) 0 (a.withSpare _ _) >>= _) =
      iterateFrom (naIteration P B) (iterations L) 0 a >>= _
    rw [naIterate_withSpare]
    cases iterateFrom (naIteration P B) (iterations L) 0 a with
    | error off => rfl
    | ok b =>
      show (naTail P B L (b.withSpare _ _) >>= _) = naTail P B L b >>= _
      rw [naTail_withSpare]
      cases naTail P B L b <;> rfl

/-! ### The loop commands -/

/-- The reads of a loop's parts are all in range, whatever the accumulator. -/
structure LoopReads (s₀ : State) (L : Word) (init : Acc → Read Acc) (body : Nat → Acc → Read Acc)
    (tail : Word → Acc → Read Acc) : Prop where
  init : ∀ acc, ∃ acc', init acc = .ok acc'
  body : ∀ p acc, p + 64 ≤ s₀.buf.len.toNat → ∃ acc', body p acc = .ok acc'
  tail : ∀ acc, ∃ acc', tail L acc = .ok acc'

/-- What reads inside a length the buffer holds answers a value. -/
theorem ReadsInside.ok {α : Type} {n : Nat} {B : Buffer} {g : Buffer → Read α}
    (h : ReadsInside n (wordsOf B) g) (hn : n ≤ B.len.toNat) : ∃ v, g B = .ok v := by
  obtain ⟨v, hv⟩ := h
  exact ⟨v, hv B (readsAs_wordsOf hn)⟩

theorem naReads {s₀ : State} {L : Word} (hL : 64 < L.toNat) (hN : L.toNat ≤ s₀.buf.len.toNat) :
    LoopReads s₀ L (naInit s₀.params s₀.buf) (naIteration s₀.params s₀.buf)
      (naTail s₀.params s₀.buf) where
  init acc := (ReadsInside.naInit acc (by omega)).ok hN
  body _ acc hp := (ReadsInside.naIteration hp acc).ok (Nat.le_refl _)
  tail acc := (ReadsInside.naTail (by omega) acc).ok hN

theorem uoReads {s₀ : State} {L s0 s1 : Word} (hL : 64 < L.toNat)
    (hN : L.toNat ≤ s₀.buf.len.toNat) :
    LoopReads s₀ L (fun _ => .ok (uoInit s₀.params s0 s1)) (uoIteration s₀.buf) (uoTail s₀.buf) where
  init _ := ⟨_, rfl⟩
  body _ acc hp := (ReadsInside.uoIteration hp acc).ok (Nat.le_refl _)
  tail acc := (ReadsInside.uoTail (by omega) acc).ok hN

/-- A loop command above its loop length is a loop: one step of it is a step of `f`, its run is a run
of `f`, and `f` has the shape of a loop whose reads are all in range. -/
structure LoopCommand (i : Instr) (s₀ : State) (f : State → State) (d : Reg) (L : Word)
    (init : Acc → Read Acc) (body : Nat → Acc → Read Acc) (tail : Word → Acc → Read Acc)
    (fin : Acc → Word) : Prop where
  step : ∀ s, execStep i s = .next (f s)
  run : ∀ s, SameOutsideLoop s₀ s → exec i s = .next (runSteps f (loopSteps L) s)
  dests : i.dests = [d]
  shape : LoopShape s₀ f d L init body tail fin
  reads : LoopReads s₀ L init body tail

theorem loopCommand_of_loopAbove {i : Instr} {a : Reg} {n : Nat} (hi : i.loopAbove = some (a, n))
    {s₀ : State} (hL : n < (s₀.operand a).toNat)
    (hN : (s₀.operand a).toNat ≤ s₀.buf.len.toNat) :
    ∃ f d init body tail fin, LoopCommand i s₀ f d (s₀.operand a) init body tail fin := by
  cases i <;> simp only [Instr.loopAbove, Option.some.injEq, Prod.mk.injEq, reduceCtorEq] at hi
  all_goals obtain ⟨rfl, rfl⟩ := hi
  case na64 d _ =>
    exact ⟨stepNa64 d _, d, _, _, _, _, fun _ => rfl, fun s hs => by rw [← hs.operand]; rfl, rfl,
      naShape (seeds := none) fun s hs => by
        simp only [stepNa64, pathNa64, hs.operand, hs.params, if_neg (Nat.not_le.2 hL)],
      naReads (by omega) hN⟩
  case na64s d _ b c =>
    exact ⟨stepNa64s d _ b c, d, _, _, _, _, fun _ => rfl, fun s hs => by rw [← hs.operand]; rfl,
      rfl,
      naShape (seeds := some (s₀.operand b, s₀.operand c)) fun s hs => by
        simp only [stepNa64s, pathNa64s, hs.operand, hs.params, if_neg (Nat.not_le.2 hL)],
      naReads (by omega) hN⟩
  case uo64s d _ b c =>
    exact ⟨stepUo64s d _ b c, d, _, _, _, _, fun _ => rfl, fun s hs => by rw [← hs.operand]; rfl,
      rfl,
      uoShape (s0 := s₀.operand b) (s1 := s₀.operand c) fun s hs => by
        simp only [stepUo64s, pathUo64s, hs.operand, hs.params, if_neg (Nat.not_le.2 hL)],
      uoReads (by omega) hN⟩
  case hash64 d _ =>
    by_cases h256 : (s₀.operand ‹Reg›).toNat ≤ 256
    · exact ⟨stepHash64 d _, d, _, _, _, _, fun _ => rfl, fun s hs => by rw [← hs.operand]; rfl,
        rfl,
        naShape (seeds := none) fun s hs => by
          simp only [stepHash64, pathHash64, hs.operand, hs.params, if_neg (Nat.not_le.2 hL),
            if_pos h256],
        naReads (by omega) hN⟩
    · exact ⟨stepHash64 d _, d, _, _, _, _, fun _ => rfl, fun s hs => by rw [← hs.operand]; rfl,
        rfl,
        uoShape (s0 := s₀.params.SEED_NA) (s1 := 0) fun s hs => by
          simp only [stepHash64, pathHash64, hs.operand, hs.params, if_neg (Nat.not_le.2 hL),
            if_neg h256],
        uoReads (by omega) hN⟩
  case hash64s d _ b c =>
    exact ⟨stepHash64s d _ b c, d, _, _, _, _, fun _ => rfl, fun s hs => by rw [← hs.operand]; rfl,
      rfl,
      uoShape (s0 := s₀.operand b) (s1 := s₀.operand c) fun s hs => by
        simp only [stepHash64s, pathUo64s, hs.operand, hs.params, if_neg (Nat.not_le.2 hL)],
      uoReads (by omega) hN⟩

/-! ### A loop command completes -/

theorem iterateFrom_ok {N : Nat} (hbody : ∀ p acc, p + 64 ≤ N → ∃ acc', body p acc = .ok acc')
    (k p : Nat) (acc : Acc) (h : p + k * 64 ≤ N) : ∃ acc', iterateFrom body k p acc = .ok acc' := by
  induction k generalizing p acc with
  | zero => exact ⟨acc, rfl⟩
  | succ k ih =>
    obtain ⟨a, ha⟩ := hbody p acc (by omega)
    obtain ⟨a', ha'⟩ := ih (p + 64) a (by omega)
    exact ⟨a', by rw [iterateFrom, ha]; exact ha'⟩

/-- From wherever it stands, a loop command runs to its completion. -/
theorem LoopCommand.completes {i : Instr} (h : LoopCommand i s₀ f d L init body tail fin)
    (hrun : s₀.phase = .run) (hL : 64 < L.toNat) (hN : L.toNat ≤ s₀.buf.len.toNat)
    (hmax : s₀.stage = .start → L.toNat ≤ s₀.params.maxLen)
    (hat : s₀.stage ≠ .start → LoopAt s₀ L) :
    ∃ v, runSteps f (loopSteps L) s₀ = s₀.complete [(d, v)] := by
  have hend : loopEnd L < L.toNat := by rw [loopEnd, iterations]; omega
  cases hstage : s₀.stage with
  | start =>
    obtain ⟨a, ha⟩ := h.reads.init s₀.acc
    obtain ⟨b, hb⟩ := iterateFrom_ok h.reads.body (iterations L) 0 a
      (by rw [iterations]; omega)
    obtain ⟨c, hc⟩ := h.reads.tail b
    have := h.shape.run_start hrun hstage hL hN (hmax hstage) ha hb hc 0
    rw [Nat.zero_add] at this
    exact ⟨_, this⟩
  | iterate =>
    obtain ⟨hlen, hendPos, -, hpos⟩ := hat (by rw [hstage]; decide)
    rw [hstage] at hpos
    obtain ⟨hmod, hlt⟩ := hpos
    obtain ⟨k, hk⟩ : ∃ k, s₀.endPos.toNat = s₀.pos.toNat + (k + 1) * 64 := by
      refine ⟨(s₀.endPos.toNat - s₀.pos.toNat) / 64 - 1, ?_⟩
      have : s₀.endPos.toNat % 64 = 0 := by rw [hendPos, loopEnd]; omega
      omega
    obtain ⟨b, hb⟩ := iterateFrom_ok h.reads.body (k + 1) s₀.pos.toNat s₀.acc (by omega)
    obtain ⟨c, hc⟩ := h.reads.tail b
    have hsteps : loopSteps L = (loopSteps L - (k + 3)) + k + 3 := by
      rw [loopSteps]
      rw [loopEnd] at hendPos
      omega
    rw [hsteps]
    exact ⟨_, h.shape.run_iterate (.refl s₀) hrun hstage hk hb (hlen ▸ hc) _⟩
  | tail =>
    have hlen : s₀.len = L := (hat (by rw [hstage]; decide)).1
    obtain ⟨c, hc⟩ := h.reads.tail s₀.acc
    exact ⟨_, h.shape.run_tail (.refl s₀) hrun hstage (hlen ▸ hc) (iterations L + 1)⟩
  | finish => exact ⟨_, h.shape.run_finish (.refl s₀) hstage (iterations L + 2)⟩

/-- How many sequencer steps are left of a loop over `L` bytes (R132). -/
def stepsLeft (L : Word) (s : State) : Nat :=
  match s.stage with
  | .start => loopSteps L
  | .iterate => (s.endPos.toNat - s.pos.toNat) / 64 + 2
  | .tail => 2
  | .finish => 1

/-- One step of a loop command completes it or leaves it at a step of the same loop, with one step
less to go. -/
theorem LoopCommand.step_at {i : Instr} (h : LoopCommand i s₀ f d L init body tail fin)
    (hL : 64 < L.toNat) (hN : L.toNat ≤ s₀.buf.len.toNat)
    (hmax : s₀.stage = .start → L.toNat ≤ s₀.params.maxLen)
    (hat : s₀.stage ≠ .start → LoopAt s₀ L) :
    (s₀.stage = .finish ∧ ∃ v, f s₀ = s₀.complete [(d, v)]) ∨
      (s₀.stage ≠ .finish ∧ SameOutsideLoop s₀ (f s₀) ∧ (f s₀).stage ≠ .start ∧
        LoopAt (f s₀) L ∧ stepsLeft L s₀ = stepsLeft L (f s₀) + 1) := by
  have hlt64 := Word.toNat_lt L
  have hend : loopEnd L < L.toNat := by rw [loopEnd, iterations]; omega
  cases hstage : s₀.stage with
  | start =>
    obtain ⟨a, ha⟩ := h.reads.init s₀.acc
    have hf := h.shape.start s₀ (.refl s₀) hstage
    rw [State.checkLength_ok _ _ hN (Nat.zero_le _) (hmax hstage)] at hf
    simp only [State.beginLoop, State.withAcc, ha] at hf
    have hendPos : (BitVec.ofNat 64 (loopEnd L)).toNat = loopEnd L := by
      rw [BitVec.toNat_ofNat, Nat.mod_eq_of_lt (loopEnd_lt L)]
    have hlast : (BitVec.ofNat 64 (tailOffset L)).toNat = tailOffset L := by
      rw [BitVec.toNat_ofNat, Nat.mod_eq_of_lt (by rw [tailOffset]; omega)]
    refine .inr ⟨by decide, by rw [hf]; rfl, by rw [hf]; simp, ?_⟩
    rw [hf]
    have hpos : 0 < (BitVec.ofNat 64 (loopEnd L)).toNat := by
      rw [hendPos, loopEnd, iterations]
      omega
    refine ⟨⟨rfl, hendPos, hlast, rfl, hpos⟩, ?_⟩
    simp only [stepsLeft, hstage]
    rw [hendPos, loopSteps, loopEnd]
    show _ = (iterations L * 64 - 0) / 64 + 2 + 1
    omega
  | iterate =>
    obtain ⟨hlen, hendPos, hlast, hpos⟩ := hat (by rw [hstage]; decide)
    rw [hstage] at hpos
    obtain ⟨hmod, hlt⟩ := hpos
    have hendmod : s₀.endPos.toNat % 64 = 0 := by rw [hendPos, loopEnd]; omega
    obtain ⟨a, ha⟩ := h.reads.body s₀.pos.toNat s₀.acc (by omega)
    have hf := h.shape.iterate s₀ (.refl s₀) hstage
    simp only [State.iterateOnce, State.withAcc, ha] at hf
    have hp : (s₀.pos + 64).toNat = s₀.pos.toNat + 64 := by
      rw [BitVec.toNat_add]
      have := Word.toNat_lt s₀.endPos
      show (s₀.pos.toNat + 64) % 2 ^ 64 = _
      omega
    by_cases hpos : s₀.pos + 64 = s₀.endPos
    · rw [if_pos hpos] at hf
      refine .inr ⟨by decide, by rw [hf]; rfl, by rw [hf]; simp, ?_⟩
      rw [hf]
      refine ⟨⟨hlen, hendPos, hlast, hpos⟩, ?_⟩
      simp only [stepsLeft, hstage]
      rw [← hpos, hp]
      omega
    · rw [if_neg hpos] at hf
      have hne : (s₀.pos + 64).toNat ≠ s₀.endPos.toNat := fun e =>
        hpos (BitVec.eq_of_toNat_eq e)
      refine .inr ⟨by decide, by rw [hf]; rfl, by rw [hf]; simp, ?_⟩
      rw [hf]
      refine ⟨⟨hlen, hendPos, hlast, ?_, ?_⟩, ?_⟩
      · show (s₀.pos + 64).toNat % 64 = 0
        omega
      · show (s₀.pos + 64).toNat < s₀.endPos.toNat
        omega
      · simp only [stepsLeft, hstage]
        rw [hp]
        omega
  | tail =>
    obtain ⟨hlen, hendPos, hlast, -⟩ := hat (by rw [hstage]; decide)
    obtain ⟨a, ha⟩ := h.reads.tail s₀.acc
    have hf := h.shape.tail s₀ (.refl s₀) hstage
    rw [← hlen] at ha
    simp only [State.runTail, State.withAcc, ha] at hf
    refine .inr ⟨by decide, by rw [hf]; rfl, by rw [hf]; simp, ?_⟩
    rw [hf]
    refine ⟨⟨hlen, hendPos, hlast, rfl⟩, ?_⟩
    simp only [stepsLeft, hstage]
  | finish => exact .inl ⟨rfl, _, h.shape.finish s₀ (.refl s₀) hstage⟩

end Sys2Proof.Machine
end

