-- ==== Sys2Proof/Laws/Memory.lean ====
section
/-! SUPPORT. The buffer's cells: every operation keeps the canonical form, a byte reads back as it was
put, and every other byte is left alone. -/

namespace Sys2Proof.Machine

/-! ### The canonical form -/

/-- Every cell after a write is an old cell or the new one. -/
theorem Memory.mem_write (m : Memory) (off : Nat) (b : Byte) (c : Host.Cell)
    (h : c ∈ Memory.write m off b) : c ∈ m ∨ c = (off, b) := by
  induction m with
  | nil =>
    simp only [Memory.write] at h
    split at h <;> simp_all
  | cons cell m ih =>
    obtain ⟨k, v⟩ := cell
    simp only [Memory.write] at h
    split_ifs at h
    · exact .inl h
    · rcases List.mem_cons.1 h with rfl | h
      · exact .inr rfl
      · exact .inl h
    · exact .inl (List.mem_cons_of_mem _ h)
    · rcases List.mem_cons.1 h with rfl | h
      · exact .inr rfl
      · exact .inl (List.mem_cons_of_mem _ h)
    · rcases List.mem_cons.1 h with rfl | h
      · exact .inl List.mem_cons_self
      · exact (ih h).imp_left (List.mem_cons_of_mem _)

theorem Memory.wf_nil : Memory.wf [] := by simp [Memory.wf]

theorem Memory.wf_tail {cell : Host.Cell} {m : Memory} (h : Memory.wf (cell :: m)) : Memory.wf m :=
  ⟨(List.pairwise_cons.1 h.1).2, fun c hc => h.2 c (List.mem_cons_of_mem _ hc)⟩

theorem Memory.wf_cons {cell : Host.Cell} {m : Memory} (hlow : ∀ c ∈ m, cell.1 < c.1)
    (hval : cell.2 ≠ Memory.unlisted) (h : Memory.wf m) : Memory.wf (cell :: m) := by
  refine ⟨List.pairwise_cons.2 ⟨hlow, h.1⟩, fun c hc => ?_⟩
  rcases List.mem_cons.1 hc with rfl | hc
  · exact hval
  · exact h.2 c hc

/-- A write keeps the canonical form. -/
theorem Memory.wf_write {m : Memory} (h : Memory.wf m) (off : Nat) (b : Byte) :
    Memory.wf (Memory.write m off b) := by
  induction m with
  | nil =>
    simp only [Memory.write]
    split_ifs with hb
    · exact Memory.wf_nil
    · exact Memory.wf_cons (by simp) hb Memory.wf_nil
  | cons cell m ih =>
    obtain ⟨k, v⟩ := cell
    have hlow : ∀ c ∈ m, k < c.1 := (List.pairwise_cons.1 h.1).1
    simp only [Memory.write]
    split_ifs with h1 h2 h3 h4
    · exact h
    · refine Memory.wf_cons (fun c hc => ?_) h2 h
      rcases List.mem_cons.1 hc with rfl | hc
      · exact h1
      · exact h1.trans (hlow c hc)
    · exact Memory.wf_tail h
    · exact Memory.wf_cons (fun c hc => h3 ▸ hlow c hc) h4 (Memory.wf_tail h)
    · refine Memory.wf_cons (fun c hc => ?_) (h.2 _ List.mem_cons_self) (ih (Memory.wf_tail h))
      rcases Memory.mem_write m off b c hc with hc | rfl
      · exact hlow c hc
      · show k < off
        omega

/-- Every cell of an attached byte sequence lies at one of its offsets. -/
theorem Memory.mem_ofBytes (bytes : List Byte) (off : Nat) (c : Host.Cell)
    (h : c ∈ Memory.ofBytes off bytes) : off ≤ c.1 ∧ c.1 < off + bytes.length := by
  induction bytes generalizing off with
  | nil => simp [Memory.ofBytes] at h
  | cons b bs ih =>
    simp only [Memory.ofBytes] at h
    simp only [List.length_cons]
    split_ifs at h
    · have := ih _ h
      omega
    · rcases List.mem_cons.1 h with rfl | h
      · exact ⟨Nat.le_refl _, by show off < _; omega⟩
      · have := ih _ h
        omega

/-- An attached byte sequence is in canonical form. -/
theorem Memory.wf_ofBytes (bytes : List Byte) (off : Nat) : Memory.wf (Memory.ofBytes off bytes) := by
  induction bytes generalizing off with
  | nil => exact Memory.wf_nil
  | cons b bs ih =>
    simp only [Memory.ofBytes]
    split_ifs with hb
    · exact ih _
    · refine Memory.wf_cons (fun c hc => ?_) hb (ih _)
      exact Nat.lt_of_succ_le (Memory.mem_ofBytes bs _ c hc).1

/-! ### Reading back -/

/-- Below every listed offset a memory reads as unlisted. -/
theorem Memory.byte_below (m : Memory) (off : Nat) (h : ∀ c ∈ m, off < c.1) :
    Memory.byte m off = Memory.unlisted := by
  induction m with
  | nil => rfl
  | cons cell m ih =>
    obtain ⟨k, v⟩ := cell
    have hk : off < k := h (k, v) List.mem_cons_self
    rw [Memory.byte, if_neg (by omega), ih fun c hc => h c (List.mem_cons_of_mem _ hc)]

/-- A byte reads back as it was put, and every other byte is left alone. -/
theorem Memory.byte_write {m : Memory} (h : Memory.wf m) (off : Nat) (b : Byte) (k : Nat) :
    Memory.byte (Memory.write m off b) k = if k = off then b else Memory.byte m k := by
  induction m with
  | nil =>
    simp only [Memory.write]
    split_ifs with hb hk hk
    · rw [hb]; rfl
    · rfl
    · simp [Memory.byte, hk]
    · simp [Memory.byte, Ne.symm hk]
  | cons cell m ih =>
    obtain ⟨j, v⟩ := cell
    have hlow : ∀ c ∈ m, j < c.1 := (List.pairwise_cons.1 h.1).1
    have hbelow : ∀ i, i ≤ j → Memory.byte m i = Memory.unlisted := fun i hi =>
      Memory.byte_below m i fun c hc => Nat.lt_of_le_of_lt hi (hlow c hc)
    simp only [Memory.write]
    split_ifs with h1 h2 hk hk h3 h4 hk hk
    · subst hk
      rw [h2, Memory.byte, if_neg (by omega), hbelow _ (by omega)]
    · rfl
    · subst hk
      simp [Memory.byte]
    · rw [Memory.byte, if_neg (Ne.symm hk)]
    · subst hk
      rw [h4, hbelow _ (by omega)]
    · rw [Memory.byte, if_neg (by omega)]
    · rw [Memory.byte, if_pos hk.symm]
    · rw [Memory.byte, if_neg (by omega), Memory.byte, if_neg (by omega)]
    · rename_i hk
      rw [Memory.byte, ih (Memory.wf_tail h)]
      subst hk
      simp only [if_true]
      rw [if_neg (by omega)]
    · rename_i hk
      rw [Memory.byte, Memory.byte, ih (Memory.wf_tail h), if_neg hk]

/-- The byte at offset `off + k` of an attached sequence is its byte `k`. -/
theorem Memory.byte_ofBytes (bytes : List Byte) (off k : Nat) :
    Memory.byte (Memory.ofBytes off bytes) (off + k) = bytes.getD k Memory.unlisted := by
  induction bytes generalizing off k with
  | nil => simp [Memory.ofBytes, Memory.byte]
  | cons b bs ih =>
    simp only [Memory.ofBytes]
    cases k with
    | zero =>
      split_ifs with hb
      · rw [Memory.byte_below]
        · simp [hb]
        · intro c hc
          have := (Memory.mem_ofBytes bs _ c hc).1
          omega
      · simp [Memory.byte]
    | succ k =>
      have hoff : off + (k + 1) = off + 1 + k := by omega
      split_ifs with hb
      · rw [hoff, ih]; simp
      · rw [Memory.byte, if_neg (by omega), hoff, ih]; simp

/-! ### The buffer -/

theorem Buffer.wf_ofBytes (bytes : List Byte) (h : bytes.length < 2 ^ 64) :
    Buffer.wf (Buffer.ofBytes bytes) := by
  refine ⟨Memory.wf_ofBytes bytes 0, fun c hc => ?_⟩
  have := (Memory.mem_ofBytes bytes 0 c hc).2
  show c.1 < (BitVec.ofNat 64 bytes.length).toNat
  rw [BitVec.toNat_ofNat, Nat.mod_eq_of_lt h]
  omega

theorem Buffer.wf_change {B : Buffer} (h : Buffer.wf B) (off : Nat) (b : Byte) :
    Buffer.wf (B.change off b) := by
  simp only [Buffer.change]
  split_ifs with hoff
  · refine ⟨Memory.wf_write h.1 off b, fun c hc => ?_⟩
    rcases Memory.mem_write _ _ _ _ hc with hc | rfl
    · exact h.2 c hc
    · exact hoff
  · exact h

@[simp] theorem Buffer.change_len (B : Buffer) (off : Nat) (b : Byte) :
    (B.change off b).len = B.len := by
  simp only [Buffer.change]
  split_ifs <;> rfl

theorem Buffer.byteAt_change {B : Buffer} (h : Buffer.wf B) (off : Nat) (b : Byte) (k : Nat) :
    (B.change off b).byteAt k = if k = off ∧ off < B.len.toNat then b else B.byteAt k := by
  simp only [Buffer.change]
  split_ifs with h1 h2 h2
  · simpa [Buffer.byteAt, h2.1] using Memory.byte_write h.1 off b k
  · have : k ≠ off := fun e => h2 ⟨e, h1⟩
    simpa [Buffer.byteAt, this] using Memory.byte_write h.1 off b k
  · exact absurd h2.2 h1
  · rfl

theorem Buffer.byteAt_ofBytes (bytes : List Byte) (k : Nat) :
    (Buffer.ofBytes bytes).byteAt k = bytes.getD k Memory.unlisted := by
  simpa [Buffer.byteAt, Buffer.ofBytes] using Memory.byte_ofBytes bytes 0 k

end Sys2Proof.Machine
end

