-- ==== Sys2Proof/Laws/PerInstr.lean ====
section
/-! SUPPORT. What holds of every command, one lemma per constructor. `EncodedRow`: the word the encoder
makes has a defined opcode, `RSV = 0`, zero in every field the form does not use, and the fields from
which the opcode map makes the command again (`30_encoding.md` R53, R55, R58). -/

/-- The encoder's word for `i` is a row of the opcode map that makes `i`. -/
def Sys2Proof.Laws.EncodedRow.Statement (i : Sys2Proof.Instr) : Prop :=
  ∃ form build, Sys2Proof.opcodeRow (Sys2Proof.opcodeOf (Sys2Proof.encode i)) = some (form, build) ∧
    (Sys2Proof.fieldsOf (Sys2Proof.encode i)).rsv = 0 ∧
    Sys2Proof.unusedZero form (Sys2Proof.fieldsOf (Sys2Proof.encode i)) = true ∧
    build (Sys2Proof.fieldsOf (Sys2Proof.encode i)) = i

namespace Sys2Proof

/-- A row of the opcode map and the word made from its opcode. -/
theorem Laws.encodedRow_of {i : Instr} {opc : Nat} {d a b c : Reg} {imm : Imm6} {form : Form}
    {build : Fields → Instr} (hopc : opc < 256) (henc : encode i = commandWord opc d a b c imm)
    (hrow : opcodeRow opc = some (form, build))
    (hunused : unusedZero form ⟨d, a, b, c, 0, imm⟩ = true) (hbuild : build ⟨d, a, b, c, 0, imm⟩ = i) :
    Laws.EncodedRow.Statement i := by
  rw [Laws.EncodedRow.Statement, henc, opcodeOf_commandWord hopc, fieldsOf_commandWord hopc]
  exact ⟨form, build, hrow, rfl, hunused, hbuild⟩

end Sys2Proof

open Sys2Proof

theorem Sys2Proof.Laws.EncodedRow.add (d a b : Reg) :
    Sys2Proof.Laws.EncodedRow.Statement (.add d a b) :=
  Laws.encodedRow_of (by decide) rfl rfl rfl rfl

theorem Sys2Proof.Laws.EncodedRow.sub (d a b : Reg) :
    Sys2Proof.Laws.EncodedRow.Statement (.sub d a b) :=
  Laws.encodedRow_of (by decide) rfl rfl rfl rfl

theorem Sys2Proof.Laws.EncodedRow.mul (d a b : Reg) :
    Sys2Proof.Laws.EncodedRow.Statement (.mul d a b) :=
  Laws.encodedRow_of (by decide) rfl rfl rfl rfl

theorem Sys2Proof.Laws.EncodedRow.xor (d a b : Reg) :
    Sys2Proof.Laws.EncodedRow.Statement (.xor d a b) :=
  Laws.encodedRow_of (by decide) rfl rfl rfl rfl

theorem Sys2Proof.Laws.EncodedRow.and (d a b : Reg) :
    Sys2Proof.Laws.EncodedRow.Statement (.and d a b) :=
  Laws.encodedRow_of (by decide) rfl rfl rfl rfl

theorem Sys2Proof.Laws.EncodedRow.shri (d a : Reg) (n : Imm6) :
    Sys2Proof.Laws.EncodedRow.Statement (.shri d a n) :=
  Laws.encodedRow_of (by decide) rfl rfl rfl rfl

theorem Sys2Proof.Laws.EncodedRow.shli (d a : Reg) (n : Imm6) :
    Sys2Proof.Laws.EncodedRow.Statement (.shli d a n) :=
  Laws.encodedRow_of (by decide) rfl rfl rfl rfl

theorem Sys2Proof.Laws.EncodedRow.rotri (d a : Reg) (r : Imm6) :
    Sys2Proof.Laws.EncodedRow.Statement (.rotri d a r) :=
  Laws.encodedRow_of (by decide) rfl rfl rfl rfl

theorem Sys2Proof.Laws.EncodedRow.rotli (d a : Reg) (r : Imm6) :
    Sys2Proof.Laws.EncodedRow.Statement (.rotli d a r) :=
  Laws.encodedRow_of (by decide) rfl rfl rfl rfl

theorem Sys2Proof.Laws.EncodedRow.rotr (d a b : Reg) :
    Sys2Proof.Laws.EncodedRow.Statement (.rotr d a b) :=
  Laws.encodedRow_of (by decide) rfl rfl rfl rfl

theorem Sys2Proof.Laws.EncodedRow.rotl (d a b : Reg) :
    Sys2Proof.Laws.EncodedRow.Statement (.rotl d a b) :=
  Laws.encodedRow_of (by decide) rfl rfl rfl rfl

theorem Sys2Proof.Laws.EncodedRow.swap (a b : Reg) :
    Sys2Proof.Laws.EncodedRow.Statement (.swap a b) :=
  Laws.encodedRow_of (by decide) rfl rfl rfl rfl

theorem Sys2Proof.Laws.EncodedRow.ldi (d : Reg) (n : Imm6) :
    Sys2Proof.Laws.EncodedRow.Statement (.ldi d n) :=
  Laws.encodedRow_of (by decide) rfl rfl rfl rfl

theorem Sys2Proof.Laws.EncodedRow.ldk (d : Reg) (k : Imm6) :
    Sys2Proof.Laws.EncodedRow.Statement (.ldk d k) :=
  Laws.encodedRow_of (by decide) rfl rfl rfl rfl

theorem Sys2Proof.Laws.EncodedRow.mov (d a : Reg) :
    Sys2Proof.Laws.EncodedRow.Statement (.mov d a) :=
  Laws.encodedRow_of (by decide) rfl rfl rfl rfl

theorem Sys2Proof.Laws.EncodedRow.rdb (d a : Reg) :
    Sys2Proof.Laws.EncodedRow.Statement (.rdb d a) :=
  Laws.encodedRow_of (by decide) rfl rfl rfl rfl

theorem Sys2Proof.Laws.EncodedRow.rdle32 (d a : Reg) :
    Sys2Proof.Laws.EncodedRow.Statement (.rdle32 d a) :=
  Laws.encodedRow_of (by decide) rfl rfl rfl rfl

theorem Sys2Proof.Laws.EncodedRow.rdle64 (d a : Reg) :
    Sys2Proof.Laws.EncodedRow.Statement (.rdle64 d a) :=
  Laws.encodedRow_of (by decide) rfl rfl rfl rfl

theorem Sys2Proof.Laws.EncodedRow.shiftmix (d a : Reg) :
    Sys2Proof.Laws.EncodedRow.Statement (.shiftmix d a) :=
  Laws.encodedRow_of (by decide) rfl rfl rfl rfl

theorem Sys2Proof.Laws.EncodedRow.hl16 (d a b c : Reg) :
    Sys2Proof.Laws.EncodedRow.Statement (.hl16 d a b c) :=
  Laws.encodedRow_of (by decide) rfl rfl rfl rfl

theorem Sys2Proof.Laws.EncodedRow.hl16k (d a b : Reg) :
    Sys2Proof.Laws.EncodedRow.Statement (.hl16k d a b) :=
  Laws.encodedRow_of (by decide) rfl rfl rfl rfl

theorem Sys2Proof.Laws.EncodedRow.wpmix (d a : Reg) :
    Sys2Proof.Laws.EncodedRow.Statement (.wpmix d a) :=
  Laws.encodedRow_of (by decide) rfl rfl rfl rfl

theorem Sys2Proof.Laws.EncodedRow.wpmixb (d a b c : Reg) :
    Sys2Proof.Laws.EncodedRow.Statement (.wpmixb d a b c) :=
  Laws.encodedRow_of (by decide) rfl rfl rfl rfl

theorem Sys2Proof.Laws.EncodedRow.hmix (d a b c : Reg) (r : Imm6) :
    Sys2Proof.Laws.EncodedRow.Statement (.hmix d a b c r) :=
  Laws.encodedRow_of (by decide) rfl rfl rfl rfl

theorem Sys2Proof.Laws.EncodedRow.h32 (d a b c : Reg) :
    Sys2Proof.Laws.EncodedRow.Statement (.h32 d a b c) :=
  Laws.encodedRow_of (by decide) rfl rfl rfl rfl

theorem Sys2Proof.Laws.EncodedRow.hl0_16 (d a : Reg) :
    Sys2Proof.Laws.EncodedRow.Statement (.hl0_16 d a) :=
  Laws.encodedRow_of (by decide) rfl rfl rfl rfl

theorem Sys2Proof.Laws.EncodedRow.hl17_32 (d a : Reg) :
    Sys2Proof.Laws.EncodedRow.Statement (.hl17_32 d a) :=
  Laws.encodedRow_of (by decide) rfl rfl rfl rfl

theorem Sys2Proof.Laws.EncodedRow.hl33_64 (d a : Reg) :
    Sys2Proof.Laws.EncodedRow.Statement (.hl33_64 d a) :=
  Laws.encodedRow_of (by decide) rfl rfl rfl rfl

theorem Sys2Proof.Laws.EncodedRow.hl33_64na (d a : Reg) :
    Sys2Proof.Laws.EncodedRow.Statement (.hl33_64na d a) :=
  Laws.encodedRow_of (by decide) rfl rfl rfl rfl

theorem Sys2Proof.Laws.EncodedRow.hl65_96 (d a : Reg) :
    Sys2Proof.Laws.EncodedRow.Statement (.hl65_96 d a) :=
  Laws.encodedRow_of (by decide) rfl rfl rfl rfl

theorem Sys2Proof.Laws.EncodedRow.na64 (d a : Reg) :
    Sys2Proof.Laws.EncodedRow.Statement (.na64 d a) :=
  Laws.encodedRow_of (by decide) rfl rfl rfl rfl

theorem Sys2Proof.Laws.EncodedRow.na64s (d a b c : Reg) :
    Sys2Proof.Laws.EncodedRow.Statement (.na64s d a b c) :=
  Laws.encodedRow_of (by decide) rfl rfl rfl rfl

theorem Sys2Proof.Laws.EncodedRow.uo64s (d a b c : Reg) :
    Sys2Proof.Laws.EncodedRow.Statement (.uo64s d a b c) :=
  Laws.encodedRow_of (by decide) rfl rfl rfl rfl

theorem Sys2Proof.Laws.EncodedRow.hash64 (d a : Reg) :
    Sys2Proof.Laws.EncodedRow.Statement (.hash64 d a) :=
  Laws.encodedRow_of (by decide) rfl rfl rfl rfl

theorem Sys2Proof.Laws.EncodedRow.hash64s (d a b c : Reg) :
    Sys2Proof.Laws.EncodedRow.Statement (.hash64s d a b c) :=
  Laws.encodedRow_of (by decide) rfl rfl rfl rfl
end

