-- ==== Sys2Proof/Laws/Step.lean ====
section
/-! SUPPORT. The turns of a step, the accesses of the register map, and what a core turn or a host
turn can do, once. -/

namespace Sys2Proof.Machine

/-! ### The turns -/

theorem step_of_nil {s : State} (h : s.agenda = []) : step s = coreRun s := by
  simp only [step, h]

theorem step_of_coreRun {s : State} {rest : List Turn} (h : s.agenda = .coreRun :: rest) :
    step s = coreRun { s with agenda := rest } := by
  simp only [step, h]

theorem step_of_coreSteps {s : State} {n : Nat} {rest : List Turn}
    (h : s.agenda = .coreSteps n :: rest) : step s = coreSteps n { s with agenda := rest } := by
  simp only [step, h]

theorem step_of_host {s : State} {a : HostAction} {rest : List Turn}
    (h : s.agenda = .host a :: rest) : step s = hostAct a { s with agenda := rest } := by
  simp only [step, h]

/-- A run goes on from the state its first step answers. -/
theorem run_succ_of_next {s s' : State} (h : step s = .next s') (n : Nat) :
    Sys2Proof.core.run (n + 1) s = Sys2Proof.core.run n s' := by
  have hstep : Sys2Proof.core.step s = .next s' := h
  simp only [Host.Core.run, hstep]

/-! ### A core turn -/

theorem running_idle {s : State} (h : s.phase = .idle) (go : Instr → State → Result) :
    s.running go = .next s := by
  simp only [State.running, h]

theorem running_of_decode {s : State} (h : s.phase = .run) {i : Instr} (hd : decode s.cwl = .ok i)
    (go : Instr → State → Result) : s.running go = go i s := by
  simp only [State.running, h, hd]

theorem running_of_error {s : State} (h : s.phase = .run) {e : DecodeError}
    (hd : decode s.cwl = .error e) (go : Instr → State → Result) :
    s.running go = .next (s.takeFault (causeOf e) (s.cwl.setWidth 64)) := by
  simp only [State.running, h, hd]

/-- What a core turn can do: nothing when idle, else one of the outcomes of the latched word. -/
theorem core_outcome {s t : State} (h : coreStep s = .next t ∨ coreRun s = .next t) :
    (s.phase = .idle ∧ t = s) ∨
      (s.phase = .run ∧ (∃ e, decode s.cwl = .error e ∧
        t = s.takeFault (causeOf e) (s.cwl.setWidth 64))) ∨
      (s.phase = .run ∧ ∃ i, decode s.cwl = .ok i ∧ CommandOutcome i.dests s t) := by
  simp only [coreStep, coreRun] at h
  cases hp : s.phase with
  | idle =>
    rw [running_idle hp, running_idle hp] at h
    exact .inl ⟨rfl, by rcases h with h | h <;> cases h <;> rfl⟩
  | run =>
    cases hd : decode s.cwl with
    | error e =>
      rw [running_of_error hp hd, running_of_error hp hd] at h
      exact .inr (.inl ⟨rfl, e, rfl, by rcases h with h | h <;> cases h <;> rfl⟩)
    | ok i =>
      rw [running_of_decode hp hd, running_of_decode hp hd] at h
      obtain ⟨u, hu, ho⟩ := execStep_outcome i s
      obtain ⟨u', hu', ho'⟩ := exec_outcome i s
      refine .inr (.inr ⟨rfl, i, rfl, ?_⟩)
      rcases h with h | h
      · rw [h] at hu; cases hu; exact ho
      · rw [h] at hu'; cases hu'; exact ho'

/-! ### Several sequencer steps as one (R132) -/

/-- One step of the reference decomposition. -/
@[simp] theorem coreSteps_one (s : State) : coreSteps 1 s = coreStep s := by
  rw [coreSteps]
  cases coreStep s <;> rfl

theorem coreSteps_succ {s t : State} (h : coreStep s = .next t) (n : Nat) :
    coreSteps (n + 1) s = coreSteps n t := by
  simp only [coreSteps, h]

/-- `m` steps and then `n` are `m + n` steps. -/
theorem coreSteps_add {m : Nat} {s t : State} (h : coreSteps m s = .next t) (n : Nat) :
    coreSteps (m + n) s = coreSteps n t := by
  induction m generalizing s with
  | zero => cases h; rw [Nat.zero_add]
  | succ m ih =>
    rw [Nat.add_right_comm]
    simp only [coreSteps] at h ⊢
    cases hc : coreStep s with
    | next u => rw [hc] at h; exact ih h
    | fault f => rw [hc] at h; cases h
    | refused r => rw [hc] at h; cases h

/-- An idle core does nothing, however many steps it takes. -/
theorem coreSteps_idle {s : State} (h : s.phase = .idle) (n : Nat) : coreSteps n s = .next s := by
  induction n with
  | zero => rfl
  | succ n ih => rw [coreSteps_succ (running_idle h _), ih]

/-- A sequencer step always answers a next state. -/
theorem coreStep_next (s : State) : ∃ t, coreStep s = .next t := by
  rw [coreStep]
  cases hp : s.phase with
  | idle => exact ⟨s, running_idle hp _⟩
  | run =>
    cases hd : decode s.cwl with
    | error e => exact ⟨_, running_of_error hp hd _⟩
    | ok i =>
      obtain ⟨t, ht, -⟩ := execStep_outcome i s
      exact ⟨t, (running_of_decode hp hd _).trans ht⟩

/-- What each step keeps, a turn of several steps keeps. -/
theorem coreSteps_keeps {p : State → Prop} (h : ∀ s t, p s → coreStep s = .next t → p t) (n : Nat)
    {s t : State} (hs : p s) (ht : coreSteps n s = .next t) : p t := by
  induction n generalizing s with
  | zero => cases ht; exact hs
  | succ n ih =>
    obtain ⟨u, hu⟩ := coreStep_next s
    exact ih (h s u hs hu) (coreSteps_succ hu n ▸ ht)

/-- What a turn of several steps can do: nothing when idle or for no step, else one of the outcomes of
the latched word. -/
theorem coreSteps_outcome {n : Nat} {s t : State} (h : coreSteps n s = .next t) :
    t = s ∨
      (s.phase = .run ∧ (∃ e, decode s.cwl = .error e ∧
        t = s.takeFault (causeOf e) (s.cwl.setWidth 64))) ∨
      (s.phase = .run ∧ ∃ i, decode s.cwl = .ok i ∧ CommandOutcome i.dests s t) := by
  induction n generalizing s with
  | zero => cases h; exact .inl rfl
  | succ n ih =>
    obtain ⟨u, hu⟩ := coreStep_next s
    rw [coreSteps_succ hu] at h
    rcases core_outcome (.inl hu) with ⟨-, rfl⟩ | ⟨hp, e, hd, rfl⟩ | ⟨hp, i, hd, ho⟩
    · exact ih h
    · rw [coreSteps_idle rfl] at h
      cases h
      exact .inr (.inl ⟨hp, e, hd, rfl⟩)
    · refine .inr (.inr ⟨hp, i, hd, ?_⟩)
      cases ho with
      | ended he =>
        rw [coreSteps_idle he.phase] at h
        cases h
        exact .ended _ he
      | underWay hsame =>
        have hcwl : u.cwl = s.cwl := by rw [hsame]
        rcases ih h with rfl | ⟨-, e, hd', -⟩ | ⟨-, i', hd', ho'⟩
        · exact .underWay _ hsame
        · rw [hcwl, hd] at hd'; cases hd'
        · rw [hcwl, hd] at hd'
          cases hd'
          exact .of_same hsame ho'

/-! ### The register map (R20) -/

theorem accessed_operand (r : Reg) : accessed (0x100 + 8 * r.val) 64 = some (.operand r) := by
  revert r; decide

theorem accessed_reserved {off : Nat} (hlo : 0x028 ≤ off) (hhi : off ≤ 0x0F8) (h8 : off % 8 = 0) :
    accessed off 64 = some .reserved := by
  simp only [accessed, hostReg, if_true]
  rw [if_neg (by omega), if_neg (by omega), if_neg (by omega), if_neg (by omega),
    if_neg (by omega), if_neg (by omega), if_pos (by omega)]

/-- `STATUS` is at one offset alone, and read or written at one width alone. -/
theorem accessed_status {off width : Nat} (h : accessed off width = some .status) :
    off = 0x008 ∧ width = 64 := by
  simp only [accessed, hostReg] at h
  split_ifs at h <;> simp_all

/-! ### A host turn -/

/-- What a write to `STATUS` leaves alone (R23). -/
theorem writeStatus_outside (s : State) (v : Word) :
    s.writeStatus v =
      { s with status := (s.writeStatus v).status, finfo := (s.writeStatus v).finfo } := by
  simp only [State.writeStatus]
  split_ifs <;> rfl

end Sys2Proof.Machine
end

