-- ==== Sys2Proof/Tests/Slice0.lean ====
section
/-! SUPPORT. Tests whose expected results are the spec's own words and vectors
(`95_test_vectors.md`, and the examples of `30_encoding.md` to `44_dispatch.md`), and for every
statement that has hypotheses a witness that meets them. -/

-- The theorems of this file are checked one after another: each has work of its own to do.
set_option Elab.async false

namespace Sys2Proof.Tests

open Sys2Proof.Machine

/-! ### Small states -/

/-- The buffer `seq(n)` of `95_test_vectors.md`. -/
def seq (n : Nat) : List Byte := (List.range n).map (BitVec.ofNat 8)

/-- The state after reset with registers written and a buffer attached. -/
def start (bytes : List Byte) (regs : List (Reg × Word)) : State :=
  { State.reset.setRegs regs with buf := Buffer.ofBytes bytes }

/-- That state with a command word accepted. -/
def accepted (bytes : List Byte) (regs : List (Reg × Word)) (w : CmdWord) : State :=
  (start bytes regs).accept w

/-- The step answers a next state with this property. -/
def holds (r : Result) (p : State → Bool) : Bool :=
  match r with
  | .next t => p t
  | _ => false

theorem next_of_holds {r : Result} {p : State → Bool} (h : holds r p = true) :
    ∃ t, r = .next t ∧ p t = true := by
  cases r with
  | next t => exact ⟨t, rfl, h⟩
  | fault f => cases h
  | refused f => cases h

/-- One step runs the word to `STATUS = 0x0002` and these register values. -/
def gives (w : Nat) (bytes : List Byte) (regs expected : List (Reg × Word)) : Bool :=
  holds (step ((start bytes regs).withFetchWord 32 w)) fun t =>
    t.status.word == 0x0002#64 && expected.all fun e => t.reg e.1 == e.2

/-- One step of the word ends in this `STATUS` and `FINFO`, with every register as it was. -/
def faults (w : Nat) (bytes : List Byte) (regs : List (Reg × Word)) (status finfo : Word) : Bool :=
  holds (step ((start bytes regs).withFetchWord 32 w)) fun t =>
    t.status.word == status && t.finfo == finfo && t.regs == (start bytes regs).regs

/-- One host action on a state, and what is then true. -/
def after (a : HostAction) (s : State) (p : State → Bool) : Bool :=
  holds (step { s with agenda := [.host a] }) p

/-! ### Well-formedness: each check refuses an ill-formed term (R56, R57, R60) -/

theorem test_wellFormed_wpmix_source_group : (Instr.wpmix 0 11).wellFormed = false := by decide
theorem test_wellFormed_wpmix_pair : (Instr.wpmix 15 0).wellFormed = false := by decide
theorem test_wellFormed_wpmixb_pair : (Instr.wpmixb 15 1 2 3).wellFormed = false := by decide
theorem test_wellFormed_h32_seed_pair : (Instr.h32 1 2 3 15).wellFormed = false := by decide
theorem test_wellFormed_ldk_index : (Instr.ldk 4 6).wellFormed = false := by decide
theorem test_wellFormed_last_groups :
    (Instr.wpmix 14 10).wellFormed = true ∧ (Instr.wpmixb 14 1 2 3).wellFormed = true ∧
      (Instr.h32 1 2 3 14).wellFormed = true ∧ (Instr.ldk 4 5).wellFormed = true := by decide

/-! ### Decoding: every command's word as the spec prints it -/

/-- Words of `95_test_vectors.md` section 2 and the commands they stand for. -/
def primitiveWords : List (CmdWord × Instr) :=
  [(0x01312000, .add 3 1 2), (0x02312000, .sub 3 1 2), (0x03312000, .mul 3 1 2),
   (0x04312000, .xor 3 1 2), (0x05312000, .and 3 1 2), (0x0621002F, .shri 2 1 47),
   (0x07210001, .shli 2 1 1), (0x08210004, .rotri 2 1 4), (0x0921003F, .rotli 2 1 63),
   (0x0A312000, .rotr 3 1 2), (0x0B312000, .rotl 3 1 2), (0x0C012000, .swap 1 2),
   (0x0D50003F, .ldi 5 63), (0x0E400005, .ldk 4 5), (0x0F210000, .mov 2 1),
   (0x10210000, .rdb 2 1), (0x11210000, .rdle32 2 1), (0x12210000, .rdle64 2 1)]

/-- Words of sections 3 and 4. -/
def combinerWords : List (CmdWord × Instr) :=
  [(0x20210000, .shiftmix 2 1), (0x21412300, .hl16 4 1 2 3), (0x22412000, .hl16k 4 1 2),
   (0x230A0000, .wpmix 0 10), (0x24412300, .wpmixb 4 1 2 3), (0x2541231E, .hmix 4 1 2 3 30),
   (0x26512300, .h32 5 1 2 3)]

/-- Words of sections 4 to 6. -/
def pathWords : List (CmdWord × Instr) :=
  [(0x30210000, .hl0_16 2 1), (0x31210000, .hl17_32 2 1), (0x32210000, .hl33_64 2 1),
   (0x33210000, .hl33_64na 2 1), (0x34210000, .hl65_96 2 1), (0x35210000, .na64 2 1),
   (0x36213400, .na64s 2 1 3 4), (0x37213400, .uo64s 2 1 3 4), (0x40210000, .hash64 2 1),
   (0x41213400, .hash64s 2 1 3 4)]

def specWords : List (CmdWord × Instr) := primitiveWords ++ combinerWords ++ pathWords

theorem test_decode_every_command : ∀ p ∈ specWords, decode p.1 = .ok p.2 := by decide +kernel
theorem test_encode_every_command : ∀ p ∈ specWords, encode p.2 = p.1 := by decide +kernel

/-- R53, field by field: `OPC`, `RD`, `RA`, `RB`, `RC`, `RSV`, `IMM6`. -/
theorem test_decode_add_fields :
    decode (0x01#8 ++ 1#4 ++ 2#4 ++ 3#4 ++ 0#4 ++ 0b00#2 ++ 0b000000#6) = .ok (.add 1 2 3) := by
  decide +kernel
theorem test_decode_hmix_fields :
    decode (0x25#8 ++ 1#4 ++ 2#4 ++ 3#4 ++ 4#4 ++ 0b00#2 ++ 0b011111#6) =
      .ok (.hmix 1 2 3 4 31) := by
  decide +kernel
theorem test_decode_hl33_64na_fields :
    decode (0x33#8 ++ 9#4 ++ 6#4 ++ 0#4 ++ 0#4 ++ 0b00#2 ++ 0b000000#6) = .ok (.hl33_64na 9 6) := by
  decide +kernel
theorem test_decode_uo64s_fields :
    decode (0x37#8 ++ 1#4 ++ 2#4 ++ 3#4 ++ 15#4 ++ 0b00#2 ++ 0b000000#6) =
      .ok (.uo64s 1 2 3 15) := by
  decide +kernel
theorem test_decode_hash64s_fields :
    decode (0x41#8 ++ 1#4 ++ 2#4 ++ 3#4 ++ 4#4 ++ 0b00#2 ++ 0b000000#6) =
      .ok (.hash64s 1 2 3 4) := by
  decide +kernel

theorem test_decode_reserved_bits : decode 0x01123440#32 = .error .reservedBits := by decide +kernel
theorem test_decode_unused_field : decode 0x0C112000#32 = .error .unusedField := by decide +kernel
theorem test_decode_group : decode 0x23F00000#32 = .error .groupPastR15 := by decide +kernel
theorem test_decode_ldk_index : decode 0x0E40003F#32 = .error .romIndex := by decide +kernel
/-- The decoder rejects the word as a reserved opcode. -/
def reservedOpcode (w : CmdWord) : Bool :=
  match decode w with
  | .error .reservedOpcode => true
  | _ => false

theorem test_decode_reserved_opcodes :
    [0x00000000#32, 0x13000000#32, 0x1FFFFFFF#32, 0x27000000#32, 0x38000000#32, 0x42000000#32,
      0xFF000000#32].all reservedOpcode = true := by decide +kernel
theorem test_decodeTableWord_zeros : decodeTableWord 32 0x0F000000 = some (.mov 0 0) := by
  decide +kernel

/-- R63. -/
theorem test_asm_hmix : asm (.hmix 1 2 3 4 31) = "HMIX R1, R2, R3, R4, #31" := by decide +kernel
theorem test_asm_wpmix : asm (.wpmix 0 10) = "WPMIX R0:R1, R10:R15" := by
  decide +kernel
theorem test_asm_wpmixb : asm (.wpmixb 2 8 14 15) = "WPMIXB R2:R3, [R8], R14, R15" := by
  decide +kernel
theorem test_asm_hex : asmWith asmImmHex (.ldi 1 63) = "LDI R1, #0x3f" := by decide +kernel
theorem test_asm_ldk_named : asmLdkNamed 3 2 = some "LDK R3, #K2" := by decide +kernel
/-- R64. -/
theorem test_asm_ldc : asmPseudo (.ldc 3 4) = some "LDC R3, #SEED_NA" := by decide +kernel
theorem test_nop_word : encode Pseudo.nop.expand = 0x0F000000#32 := by decide +kernel

/-! ### Primitives (`95_test_vectors.md` section 2) -/

theorem test_add_wraps :
    gives 0x01312000 [] [(1, 0xFFFFFFFFFFFFFFFF#64), (2, 2#64)]
      [(3, 1#64)] = true := by decide +kernel

theorem test_add_same_register :
    gives 0x01111000 [] [(1, 5#64)]
      [(1, 0xA#64)] = true := by decide +kernel

theorem test_sub_borrow_wraps :
    gives 0x02312000 [] [(1, 0#64), (2, 1#64)]
      [(3, 0xFFFFFFFFFFFFFFFF#64)] = true := by decide +kernel

theorem test_mul_keeps_low_64_bits :
    gives 0x03312000 [] [(1, 0xFFFFFFFFFFFFFFFF#64), (2, 0xFFFFFFFFFFFFFFFF#64)]
      [(3, 1#64)] = true := by decide +kernel

theorem test_mul :
    gives 0x03312000 [] [(1, 0x9AE16A3B2F90404F#64), (2, 0xB492B66BE98F6C17#64)]
      [(3, 0xE07C6A82F4381B19#64)] = true := by decide +kernel

theorem test_xor :
    gives 0x04312000 [] [(1, 0x123456789ABCDEF#64), (2, 0xFFFFFFFFFFFFFFFF#64)]
      [(3, 0xFEDCBA9876543210#64)] = true := by decide +kernel

theorem test_and :
    gives 0x05312000 [] [(1, 0x123456789ABCDEF#64), (2, 0xFF#64)]
      [(3, 0xEF#64)] = true := by decide +kernel

theorem test_shri :
    gives 0x0621002F [] [(1, 0xFFFFFFFFFFFFFFFF#64)]
      [(2, 0x1FFFF#64)] = true := by decide +kernel

theorem test_shli : gives 0x0721003F [] [(1, 0x80#64)] [(2, 0#64)] = true := by decide +kernel

theorem test_rotri :
    gives 0x0821003F [] [(1, 0x123456789ABCDEF#64)]
      [(2, 0x2468ACF13579BDE#64)] = true := by decide +kernel

theorem test_rotli :
    gives 0x09210004 [] [(1, 0x123456789ABCDEF#64)]
      [(2, 0x123456789ABCDEF0#64)] = true := by decide +kernel

theorem test_rotr_amount_64 :
    gives 0x0A312000 [] [(1, 0x123456789ABCDEF#64), (2, 0x40#64)]
      [(3, 0x123456789ABCDEF#64)] = true := by decide +kernel

theorem test_rotr_amount_max :
    gives 0x0A312000 [] [(1, 0x123456789ABCDEF#64), (2, 0xFFFFFFFFFFFFFFFF#64)]
      [(3, 0x2468ACF13579BDE#64)] = true := by decide +kernel

theorem test_rotl_amount_mod_64 :
    gives 0x0B312000 [] [(1, 0x123456789ABCDEF#64), (2, 0x100000000000003C#64)]
      [(3, 0xF0123456789ABCDE#64)] = true := by decide +kernel

theorem test_swap :
    gives 0x0C012000 [] [(1, 1#64), (2, 2#64)]
      [(1, 2#64), (2, 1#64)] = true := by decide +kernel

theorem test_swap_same_register :
    gives 0x0C011000 [] [(1, 7#64)]
      [(1, 7#64)] = true := by decide +kernel

theorem test_ldi : gives 0x0D50003F [] [] [(5, 0x3F#64)] = true := by decide +kernel

theorem test_ldk_last : gives 0x0E400005 [] [] [(4, 0x71#64)] = true := by decide +kernel

theorem test_mov :
    gives 0x0F210000 [] [(1, 0x123456789ABCDEF#64)]
      [(2, 0x123456789ABCDEF#64)] = true := by decide +kernel

theorem test_rdb_last_byte :
    gives 0x10210000 (seq 16) [(1, 0xF#64)]
      [(2, 0xF#64)] = true := by decide +kernel

theorem test_rdle32_last_word :
    gives 0x11210000 (seq 16) [(1, 0xC#64)]
      [(2, 0xF0E0D0C#64)] = true := by decide +kernel

theorem test_rdle64_unaligned :
    gives 0x12210000 (seq 16) [(1, 3#64)]
      [(2, 0xA09080706050403#64)] = true := by decide +kernel

theorem test_rdle64_byte_order :
    gives 0x12210000 [0x88#8, 0x77#8, 0x66#8, 0x55#8, 0x44#8, 0x33#8, 0x22#8, 0x11#8] [(1, 0#64)]
      [(2, 0x1122334455667788#64)] = true := by decide +kernel

/-! ### Combiners (`95_test_vectors.md` section 3) -/

theorem test_shiftmix :
    gives 0x20210000 [] [(1, 0x800000000000#64)]
      [(2, 0x800000000001#64)] = true := by decide +kernel

theorem test_hl16 :
    gives 0x21412300 []
      [(1, 0x123456789ABCDEF#64), (2, 0xFEDCBA9876543210#64), (3, 0xC3A5C85C97CB3127#64)]
      [(4, 0x955ED096AE673CF1#64)] = true := by decide +kernel

theorem test_hl16_argument_order :
    gives 0x21412300 [] [(1, 0#64), (2, 1#64), (3, 0x9AE16A3B2F90404F#64)]
      [(4, 0xDC111975C8F030AE#64)] = true := by decide +kernel

theorem test_hl16k :
    gives 0x22412000 [] [(1, 1#64), (2, 2#64)]
      [(4, 0x86668A560EC835A1#64)] = true := by decide +kernel

theorem test_wpmix :
    gives 0x23020000 [] [(2, 1#64), (3, 2#64), (4, 3#64), (5, 4#64), (6, 5#64), (7, 6#64)]
      [(0, 0xF#64), (1, 0x800000B00006#64)] = true := by decide +kernel

theorem test_wpmix_last_group :
    gives 0x230A0000 []
      [(10, 0xFFFFFFFFFFFFFFFF#64), (11, 0xFFFFFFFFFFFFFFFF#64), (12, 0xFFFFFFFFFFFFFFFF#64),
       (13, 0xFFFFFFFFFFFFFFFF#64), (14, 0xFFFFFFFFFFFFFFFF#64), (15, 0xFFFFFFFFFFFFFFFF#64)]
      [(0, 0xFFFFFFFFFFFFFFFB#64), (1, 0xFFFFE7FFFFCFFFFC#64)] = true := by decide +kernel

theorem test_wpmixb :
    gives 0x24412300 (seq 32) [(1, 0#64), (2, 1#64), (3, 2#64)]
      [(4, 0x4C4844403C383431#64), (5, 0x5A18F016D5A5D493#64)] = true := by decide +kernel

theorem test_hmix :
    gives 0x2541233F [] [(1, 0xFFFFFFFFFFFFFFFF#64), (2, 1#64), (3, 0xB492B66BE98F6C17#64)]
      [(4, 0x4D8F2DA9C219D98C#64)] = true := by decide +kernel

theorem test_h32 :
    gives 0x26512300 (seq 32) [(1, 0#64), (2, 0x9AE16A3B2F904031#64), (3, 1#64), (4, 2#64)]
      [(5, 0x17000468E4CA82EF#64)] = true := by decide +kernel

/-! ### Closed forms (`95_test_vectors.md` section 4) -/

theorem test_hl0_16_three_bytes :
    gives 0x30210000 (seq 3) [(1, 3#64)]
      [(2, 0x94A13D22E9EBA49A#64)] = true := by decide +kernel

theorem test_hl0_16_seven_bytes :
    gives 0x30210000 (seq 7) [(1, 7#64)]
      [(2, 0xA2E0BFF20DB0A6A1#64)] = true := by decide +kernel

theorem test_hl17_32 :
    gives 0x31210000 (seq 31) [(1, 0x1F#64)]
      [(2, 0xD22E67E939674F20#64)] = true := by decide +kernel

theorem test_hl33_64 :
    gives 0x32210000 (seq 63) [(1, 0x3F#64)]
      [(2, 0xFEF74ACCCF222CB#64)] = true := by decide +kernel

theorem test_hl33_64na :
    gives 0x33210000 (seq 48) [(1, 0x30#64)]
      [(2, 0xF39D81EACD9B8A63#64)] = true := by decide +kernel

theorem test_hl65_96 :
    gives 0x34210000 (seq 95) [(1, 0x5F#64)]
      [(2, 0xBA98F7B1EBAC471#64)] = true := by decide +kernel

/-! ### Loops and dispatch (`95_test_vectors.md` sections 5 and 6) -/

theorem test_na64 :
    gives 0x35210000 (seq 65) [(1, 0x41#64)]
      [(2, 0x4143B91C9B605D58#64)] = true := by decide +kernel

theorem test_na64_multiple_of_64 :
    gives 0x35210000 (seq 128) [(1, 0x80#64)]
      [(2, 0xEAC1EA03038EFF3F#64)] = true := by decide +kernel

theorem test_na64s :
    gives 0x36213400 (seq 65) [(1, 0x41#64), (3, 1#64), (4, 2#64)]
      [(2, 0x2FB1726DD4921984#64)] = true := by decide +kernel

theorem test_na64s_empty :
    gives 0x36213400 [] [(1, 0#64), (3, 1#64), (4, 2#64)]
      [(2, 0xF846BC39066A4ACE#64)] = true := by decide +kernel

theorem test_uo64s :
    gives 0x37213400 (seq 65) [(1, 0x41#64), (3, 0#64), (4, 0#64)]
      [(2, 0x24249F6DBFA809B0#64)] = true := by decide +kernel

theorem test_uo64s_closed_form :
    gives 0x37213400 (seq 64) [(1, 0x40#64), (3, 0#64), (4, 0#64)]
      [(2, 0xC86BC9370544BC85#64)] = true := by decide +kernel

theorem test_hash64_na_loop :
    gives 0x40210000 (seq 97) [(1, 0x61#64)]
      [(2, 0x27BEC91F2F4E8242#64)] = true := by decide +kernel

theorem test_hash64_uo_loop :
    gives 0x40210000 (seq 257) [(1, 0x101#64)]
      [(2, 0xC82F9AF7DC099570#64)] = true := by decide +kernel

theorem test_hash64s :
    gives 0x41213400 (seq 65) [(1, 0x41#64), (3, 1#64), (4, 2#64)]
      [(2, 0x8EF90A26DB57723#64)] = true := by decide +kernel

theorem test_hash64s_closed_form :
    gives 0x41213400 (seq 33) [(1, 0x21#64), (3, 1#64), (4, 2#64)]
      [(2, 0x48765A51FE87C9FC#64)] = true := by decide +kernel

/-! ### Faults (`95_test_vectors.md` sections 2, 3 and 8) -/

theorem test_fault_reserved_opcode_zero :
    faults 0x00000000 [] [] 0x104#64 0#64 = true := by decide +kernel

theorem test_fault_opcode_check_is_first :
    faults 0x14210000 [] [(1, 0x32#64)] 0x104#64 0x14210000#64 = true := by decide +kernel

theorem test_fault_ldk_index_6 :
    faults 0x0E400006 [] [] 0x204#64 0xE400006#64 = true := by decide +kernel

theorem test_fault_wpmix_group_past_R15 :
    faults 0x230B0000 [] [] 0x204#64 0x230B0000#64 = true := by decide +kernel

theorem test_fault_operand_check_before_length :
    faults 0x32210040 [] [(1, 0x32#64)] 0x204#64 0x32210040#64 = true := by decide +kernel

theorem test_fault_length_past_buffer :
    faults 0x30210000 (seq 4) [(1, 5#64)] 0x304#64 5#64 = true := by decide +kernel

theorem test_fault_length_out_of_range :
    faults 0x30210000 (seq 17) [(1, 0x11#64)] 0x304#64 0x11#64 = true := by decide +kernel

theorem test_fault_hash64_length_max :
    faults 0x40210000 [] [(1, 0xFFFFFFFFFFFFFFFF#64)] 0x304#64 0xFFFFFFFFFFFFFFFF#64 = true := by
  decide +kernel

theorem test_fault_rdle64_offset_near_max :
    faults 0x12210000 (seq 16) [(1, 0xFFFFFFFFFFFFFFFC#64)] 0x404#64 0xFFFFFFFFFFFFFFFC#64 =
      true := by decide +kernel

theorem test_fault_h32_reads_24_before_16 :
    faults 0x26512300 (seq 31) [(1, 8#64)] 0x404#64 0x20#64 = true := by decide +kernel

theorem test_fault_wpmixb_reads_ascending :
    faults 0x24412300 (seq 31) [(1, 8#64)] 0x404#64 0x18#64 = true := by decide +kernel

/-! ### The host interface (`95_test_vectors.md` section 6.1) -/

/-- A state in which a command has completed: `DONE = 1`. -/
def completed : State := (accepted [] [] 0x0F000000).complete [(0, 0)]

/-- A state in which a read has faulted: `FAULT = 1`, `CAUSE = 4`, `FINFO = 9`. -/
def faulted : State := (accepted (seq 16) [(1, 9)] 0x12210000).takeFault .oobRead 9

/-- A state in which a command runs: `BUSY = 1`. -/
def busy : State := accepted [] [] 0x0D300001

theorem test_H1_status : after (.read 0x008 64) State.reset (fun t => t.readData == 0) = true := by
  decide +kernel
theorem test_H2_reserved :
    after (.read 0x028 64) State.reset (fun t => t.readData == 0) = true := by decide +kernel
theorem test_H3_clear_done :
    after (.write 0x008 64 0x2) completed (fun t => t.status.word == 0) = true := by decide +kernel
theorem test_H4_clear_fault :
    after (.write 0x008 64 0x4) faulted (fun t => t.status.word == 0 && t.finfo == 0) = true := by
  decide +kernel
theorem test_H5_other_bit_keeps_fault :
    after (.write 0x008 64 0x2) faulted (fun t => t.status.word == 0x404 && t.finfo == 9) =
      true := by
  decide +kernel
theorem test_H6_cmd_while_faulted :
    after (.write 0x000 64 0x0D300001) faulted
      (fun t => t.status.word == 0x40C && t.cmd == 0x12210000) = true := by decide +kernel
theorem test_H7_register_while_busy :
    after (.write 0x118 64 5) busy (fun t => t.reg 3 == 0 && t.status.word == 0x9) = true := by
  decide +kernel
theorem test_H8_attach_while_busy :
    after (.attach (seq 4)) busy (fun t => t.buf.len == 0 && t.status.word == 0x9) = true := by
  decide +kernel
theorem test_H9_clear_ovr :
    after (.write 0x008 64 0x8) busy.setOvr (fun t => t.status.word == 0x1) = true := by
  decide +kernel
theorem test_H10_irq_on_completion :
    holds (step { busy with ie := true }) (fun t => t.irq && t.reg 3 == 1) = true := by
  decide +kernel
theorem test_H11_irq_falls :
    after (.write 0x008 64 0x2) { completed with ie := true } (fun t => !t.irq) = true := by
  decide +kernel
theorem test_H12_mask :
    after (.write 0x010 64 0) { faulted with ie := true } (fun t => !t.irq && t.status.fault) =
      true := by
  decide +kernel
theorem test_H13_reset :
    after .reset { busy with ie := true } (fun t => t == State.reset) = true := by decide +kernel
theorem test_H14_acceptance_clears_done :
    after (.write 0x000 64 0x0D300001) completed
      (fun t => t.status.word == 0x1 && t.cmd == 0x0D300001) = true := by decide +kernel
theorem test_H15_attach :
    after (.attach (seq 40)) State.reset (fun t => t.hostValue .buflen == 40) = true := by
  decide +kernel
/-- The step is refused, and why. -/
def refuses (r : Result) (f : Refusal) : Bool :=
  match r with
  | .refused g => g == f
  | _ => false

theorem test_refused_width :
    refuses (step { State.reset with agenda := [.host (.read 0x008 32)] }) .badHostAccess =
      true := by
  decide +kernel

/-! ### Other parameters than the defaults (R7) -/

/-- A machine whose offsets and lengths have 8 bits and whose `K2` is 5. -/
def narrow (bytes : List Byte) (regs : List (Reg × Word)) (w : CmdWord) : State :=
  { accepted bytes regs w with params := { Config.default with ADDR_W := 8, K2 := 5 } }

/-- `FINFO` is the offset modulo 2^8 (R149). -/
theorem test_narrow_offset :
    holds (coreRun (narrow (seq 16) [(1, 0x1FC)] 0x12210000))
      (fun t => t.status.word == 0x404 && t.finfo == 0xFC) = true := by decide +kernel
/-- `Attach` takes 255 bytes and no more (R29). -/
theorem test_narrow_attach :
    (let s := fun n => { narrow [] [] 0 with
        status := State.reset.status, agenda := [.host (.attach (seq n))] }
     holds (step (s 255)) (fun t => t.buf.len == 255) &&
       refuses (step (s 256)) .bufferTooLong) = true := by decide +kernel
/-- The hash of no byte is the machine's own `K2` (R104). -/
theorem test_own_constant :
    holds (coreRun (narrow [] [] 0x40210000)) (fun t => t.reg 2 == 5) = true := by decide +kernel

/-! ### Sequencer steps and the loops -/

/-- The four steps of a loop command in turns of 0, 3, 0 and 5 (R132). -/
theorem test_steps_as_turns :
    let s : State := { accepted (seq 65) [(1, 65)] 0x35210000 with
      agenda := [.coreSteps 0, .coreSteps 3, .coreSteps 0, .coreSteps 5] }
    holds (Sys2Proof.core.run 4 s)
      (fun t => t.reg 2 == 0x4143B91C9B605D58 && t.status.word == 0x2) = true := by decide +kernel

/-- One sequencer step of a loop command leaves it running, and its registers as they
were (R137). -/
theorem test_one_step_of_a_loop :
    holds (coreStep (accepted (seq 65) [(1, 65), (2, 7)] 0x35210000))
      (fun t => t.phase == .run && t.reg 2 == 7 && t.len == 65 && t.endPos == 64 && t.last64 == 1) =
      true := by decide +kernel

/-- The accumulator after the first iteration of `NA64` on `seq(129)` (section 5.2). -/
theorem test_na_iteration :
    ((naInit Config.default (Buffer.ofBytes (seq 64)) Acc.zero >>=
        naIteration Config.default (Buffer.ofBytes (seq 64)) 0).toOption.map
      fun acc => (acc.x, acc.y, acc.z)) =
      some (0xC7775DC570180CEF#64, 0xF50DD63726F67035#64, 0x85839A1AE2636DF1#64) := by
  decide +kernel

/-- The accumulator after the first iteration of `UO64S` with seeds (81, 0) (section 5.3). -/
theorem test_uo_iteration :
    ((uoIteration (Buffer.ofBytes (seq 64)) 0 (uoInit Config.default 81 0)).toOption.map
      fun acc => (acc.x, acc.y, acc.z, acc.u)) =
      some (0x030D482BAA65FB82#64, 0xEB31F136A280AB4B#64, 0x98908C08B8B0A8A0#64,
        0xD516181EFEA943F9#64) := by
  decide +kernel

theorem test_reset_memory_wf : Buffer.wf State.reset.buf := by decide

/-! ### What the witnesses are made of -/

/-- Each of the spec's words leaves its command ready once accepted (R134). -/
theorem ready_specWord (bytes : List Byte) (regs : List (Reg × Word)) (p : CmdWord × Instr)
    (hp : p ∈ specWords) : Ready p.2 (accepted bytes regs p.1) :=
  ready_accept _ (test_decode_every_command p hp)

theorem ready_accepted {bytes : List Byte} {regs : List (Reg × Word)} {w : CmdWord} {i : Instr}
    (h : decode w = .ok i) : Ready i (accepted bytes regs w) :=
  ready_accept _ h

/-- The state with the word of a length command accepted: `n` bytes attached, the length `L` in
`R1`. -/
def withLength (n L : Nat) (w : CmdWord) : State := accepted (seq n) [(1, BitVec.ofNat 64 L)] w

theorem withLength_reg {L : Nat} (hL : L < 2 ^ 64) (n : Nat) (w : CmdWord) :
    ((withLength n L w).reg 1).toNat = L :=
  Nat.mod_eq_of_lt hL

theorem seq_length (n : Nat) : (seq n).length = n := by
  rw [seq, List.length_map, List.length_range]

theorem withLength_len {n : Nat} (hn : n < 2 ^ 64) (L : Nat) (w : CmdWord) :
    (withLength n L w).buf.len.toNat = n := by
  show (BitVec.ofNat 64 (seq n).length).toNat = n
  rw [seq_length, BitVec.toNat_ofNat, Nat.mod_eq_of_lt hn]

/-- The command is ready, with this length in `R1` and this many bytes attached. -/
structure AtLength (i : Instr) (s : State) (n L : Nat) : Prop where
  ready : Ready i s
  length : (s.reg 1).toNat = L
  bytes : s.buf.len.toNat = n
  word : decode s.cwl = .ok i

theorem atLength (n L : Nat) (hn : n < 2 ^ 64) (hL : L < 2 ^ 64) (p : CmdWord × Instr)
    (hp : p ∈ specWords) : AtLength p.2 (withLength n L p.1) n L :=
  ⟨ready_specWord _ _ p hp, withLength_reg hL n _, withLength_len hn L _,
    test_decode_every_command p hp⟩

/-- The state that acceptance leaves after reset meets the invariant. -/
theorem coreInv_accepted (bytes : List Byte) (h : bytes.length < 2 ^ 64) (regs : List (Reg × Word))
    (w : CmdWord) : CoreInv (accepted bytes regs w) where
  buffer := Buffer.wf_ofBytes bytes h
  bufferFits := Nat.le_sub_one_of_lt (Word.toNat_lt _)
  busyNotDone _ := rfl
  busyNotFault _ := rfl
  doneNotFault _ := rfl
  busyRun := ⟨fun _ => rfl, fun _ => rfl⟩
  causeFault := ⟨fun _ => rfl, fun _ => rfl⟩
  finfoFault _ := rfl
  idle := nofun
  readBack _ := rfl
  latched _ _ hi := latched_accept _ hi
  loop h := absurd rfl h

theorem coreInv_faulted : CoreInv faulted where
  buffer := Buffer.wf_ofBytes (seq 16) (by rw [seq_length]; decide)
  bufferFits := Nat.le_sub_one_of_lt (Word.toNat_lt _)
  busyNotDone := nofun
  busyNotFault := nofun
  doneNotFault := nofun
  busyRun := ⟨nofun, nofun⟩
  causeFault := ⟨nofun, nofun⟩
  finfoFault := nofun
  idle _ := ⟨rfl, rfl⟩
  readBack := nofun
  latched := nofun
  loop h := absurd rfl h

/-- A computation that reads the buffer answers a value. -/
def answers {α : Type} (r : Read α) : Bool :=
  match r with
  | .ok _ => true
  | .error _ => false

theorem ok_of_answers {α : Type} {r : Read α} (h : answers r = true) : ∃ v, r = .ok v := by
  cases r with
  | ok v => exact ⟨v, rfl⟩
  | error off => cases h

/-- This state with one turn of the host still to come. -/
def turn (a : HostAction) (s : State) : State := { s with agenda := [.host a] }

/-! ### Witnesses: encoding and decoding -/

theorem witness_DecodeOfEncodeIsIdentity : ∀ p ∈ specWords, p.2.wellFormed = true := by
  decide +kernel

theorem witness_EncodeOfDecodeIsIdentity : ∀ p ∈ specWords, decode p.1 = .ok p.2 :=
  test_decode_every_command

/-- The hypothesis of `ReservedOpcodesFault` on the word in `cwl`. -/
def inReservedRange (w : CmdWord) : Bool :=
  let o := w.toNat / 2 ^ 24
  decide (o = 0x00 ∨ (0x13 ≤ o ∧ o ≤ 0x1F) ∨ (0x27 ≤ o ∧ o ≤ 0x2F) ∨ (0x38 ≤ o ∧ o ≤ 0x3F) ∨
    (0x42 ≤ o ∧ o ≤ 0xFF))

/-- Every end of R59's ranges. -/
theorem witness_ReservedOpcodesFault :
    (∀ w, (accepted [] [] w).phase = .run ∧ (accepted [] [] w).cwl = w) ∧
      [0x00FFFFFF#32, 0x13000000#32, 0x1F000000#32, 0x27000000#32, 0x2F000000#32, 0x38000000#32,
        0x3F000000#32, 0x42000000#32, 0xFF000000#32].all inReservedRange = true :=
  ⟨fun _ => ⟨rfl, rfl⟩, by decide +kernel⟩

/-- The hypotheses of `IllegalOperandsFault` on the word in `cwl`. -/
def illegalOperands (w : CmdWord) : Bool :=
  match opcodeRow (opcodeOf w) with
  | none => false
  | some (form, build) =>
    let f := fieldsOf w
    decide (f.rsv ≠ 0) || !unusedZero form f || !(build f).groupsFit || !(build f).romIndexOk

/-- One word for each of R60's (a) to (d), and the first register past each group's last. -/
theorem witness_IllegalOperandsFault :
    (∀ w, (accepted [] [] w).phase = .run ∧ (accepted [] [] w).cwl = w) ∧
      [0x01123040#32, 0x011230C0#32, 0x0C112000#32, 0x230B0000#32, 0x23F00000#32, 0x24F12300#32,
        0x26512F00#32, 0x0E400006#32, 0x0E40003F#32].all illegalOperands = true :=
  ⟨fun _ => ⟨rfl, rfl⟩, by decide +kernel⟩

theorem witness_StepRunsTheFetchedCommand :
    ∀ p ∈ specWords, decodeTableWord 32 p.1.toNat = some p.2 := by decide +kernel

theorem witness_RunningCoreExecutesTheLatchedCommand :
    ∀ p ∈ specWords, ∀ rest ∈ [[], [.coreRun], [.coreSteps 0], [.coreSteps 1], [Turn.coreSteps 7]],
      let s : State := { accepted [] [] p.1 with agenda := rest }
      s.phase = .run ∧ decode s.cwl = .ok p.2 ∧ s.agenda = rest := fun p hp _ _ =>
  ⟨rfl, test_decode_every_command p hp, rfl⟩

/-- Accepted with bits above bit 31 set, ignored while busy, ignored while a fault is recorded, and
an operand register written while busy. -/
theorem witness_CmdWriteAccepts :
    let v : Word := 0xFFFFFFFF0D300001
    let s := turn (.write 0x000 64 v)
    ((s completed).agenda = [.host (.write 0x000 64 v)] ∧ (s completed).status.busy = false ∧
      (s completed).status.fault = false) ∧
    ((s busy).status.busy = true ∧ (s faulted).status.fault = true) ∧
    (turn (.write (0x100 + 8 * (15 : Reg).val) 64 v) busy).agenda =
      [.host (.write (0x100 + 8 * (15 : Reg).val) 64 v)] ∧
    ∃ t, step (turn (.write 0x178 64 v) busy) = .next t ∧ t.status.ovr = true :=
  ⟨⟨rfl, rfl, rfl⟩, ⟨rfl, rfl⟩, rfl, next_of_holds (by decide +kernel)⟩

/-! ### Witnesses: what the commands do -/

theorem witness_ArithmeticAndLogicCommands (p : CmdWord × Instr) (hp : p ∈ primitiveWords) :
    Ready p.2 (accepted (seq 16) [(1, 3), (2, 4)] p.1) :=
  ready_specWord _ _ p (by simp [specWords, hp])

theorem witness_ShiftAndRotateCommands (p : CmdWord × Instr) (hp : p ∈ primitiveWords) :
    Ready p.2 (accepted [] [(1, 3), (2, 0xFFFFFFFFFFFFFFFF)] p.1) :=
  ready_specWord _ _ p (by simp [specWords, hp])

/-- A right rotation past 64, and the first and the last bit. -/
theorem witness_RotationsReduceTheAmountModulo64 :
    (65 : Nat) % 64 ≠ 0 ∧ (0 : Nat) < 64 ∧ (63 : Nat) < 64 := by decide

/-- The first and the last index of the ROM, and the first and the last past it. -/
theorem witness_MoveAndConstantCommands :
    Ready (.ldk 4 0) (accepted [] [] 0x0E400000) ∧ Ready (.ldk 4 5) (accepted [] [] 0x0E400005) ∧
      (6 : Imm6).val > 5 ∧ (63 : Imm6).val > 5 :=
  ⟨ready_accepted (by decide +kernel), ready_accepted (by decide +kernel), by decide, by decide⟩

/-- A step, and an initialisation that finds its one read in range. -/
theorem witness_ConstantRomHoldsSixWords :
    (∃ t, step (turn .reset busy) = .next t ∧ (!t.status.busy) = true) ∧
    ∃ first acc', fetch64 (Buffer.ofBytes (seq 8)) 0 = .ok first ∧
      naInit Config.default (Buffer.ofBytes (seq 8)) Acc.zero = .ok acc' := by
  obtain ⟨first, h⟩ := ok_of_answers
    (show answers (fetch64 (Buffer.ofBytes (seq 8)) 0) = true by decide +kernel)
  obtain ⟨acc', h'⟩ := ok_of_answers
    (show answers (naInit Config.default (Buffer.ofBytes (seq 8)) Acc.zero) = true by
      decide +kernel)
  exact ⟨next_of_holds (by decide +kernel), first, acc', h, h'⟩

theorem witness_ReaderPortReadsLittleEndian :
    let B := Buffer.ofBytes (seq 16)
    8 + 8 ≤ B.len.toNat ∧ 9 + 8 > B.len.toNat ∧ 2 ^ 64 - 4 + 8 > B.len.toNat := by decide +kernel

theorem witness_MixedWidthReadsAgree : 0 + 8 ≤ (Buffer.ofBytes (seq 8)).len.toNat := by
  decide +kernel

/-- A read command accepted with 16 bytes attached and the offset in `R1`. -/
def readAt (off : Word) (w : CmdWord) : State := accepted (seq 16) [(1, off)] w

/-- The last offset in range and the first out of range, for each width. -/
theorem witness_BufferReadCommands :
    (∀ off ∈ [15, 16], Ready (.rdb 2 1) (readAt off 0x10210000)) ∧
    (∀ off ∈ [12, 13], Ready (.rdle32 2 1) (readAt off 0x11210000)) ∧
    (∀ off ∈ [8, 9], Ready (.rdle64 2 1) (readAt off 0x12210000)) ∧
    (∀ off w, (readAt off w).reg 1 = off) ∧ (∀ off w, (readAt off w).buf.len = 16) ∧
    (∀ off w, (readAt off w).params.ADDR_W = 64) ∧
    (15 + 1 ≤ 16 ∧ 16 + 1 > 16) ∧ (12 + 4 ≤ 16 ∧ 13 + 4 > 16) ∧ (8 + 8 ≤ 16 ∧ 9 + 8 > 16) :=
  ⟨fun _ _ => ready_accepted (by decide +kernel), fun _ _ => ready_accepted (by decide +kernel),
    fun _ _ => ready_accepted (by decide +kernel), fun _ _ => rfl, fun _ _ => rfl,
    fun _ _ => rfl, by decide,
    by decide, by decide⟩

theorem witness_ShiftMixCommandIsABijection :
    Ready (.shiftmix 2 1) (accepted [] [(1, 0x00007FFFFFFFFFFF)] 0x20210000) ∧
      (0x00007FFFFFFFFFFF : Word).toNat < 2 ^ 47 ∧
      shiftMix 0xFFFFFFFFFFFFFFFF = shiftMix 0xFFFFFFFFFFFFFFFF :=
  ⟨ready_accepted (by decide +kernel), by decide, rfl⟩

theorem witness_CombinerCommands (p : CmdWord × Instr) (hp : p ∈ combinerWords) :
    Ready p.2 (accepted (seq 32) [(1, 0), (2, 3)] p.1) :=
  ready_specWord _ _ p (by simp [specWords, hp])

/-- The last groups that fit, and a window whose first, second, third or fourth read fails. -/
theorem witness_WeakPairCommands :
    Ready (.wpmix 14 10) (accepted [] [] 0x23EA0000) ∧ (11 : Reg).val > 10 ∧ (15 : Reg).val > 14 ∧
    Ready (.wpmixb 14 1 2 3) (accepted (seq 32) [(1, 0)] 0x24E12300) ∧
    (accepted (seq 32) [(1, 0)] 0x24E12300).buf.len.toNat = 32 ∧
    ((accepted (seq 32) [(1, 0)] 0x24E12300).reg 1).toNat = 0 ∧
    (10 : Reg).val + 5 ≤ 15 ∧
    ∀ k, k < 4 → ∃ N, Ready (.wpmixb 4 1 2 3) (accepted (seq N) [(1, 0)] 0x24412300) ∧
      0 + 8 * k + 8 > N ∧ ∀ j, j < k → 0 + 8 * j + 8 ≤ N :=
  ⟨ready_accepted (by decide +kernel), by decide, by decide, ready_accepted (by decide +kernel),
    by decide +kernel, by decide +kernel, by decide,
    fun k _ => ⟨8 * k + 7, ready_accepted (by decide +kernel), by omega, by omega⟩⟩

theorem witness_WindowHashFormula : 0 + 32 ≤ (Buffer.ofBytes (seq 32)).len.toNat := by
  decide +kernel

/-- The last seed pair, and a window whose first, second or third read fails (R98's order). -/
theorem witness_WindowHashCommand :
    Ready (.h32 5 1 2 14) (accepted (seq 32) [(1, 0)] 0x26512E00) ∧ (15 : Reg).val > 14 ∧
    (accepted (seq 32) [(1, 0)] 0x26512E00).buf.len.toNat = 32 ∧
    ((accepted (seq 32) [(1, 0)] 0x26512E00).reg 1).toNat = 0 ∧
    (∀ N ∈ [0, 7, 8, 15, 16, 23, 24, 31],
      Ready (.h32 5 1 2 3) (accepted (seq N) [(1, 0)] 0x26512300)) ∧
    (∀ N ∈ [0, 7], 0 + 8 > N) ∧ (∀ N ∈ [8, 15], 0 + 8 ≤ N ∧ 0 + 16 > N) ∧
    ∀ N ∈ [16, 23, 24, 31], 0 + 16 ≤ N ∧ 0 + 32 > N :=
  ⟨ready_accepted (by decide +kernel), by decide, by decide +kernel, by decide +kernel,
    fun _ _ => ready_accepted (by decide +kernel), by decide, by decide, by decide⟩

theorem witness_EmptyInputHashesToK2 :
    ∀ p ∈ [(0x30210000#32, Instr.hl0_16 2 1), (0x35210000#32, .na64 2 1),
        (0x40210000#32, .hash64 2 1)],
      AtLength p.2 (withLength 0 0 p.1) 0 0 := fun p hp =>
  atLength 0 0 (by decide) (by decide) p (by revert p; decide +kernel)

theorem witness_ClosedFormFormulas :
    ∀ L ∈ [0, 1, 3, 4, 7, 8, 16, 17, 32, 33, 64, 65, 96],
      (BitVec.ofNat 64 L).toNat = L ∧ L ≤ (Buffer.ofBytes (seq L)).len.toNat := by decide +kernel

/-- Both ends of every range and one past each, with as many bytes attached as the length says. -/
theorem witness_ClosedFormCommands :
    (∀ L ∈ [0, 16, 17], AtLength (.hl0_16 2 1) (withLength L L 0x30210000) L L) ∧
    (∀ L ∈ [16, 17, 32, 33], AtLength (.hl17_32 2 1) (withLength L L 0x31210000) L L) ∧
    (∀ L ∈ [32, 33, 64, 65], AtLength (.hl33_64 2 1) (withLength L L 0x32210000) L L) ∧
    (∀ L ∈ [32, 33, 64, 65], AtLength (.hl33_64na 2 1) (withLength L L 0x33210000) L L) ∧
    (∀ L ∈ [64, 65, 96, 97], AtLength (.hl65_96 2 1) (withLength L L 0x34210000) L L) ∧
    ∀ p ∈ pathWords, AtLength p.2 (withLength 2 3 p.1) 2 3 := by
  refine ⟨fun L hL => ?_, fun L hL => ?_, fun L hL => ?_, fun L hL => ?_, fun L hL => ?_,
    fun p hp => atLength 2 3 (by decide) (by decide) p (by simp [specWords, hp])⟩ <;>
    have h97 : L < 2 ^ 64 := by revert L; decide
  · exact atLength L L h97 h97 (0x30210000, .hl0_16 2 1) (by decide +kernel)
  · exact atLength L L h97 h97 (0x31210000, .hl17_32 2 1) (by decide +kernel)
  · exact atLength L L h97 h97 (0x32210000, .hl33_64 2 1) (by decide +kernel)
  · exact atLength L L h97 h97 (0x33210000, .hl33_64na 2 1) (by decide +kernel)
  · exact atLength L L h97 h97 (0x34210000, .hl65_96 2 1) (by decide +kernel)

/-- A length one past the buffer, for every length command, and one below and one above a range. -/
theorem witness_LengthCheckFaults :
    (∀ p ∈ pathWords, AtLength p.2 (withLength 2 3 p.1) 2 3 ∧ (withLength 2 3 p.1).stage = .start ∧
      ∃ lo hi, p.2.lengthRange Config.default = some (1, lo, hi)) ∧
    AtLength (.hl17_32 2 1) (withLength 40 16 0x31210000) 40 16 ∧
    AtLength (.hl17_32 2 1) (withLength 40 33 0x31210000) 40 33 := by
  refine ⟨fun p hp => ⟨atLength 2 3 (by decide) (by decide) p (by simp [specWords, hp]), rfl, ?_⟩,
    atLength 40 16 (by decide) (by decide) (0x31210000, .hl17_32 2 1) (by decide +kernel),
    atLength 40 33 (by decide) (by decide) (0x31210000, .hl17_32 2 1) (by decide +kernel)⟩
  simp only [pathWords, List.mem_cons, List.not_mem_nil, or_false] at hp
  rcases hp with rfl | rfl | rfl | rfl | rfl | rfl | rfl | rfl | rfl | rfl <;>
    exact ⟨_, _, rfl⟩

/-- The words of the loop commands, with the length above which each is a loop. -/
def loopWords : List ((CmdWord × Instr) × Nat) :=
  [((0x35210000, .na64 2 1), 64), ((0x36213400, .na64s 2 1 3 4), 64),
   ((0x37213400, .uo64s 2 1 3 4), 64), ((0x40210000, .hash64 2 1), 96),
   ((0x41213400, .hash64s 2 1 3 4), 64)]

theorem loopWord_spec : ∀ p ∈ loopWords, p.1 ∈ specWords ∧ p.1.2.loopAbove = some (1, p.2) := by
  decide +kernel

/-- On both sides of the lengths where the path changes, and one byte too long for the buffer. -/
theorem witness_LoopCommandsComputeTheirFunctions (p : (CmdWord × Instr) × Nat)
    (hp : p ∈ loopWords) :
    (∀ L ∈ [0, 64, 65, 128], AtLength p.1.2 (withLength L L p.1.1) L L ∧
      L ≤ 2 ^ (withLength L L p.1.1).params.ADDR_W.val - 1) ∧
      AtLength p.1.2 (withLength 64 65 p.1.1) 64 65 :=
  ⟨fun L hL =>
    have h : L < 2 ^ 64 := by revert L; decide
    ⟨atLength L L h h _ (loopWord_spec p hp).1, Nat.le_sub_one_of_lt h⟩,
    atLength 64 65 (by decide) (by decide) _ (loopWord_spec p hp).1⟩

/-- A length past `ADDR_W` bits that the buffer holds: the state is the one above on a machine whose
`ADDR_W` is 6. -/
def pastAddrW (w : CmdWord) : State :=
  { withLength 64 64 w with params := { Config.default with ADDR_W := 6 } }

theorem pastAddrW_reg (w : CmdWord) : ((pastAddrW w).reg 1).toNat = 64 :=
  withLength_reg (by decide) 64 w

theorem pastAddrW_len (w : CmdWord) : (pastAddrW w).buf.len.toNat = 64 :=
  withLength_len (by decide) 64 w

theorem witness_LoopCommandsPastADDR_W (p : (CmdWord × Instr) × Nat) (hp : p ∈ loopWords) :
    Ready p.1.2 (pastAddrW p.1.1) ∧
      ((pastAddrW p.1.1).reg 1).toNat ≤ (pastAddrW p.1.1).buf.len.toNat ∧
      ((pastAddrW p.1.1).reg 1).toNat > 2 ^ (pastAddrW p.1.1).params.ADDR_W.val - 1 :=
  have h := (atLength 64 64 (by decide) (by decide) _ (loopWord_spec p hp).1).ready
  ⟨⟨h.latched, h.running, h.stage, h.undisturbed⟩, by rw [pastAddrW_reg, pastAddrW_len],
    by rw [pastAddrW_reg]; show 64 > 2 ^ 6 - 1; decide⟩

theorem witness_HashCommandsComputeTheDispatcher (p : (CmdWord × Instr) × Nat)
    (hp : p ∈ loopWords) :
    (∀ L ∈ [16, 17, 32, 33, 64, 65, 96, 97, 256, 257],
      AtLength p.1.2 (withLength L L p.1.1) L L ∧
        L ≤ 2 ^ (withLength L L p.1.1).params.ADDR_W.val - 1) ∧
      AtLength p.1.2 (withLength 256 257 p.1.1) 256 257 :=
  ⟨fun L hL =>
    have h : L < 2 ^ 64 := by revert L; decide
    ⟨atLength L L h h _ (loopWord_spec p hp).1, Nat.le_sub_one_of_lt h⟩,
    atLength 256 257 (by decide) (by decide) _ (loopWord_spec p hp).1⟩

/-- Every length where a path changes, and a one-seed value that is there and one that is not. -/
theorem witness_PathsAgreeWhereTheDispatcherSays :
    (∀ L ∈ [0, 16, 17, 32, 33, 64, 65, 96, 97, 256, 257], (BitVec.ofNat 64 L).toNat = L) ∧
    (∃ h, na64 Config.default (Buffer.ofBytes (seq 65)) 65 = .ok h) ∧
    na64 Config.default (Buffer.ofBytes []) 1 = .error 0 :=
  ⟨by decide +kernel, ok_of_answers (by decide +kernel), rfl⟩

/-! ### Witnesses: the loops -/

theorem witness_LoopBoundsCoverTheInput :
    64 < (65 : Word).toNat ∧ 64 < (128 : Word).toNat ∧ 64 < (0xFFFFFFFFFFFFFFFF : Word).toNat := by
  decide

/-- One block, the shortest and a longer tail, one iteration and two, and the default multiplier. -/
theorem witness_NaLoopFollowsItsFormulas :
    (8 ≤ (Buffer.ofBytes (seq 8)).len.toNat ∧ 0 + 64 ≤ (Buffer.ofBytes (seq 64)).len.toNat) ∧
    (∀ L ∈ [64, 65, 128, 129],
      64 ≤ (BitVec.ofNat 64 L).toNat ∧
        (BitVec.ofNat 64 L).toNat ≤ (Buffer.ofBytes (seq L)).len.toNat) ∧
    (∀ L ∈ [65, 128, 129], 64 < (BitVec.ofNat 64 L).toNat) ∧
    (∃ acc', naTail Config.default (Buffer.ofBytes (seq 65)) 65 Acc.zero = .ok acc') ∧
    Config.default.K1.getLsbD 0 = true ∧ Config.default.K1.toNat + 510 < 2 ^ 64 :=
  ⟨by decide +kernel, by decide +kernel, by decide +kernel, ok_of_answers (by decide +kernel),
    by decide, by decide⟩

theorem witness_UoLoopFollowsItsFormulas :
    0 + 64 ≤ (Buffer.ofBytes (seq 64)).len.toNat ∧
    (∀ L ∈ [64, 65, 128, 129],
      64 ≤ (BitVec.ofNat 64 L).toNat ∧
        (BitVec.ofNat 64 L).toNat ≤ (Buffer.ofBytes (seq L)).len.toNat) ∧
    ∀ L ∈ [65, 128, 129], 64 < (BitVec.ofNat 64 L).toNat := by decide +kernel

/-- After no step, one step and three of its four a loop command still runs, after four it has ended;
and it waits through two turns before it runs. -/
theorem witness_StepSplittingIsUnobservable :
    (CoreInv (withLength 65 65 0x35210000) ∧ (withLength 65 65 0x35210000).phase = .run) ∧
    (∀ n ∈ [0, 1, 3], ∃ t, coreSteps n (withLength 65 65 0x35210000) = .next t ∧
      (t.phase == .run) = true) ∧
    (∃ t, coreSteps 4 (withLength 65 65 0x35210000) = .next t ∧ (t.phase == .idle) = true) ∧
    ({ withLength 65 65 0x35210000 with
        agenda := [.coreSteps 0, .coreSteps 0, .coreRun] } : State).agenda =
      List.replicate 2 (.coreSteps 0) ++ .coreRun :: [] :=
  ⟨⟨coreInv_accepted _ (by rw [seq_length]; decide) _ _, rfl⟩,
    fun n hn => next_of_holds (by revert n; decide +kernel), next_of_holds (by decide +kernel), rfl⟩

theorem witness_LoopCommandStepCount (p : (CmdWord × Instr) × Nat) (hp : p ∈ loopWords) :
    AtLength p.1.2 (withLength (p.2 + 1) (p.2 + 1) p.1.1) (p.2 + 1) (p.2 + 1) ∧
      p.1.2.loopAbove = some (1, p.2) ∧ (withLength (p.2 + 1) (p.2 + 1) p.1.1).phase = .run ∧
      p.2 + 1 ≤ (withLength (p.2 + 1) (p.2 + 1) p.1.1).params.maxLen :=
  have h : p.2 + 1 < 2 ^ 64 := by revert p; decide +kernel
  ⟨atLength _ _ h h _ (loopWord_spec p hp).1, (loopWord_spec p hp).2, rfl,
    Nat.le_sub_one_of_lt h⟩

/-- A command that is no loop, the longest closed form of each loop command, and a length one past the
buffer. -/
theorem witness_LoopCommandStepCount_one :
    ((∀ p ∈ specWords, decode (accepted [] [] p.1).cwl = .ok p.2) ∧
      ((0x01312000, .add 3 1 2) : CmdWord × Instr) ∈ specWords ∧
      (Instr.add 3 1 2).loopAbove = none ∧
      CoreInv (accepted [] [] 0x01312000) ∧ (accepted [] [] 0x01312000).phase = .run) ∧
    ∀ p ∈ loopWords, p.1.2.loopAbove = some (1, p.2) ∧
      AtLength p.1.2 (withLength p.2 p.2 p.1.1) p.2 p.2 ∧
      AtLength p.1.2 (withLength p.2 (p.2 + 1) p.1.1) p.2 (p.2 + 1) ∧
      ∀ L, CoreInv (withLength p.2 L p.1.1) ∧ (withLength p.2 L p.1.1).phase = .run :=
  ⟨⟨test_decode_every_command, by decide +kernel, rfl, coreInv_accepted _ (by decide) _ _, rfl⟩,
    fun p hp =>
    have h : p.2 + 1 < 2 ^ 64 := by revert p; decide +kernel
    have h' := Nat.lt_of_succ_lt h
    ⟨(loopWord_spec p hp).2, atLength _ _ h' h' _ (loopWord_spec p hp).1,
      atLength _ _ h' h _ (loopWord_spec p hp).1,
      fun _ => ⟨coreInv_accepted _ (by rw [seq_length]; exact h') _ _, rfl⟩⟩⟩

theorem witness_EveryCommandTerminates (w : CmdWord) :
    CoreInv (accepted (seq 16) [(1, 9)] w) ∧ (accepted (seq 16) [(1, 9)] w).phase = .run :=
  ⟨coreInv_accepted _ (by rw [seq_length]; decide) _ _, rfl⟩

/-! ### Witnesses: what the commands leave alone -/

/-- A completion and a fault. -/
theorem witness_CommandFrame :
    (∃ t, exec (.add 3 1 2) (accepted [] [] 0x01312000) = .next t ∧
      (!t.status.fault) = true) ∧
    ∃ t, exec (.rdb 2 1) (accepted [] [] 0x10210000) = .next t ∧ t.status.fault = true :=
  ⟨next_of_holds (by decide +kernel), next_of_holds (by decide +kernel)⟩

theorem witness_FaultsArePrecise :
    (accepted [] [] 0x10210000).status.fault = false ∧
      ∃ t, exec (.rdb 2 1) (accepted [] [] 0x10210000) = .next t ∧ t.status.fault = true :=
  ⟨rfl, next_of_holds (by decide +kernel)⟩

/-- Each of the three causes a command can raise. -/
theorem witness_FaultCausesAndInformation :
    (∃ t, exec (.wpmix 0 11) (accepted [] [] 0x230B0000) = .next t ∧
      (t.status.fault && t.status.cause == .illegalOperand) = true) ∧
    (∃ t, exec (.hl17_32 2 1) (withLength 40 16 0x31210000) = .next t ∧
      (t.status.fault && t.status.cause == .badLength) = true) ∧
    ∃ t, exec (.h32 5 1 2 3) (accepted (seq 31) [] 0x26512300) = .next t ∧
      (t.status.fault && t.status.cause == .oobRead) = true :=
  ⟨next_of_holds (by decide +kernel), next_of_holds (by decide +kernel),
    next_of_holds (by decide +kernel)⟩

theorem witness_LengthCommandsReadInsideTheLength :
    ∀ L ∈ [0, 16, 17, 32, 33, 64, 65, 96, 97],
      (BitVec.ofNat 64 L).toNat ≤ (Buffer.ofBytes (seq 100)).len.toNat := by decide +kernel

/-- Two buffers that differ past the first two bytes. -/
theorem witness_HashIgnoresBytesPastTheLength :
    let B := Buffer.ofBytes [1, 2, 3]
    let B' := Buffer.ofBytes [1, 2, 4, 5]
    (2 : Word).toNat ≤ B.len.toNat ∧ (2 : Word).toNat ≤ B'.len.toNat ∧
      (∀ k, k < (2 : Word).toNat → B.byteAt k = B'.byteAt k) ∧ B.byteAt 2 ≠ B'.byteAt 2 := by
  decide +kernel

theorem ready_mov : Ready (.mov 2 1) (accepted [] [(1, 7), (5, 9)] 0x0F210000) :=
  ready_accepted (by decide +kernel)

/-- Two states that differ in a register the command does not name and in the accumulator. -/
theorem witness_ResultsDependOnOperandsAndBufferAlone :
    let s := accepted [] [(1, 7)] 0x0F210000
    let s' : State :=
      { accepted [] [(1, 7), (5, 9)] 0x0F210000 with acc := { Acc.zero with u := 3 } }
    Ready (.mov 2 1) s ∧ Ready (.mov 2 1) s' ∧ s.buf = s'.buf ∧ s.cwl = s'.cwl ∧
      s.params = s'.params ∧ s.status = s'.status ∧ s.status.fault = false ∧
      (∀ r ∈ (Instr.mov 2 1).sources, s.reg r = s'.reg r) ∧
      (∃ t, exec (.mov 2 1) s = .next t ∧ (t.reg 2 == 7) = true) ∧
      ∃ t, exec (.mov 2 1) s' = .next t ∧ (t.reg 2 == 7) = true :=
  ⟨ready_accepted (by decide +kernel), ⟨ready_mov.latched, rfl, rfl, rfl⟩, rfl, rfl, rfl, rfl, rfl,
    by decide +kernel,
    next_of_holds (by decide +kernel), next_of_holds (by decide +kernel)⟩

theorem witness_NothingShowsBeforeCompletion :
    (withLength 65 65 0x35210000).phase = .run ∧
      ∀ n ∈ [0, 1, 3], ∃ t, coreSteps n (withLength 65 65 0x35210000) = .next t ∧
        (t.phase == .run) = true :=
  ⟨rfl, fun n hn => next_of_holds (by revert n; decide +kernel)⟩

/-- A read whose buffer the host changes while it runs. -/
theorem witness_DisturbedBufferLeavesAllButTheResult :
    let s := accepted (seq 16) [(1, 8)] 0x12210000
    CoreInv s ∧ s.phase = .run ∧ decode s.cwl = .ok (.rdle64 2 1) ∧
      (∃ t, coreRun s = .next t ∧ t.status.done = true) ∧
      ∃ t, coreRun { s with disturbed := true, buf := { s.buf with cells := [(8, 1)] } } = .next t ∧
        t.status.done = true :=
  ⟨coreInv_accepted _ (by rw [seq_length]; decide) _ _, rfl, by decide +kernel,
    next_of_holds (by decide +kernel), next_of_holds (by decide +kernel)⟩

theorem witness_CoreNeverWritesTheBuffer :
    (∀ a rest, (accepted (seq 16) [(1, 8)] 0x12210000).agenda ≠ .host a :: rest) ∧
      ∃ t, step (accepted (seq 16) [(1, 8)] 0x12210000) = .next t ∧ t.status.done = true :=
  ⟨nofun, next_of_holds (by decide +kernel)⟩

/-! ### Witnesses: the invariant -/

/-- A command accepted, completed, and a fault taken. -/
theorem witness_StepKeepsTheInvariant :
    let s := accepted (seq 16) [(1, 9)] 0x12210000
    CoreInv s ∧ (∃ t, step s = .next t ∧ t.status.fault = true) ∧ CoreInv faulted ∧
      ∃ t, step (turn (.write 0x008 64 4) faulted) = .next t ∧ (!t.status.fault) = true :=
  ⟨coreInv_accepted _ (by rw [seq_length]; decide) _ _, next_of_holds (by decide +kernel),
    coreInv_faulted, next_of_holds (by decide +kernel)⟩

theorem witness_OnlyResetStopsARunningCommand :
    let s := turn (.write 0x000 64 0) (accepted (seq 16) [(1, 9)] 0x12210000)
    s.phase = .run ∧ s.agenda = [.host (.write 0x000 64 0)] ∧
      HostAction.write 0x000 64 0 ≠ .reset ∧ CoreInv (accepted (seq 16) [(1, 9)] 0x12210000) ∧
      ∃ t, step s = .next t ∧ t.status.ovr = true :=
  ⟨rfl, rfl, by decide, coreInv_accepted _ (by rw [seq_length]; decide) _ _,
    next_of_holds (by decide +kernel)⟩

theorem witness_IdleCoreDoesNothing :
    State.reset.phase = .idle ∧ State.reset.agenda = [] ∧ CoreInv faulted ∧
      faulted.status.fault = true := ⟨rfl, rfl, coreInv_faulted, rfl⟩

/-! ### Witnesses: the host's side -/

theorem witness_ResetActionFromAnyState :
    (turn .reset busy).agenda = [.host .reset] ∧ (turn .reset busy).phase = .run := ⟨rfl, rfl⟩

/-- Each W1C bit of a write, and none. -/
theorem witness_StatusWriteClearsOnlyTheBitsSet :
    ∀ v ∈ [(0x0 : Word), 0x2, 0x4, 0x8, 0xE, 0xFFFFFFFFFFFFFFF1],
      (turn (.write 0x008 64 v) faulted).agenda = [.host (.write 0x008 64 v)] := fun _ _ => rfl

theorem witness_StatusReadShowsItsFields :
    (turn (.read 0x008 64) faulted).agenda = [.host (.read 0x008 64)] ∧
      faulted.status.word = 0x404 := ⟨rfl, by decide +kernel⟩

/-- The ends of the reserved range, and the first and last operand registers. -/
theorem witness_HostReadsFollowTheRegisterMap :
    (∀ off ∈ [0x000, 0x010, 0x018, 0x020, 0x028, 0x0F8, 0x100, 0x178],
      (turn (.read off 64) faulted).agenda = [.host (.read off 64)]) ∧
    (0x028 % 8 = 0 ∧ 0x0F8 % 8 = 0) ∧ 0x100 = 0x100 + 8 * (0 : Reg).val ∧
      0x178 = 0x100 + 8 * (15 : Reg).val := ⟨fun _ _ => rfl, by decide, by decide, by decide⟩

/-- On both sides of every bound. -/
theorem witness_AccessesOutsideTheMapAreRefused :
    (∀ p ∈ [(0x178, 64), (0x180, 64), (0x004, 64), (0x008, 32)],
      (turn (.read p.1 p.2) faulted).agenda = [.host (.read p.1 p.2)] ∧
        (turn (.write p.1 p.2 1) faulted).agenda = [.host (.write p.1 p.2 1)]) ∧
    ¬((64 : Nat) ≠ 64 ∨ 0x178 % 8 ≠ 0 ∨ 0x178 > 0x178) ∧ 0x180 > 0x178 ∧ 0x004 % 8 ≠ 0 ∧
      (32 : Nat) ≠ 64 := ⟨fun _ _ => ⟨rfl, rfl⟩, by decide, by decide, by decide, by decide⟩

theorem witness_HostWritesFollowTheRegisterMap :
    (∀ off ∈ [0x010, 0x018, 0x020, 0x028, 0x0F8, 0x100, 0x178],
      (turn (.write off 64 5) faulted).agenda = [.host (.write off 64 5)]) ∧
    faulted.status.busy = false := ⟨fun _ _ => rfl, rfl⟩

/-- The empty sequence, and the shortest one that is too long. -/
theorem witness_AttachSetsTheBuffer :
    (turn (.attach []) State.reset).agenda = [.host (.attach [])] ∧
      State.reset.status.busy = false ∧
      ([] : List Byte).length ≤ 2 ^ State.reset.params.ADDR_W.val - 1 ∧
      (List.replicate (2 ^ 64) (0 : Byte)).length > 2 ^ State.reset.params.ADDR_W.val - 1 :=
  ⟨rfl, rfl, by decide, by rw [List.length_replicate]; decide⟩

/-- The last byte of the buffer and the first offset past it. -/
theorem witness_BackingChangeTouchesOneByte :
    Buffer.wf (accepted (seq 16) [] 0x10210000).buf ∧
      (∀ off ∈ [15, 16],
        (turn (.changeBacking off 0) (accepted (seq 16) [] 0x10210000)).agenda =
          [.host (.changeBacking off 0)]) ∧
      (accepted (seq 16) [] 0x10210000).buf.len.toNat = 16 :=
  ⟨Buffer.wf_ofBytes _ (by rw [seq_length]; decide), fun _ _ => rfl, by decide +kernel⟩

/-- The four ignored writes; `OVR` falling by each of the two ways; a running command; an acceptance
with `OVR` set; writes to `STATUS` and `CTRL`. -/
theorem witness_IgnoredWritesSetOvr :
    (busy.status.busy = true ∧ faulted.status.fault = true) ∧
    (∀ a ∈ [HostAction.write 0x000 64 7, .write (0x100 + 8 * (15 : Reg).val) 64 7, .attach [1],
        .write 0x008 64 8, .write 0x010 64 1],
      (turn a busy).agenda = [.host a]) ∧
    (∃ t, step (turn (.write 0x008 64 8) busy.setOvr) = .next t ∧ (!t.status.ovr) = true) ∧
    (∃ t, step (turn .reset busy.setOvr) = .next t ∧ (!t.status.ovr) = true) ∧
    (CoreInv busy ∧ busy.phase = .run) ∧
    ∃ t, step (turn (.write 0x000 64 0x0D300001) completed.setOvr) = .next t ∧
      (t.status.busy && t.status.ovr) = true :=
  ⟨⟨rfl, rfl⟩, fun _ _ => rfl, next_of_holds (by decide +kernel), next_of_holds (by decide +kernel),
    ⟨coreInv_accepted [] (by decide) [] _, rfl⟩, next_of_holds (by decide +kernel)⟩

theorem witness_FaultEndsWithAStatusWrite :
    faulted.status.busy = false ∧ faulted.status.fault = true ∧ (4 : Word).getLsbD 2 = true ∧
      (∀ a ∈ [HostAction.write 0x000 64 7, .write 0x100 64 7, .write 0x010 64 1, .attach []],
        (turn a faulted).agenda = [.host a]) ∧
      ([] : List Byte).length ≤ 2 ^ faulted.params.ADDR_W.val - 1 :=
  ⟨rfl, rfl, by decide, fun _ _ => rfl, by decide⟩

/-- The four ways the signal falls. -/
theorem witness_CompletionSignalFollowsDoneAndFault :
    (∃ t, step (turn (.write 0x008 64 2) { completed with ie := true }) = .next t ∧
      (!t.irq) = true) ∧
    (∃ t, step (turn (.write 0x008 64 4) { faulted with ie := true }) = .next t ∧
      (!t.irq) = true) ∧
    (∃ t, step (turn (.write 0x010 64 0) { completed with ie := true }) = .next t ∧
      (!t.irq) = true) ∧
    ∃ t, step (turn (.write 0x000 64 0x0D300001) { completed with ie := true }) = .next t ∧
      (!t.irq) = true :=
  ⟨next_of_holds (by decide +kernel), next_of_holds (by decide +kernel),
    next_of_holds (by decide +kernel), next_of_holds (by decide +kernel)⟩

end Sys2Proof.Tests
end

/-! The state after reset (R36) and a host write to `STATUS` (R23): the rules for what reset and a
`STATUS` write do to what the host sees, and the two statements assembled from them. -/

namespace Sys2Proof.Machine

/-! ### The state after reset (R36) -/

@[simp] theorem reg_reset (r : Reg) : State.reset.reg r = 0 := by
  simp [State.reg, State.reset]

/-- Every host register of the map of R20 reads 0 after reset. -/
@[simp] theorem hostValue_reset (q : HostReg) : State.reset.hostValue q = 0 := by
  cases q with
  | cmd | status | ctrl | finfo | buflen | reserved => rfl
  | operand r => exact reg_reset r

/-- Settles O49: every register of the host's map, read after reset, is 0, and the other fields are
those `State.reset` names. -/
theorem resetState : Obligations.ResetState :=
  ⟨reg_reset, hostValue_reset .cmd, hostValue_reset .status, hostValue_reset .ctrl,
    hostValue_reset .finfo, hostValue_reset .buflen, rfl, rfl, rfl⟩

/-! ### A host write (R20, R23) -/

/-- A host write to a listed register is one step that does what `hostWrite` says. -/
theorem step_of_hostWrite {s : State} {off width : Nat} {v : Word} {rest : List Turn} {q : HostReg}
    (h : s.agenda = .host (.write off width v) :: rest) (hq : accessed off width = some q) :
    step s = .next (State.hostWrite { s with agenda := rest } v q) := by
  rw [step_of_host h, hostAct, hq]

/-- `DONE` cleared when the bit `b` says so. -/
theorem status_clearDone_if (s : State) (b : Bool) :
    (if b then s.clearDone else s).status = { s.status with done := s.status.done && !b } := by
  cases b <;> simp

/-- `FAULT` and `CAUSE` cleared together when the bit `b` says so. -/
theorem status_clearFault_if (s : State) (b : Bool) :
    (if b then s.clearFault else s).status =
      { s.status with
        fault := s.status.fault && !b, cause := if b then .none else s.status.cause } := by
  cases b <;> simp

/-- `OVR` cleared when the bit `b` says so. -/
theorem status_clearOvr_if (s : State) (b : Bool) :
    (if b then s.clearOvr else s).status = { s.status with ovr := s.status.ovr && !b } := by
  cases b <;> simp

/-- The fields of `STATUS` after a write: each W1C bit on its own, and `CAUSE` with `FAULT`. -/
theorem writeStatus_status (s : State) (v : Word) :
    (s.writeStatus v).status =
      { busy := s.status.busy
        done := s.status.done && !v.getLsbD 1
        fault := s.status.fault && !v.getLsbD 2
        ovr := s.status.ovr && !v.getLsbD 3
        cause := if v.getLsbD 2 then .none else s.status.cause } := by
  rw [State.writeStatus, status_clearOvr_if, status_clearFault_if, status_clearDone_if]

/-- `FINFO` is cleared by the bit of `FAULT` alone. -/
theorem writeStatus_finfo (s : State) (v : Word) :
    (s.writeStatus v).finfo = if v.getLsbD 2 then 0 else s.finfo := by
  simp only [State.writeStatus]
  split_ifs <;> rfl

/-- Settles O51: the write reaches `writeStatus`, which touches `STATUS` and `FINFO` alone and each
of their fields by its own bit. -/
theorem statusWriteClearsOnlyTheBitsSet : Obligations.StatusWriteClearsOnlyTheBitsSet := by
  intro s v rest h
  have hq : accessed 0x008 64 = some .status := rfl
  rw [step_of_hostWrite h hq, State.hostWrite, writeStatus_outside, writeStatus_status,
    writeStatus_finfo]

end Sys2Proof.Machine

/-! The reader port (R40): the recursion by which the model reads bytes is R40's sum over the byte
offsets, so a read in range answers that sum. -/

namespace Sys2Proof.Machine

/-- R40's sum with its lowest byte taken out: the bytes above it are the sum from the next offset. -/
theorem leSum_succ (B : Buffer) (off n : Nat) :
    leSum B off (n + 1) = (B.byteAt off).toNat + 2 ^ 8 * leSum B (off + 1) n := by
  have hterm : ∀ k, (B.byteAt (off + (k + 1))).toNat * 2 ^ (8 * (k + 1)) =
      2 ^ 8 * ((B.byteAt (off + 1 + k)).toNat * 2 ^ (8 * k)) := by
    intro k
    rw [Nat.add_right_comm off 1 k, Nat.add_assoc off k 1, Nat.mul_succ, Nat.pow_add]
    ac_rfl
  simp [leSum, List.range_succ_eq_map, Function.comp_def, hterm, List.sum_map_mul_left]

/-- The bytes the model reads are R40's sum, at every offset and width. -/
theorem leBytes_eq_leSum (B : Buffer) (off n : Nat) : leBytes B off n = leSum B off n := by
  induction n generalizing off with
  | zero => rfl
  | succ n ih => rw [leBytes, leSum_succ, ih]

/-- A read in range answers R40's sum. -/
theorem memRead_eq_wordAt {B : Buffer} {off n : Nat} (h : off + n ≤ B.len.toNat) :
    memRead B off n = .ok (wordAt B off n) := by
  rw [memRead_ok h, leBytes_eq_leSum, wordAt]

/-- Settles O15: out of range the offset is the fault's, in range the bytes read are R40's sum. -/
theorem readerPortReadsLittleEndian : Obligations.ReaderPortReadsLittleEndian :=
  fun _ _ _ => ⟨memRead_error, memRead_eq_wordAt⟩

end Sys2Proof.Machine

/-! Illegal words (R59, R60): a word with a reserved opcode has no row, a word with a row that fails
a check decodes to an error of cause `ILLEGAL_OPERAND`, and a running core whose word does not decode
faults in its first step, however its turn counts the steps. -/

namespace Sys2Proof

/-- R59's ranges have no row in the opcode map. -/
theorem opcodeRow_reserved {o : Nat}
    (h : o = 0x00 ∨ (0x13 ≤ o ∧ o ≤ 0x1F) ∨ (0x27 ≤ o ∧ o ≤ 0x2F) ∨ (0x38 ≤ o ∧ o ≤ 0x3F) ∨
      (0x42 ≤ o ∧ o ≤ 0xFF)) : opcodeRow o = none := by
  apply opcodeRow.eq_36 <;> omega

/-- The opcode is everything above bit 23. -/
theorem opcodeOf_eq_div (w : CmdWord) : opcodeOf w = w.toNat / 2 ^ 24 := by
  have hw : w.toNat < 2 ^ 32 := w.isLt
  rw [opcodeOf, bits, Nat.mod_eq_of_lt (by omega)]

/-- A word whose opcode has no row fails the first check. -/
theorem decode_of_opcodeRow_none {w : CmdWord} (h : opcodeRow (opcodeOf w) = none) :
    decode w = .error .reservedOpcode := by
  simp only [decode, h]

namespace Machine

/-- R60: a word whose opcode has a row and that fails one of the checks (a) to (d) decodes to an
error, and every one of their errors has the cause `ILLEGAL_OPERAND`. -/
theorem decode_illegalOperand {w : CmdWord} {form : Form} {build : Fields → Instr}
    (hrow : opcodeRow (opcodeOf w) = some (form, build))
    (h : (fieldsOf w).rsv ≠ 0 ∨ unusedZero form (fieldsOf w) = false ∨
      (build (fieldsOf w)).groupsFit = false ∨ (build (fieldsOf w)).romIndexOk = false) :
    ∃ e, decode w = .error e ∧ causeOf e = .illegalOperand := by
  simp only [decode, hrow]
  split_ifs with hrsv hunused hgroups hrom
  · exact ⟨.reservedBits, rfl, rfl⟩
  · exact ⟨.unusedField, rfl, rfl⟩
  · exact ⟨.groupPastR15, rfl, rfl⟩
  · exact ⟨.romIndex, rfl, rfl⟩
  · exact (h.elim hrsv fun h => h.elim hunused fun h => h.elim hgroups hrom).elim

/-- R135: a running core whose word does not decode takes the error's fault with the word as its
information, in a merged run and in every turn of one step or more: after the fault it is idle. -/
theorem core_faults_of_error {s : State} (hp : s.phase = .run) {e : DecodeError}
    (hd : decode s.cwl = .error e) :
    ∃ t, coreRun s = .next t ∧ (∀ n, coreSteps (n + 1) s = .next t) ∧
      Faulted s t (causeOf e) (s.cwl.setWidth 64) := by
  have hf := faulted_takeFault s (causeOf e) (s.cwl.setWidth 64)
  refine ⟨_, running_of_error hp hd _, fun n => ?_, hf⟩
  rw [coreSteps_succ (running_of_error hp hd _), coreSteps_idle hf.phase]

/-- Settles O5: a reserved opcode has no row, so the word does not decode and the core faults. -/
theorem reservedOpcodesFault : Obligations.ReservedOpcodesFault := by
  intro s hp hrange
  have hrow : opcodeRow (opcodeOf s.cwl) = none := opcodeOf_eq_div s.cwl ▸ opcodeRow_reserved hrange
  exact core_faults_of_error hp (decode_of_opcodeRow_none hrow)

/-- Settles O6: the failed check makes the word decode to an error of cause `ILLEGAL_OPERAND`, before
any command runs. -/
theorem illegalOperandsFault : Obligations.IllegalOperandsFault := by
  intro s form build hp hrow hbad
  obtain ⟨e, hd, hcause⟩ := decode_illegalOperand hrow hbad
  exact hcause ▸ core_faults_of_error hp hd

end Machine

end Sys2Proof

/-! The primitives and the datapath commands (R67 to R84). Each stands for its row of the opcode map
and computes from its latched operands, which in a ready state are the registers. So each command
needs only its operation: a rule for those that complete, by how many sources they have, and one for
those that read the buffer. -/

namespace Sys2Proof

open Laws

/-- A well-formed command decodes from its own word, once its row of the opcode map is known. -/
theorem decode_encode_of_row {i : Instr} (hrow : EncodedRow.Statement i)
    (hwf : i.wellFormed = true) : decode (encode i) = .ok i := by
  obtain ⟨form, build, hopc, hrsv, hunused, hbuild⟩ := hrow
  obtain ⟨hgroups, hrom⟩ := Bool.and_eq_true_iff.1 hwf
  simp [decode, hopc, hrsv, hunused, hbuild, hgroups, hrom]

namespace Machine

/-! ### Commands that complete from every ready state -/

/-- A command whose run on latched operands is a completion means those writes. -/
theorem commandMeans_of_complete {i : Instr} {ws : State → List (Reg × Word)}
    (hrow : EncodedRow.Statement i) (hwf : i.wellFormed = true)
    (hexec : ∀ s, Latched i s → exec i s = .next (s.complete (ws s))) :
    CommandMeans (encode i) i ws where
  word := decode_encode_of_row hrow hwf
  run s hs := ⟨_, hexec s hs.latched, completed_undisturbed hs.undisturbed (ws s)⟩

/-- A command with one source register: `R[d] <- f(R[a])`. -/
theorem commandMeans_unary {i : Instr} {d a : Reg} (f : Word → Word)
    (hrow : EncodedRow.Statement i) (hwf : i.wellFormed = true) (hsources : i.sources = [a])
    (hexec : ∀ s, exec i s = .next (s.complete [(d, f (s.operand a))])) :
    CommandMeans (encode i) i fun s => [(d, f (s.reg a))] := by
  refine commandMeans_of_complete hrow hwf fun s hs => ?_
  have ha : s.operand a = s.reg a := hs a (by simp [hsources])
  rw [hexec, ha]

/-- A command with two source registers `a` and `b`: its writes are a function of both. -/
theorem commandMeans_binary {i : Instr} {a b : Reg} (ws : Word → Word → List (Reg × Word))
    (hrow : EncodedRow.Statement i) (hwf : i.wellFormed = true) (hsources : i.sources = [a, b])
    (hexec : ∀ s, exec i s = .next (s.complete (ws (s.operand a) (s.operand b)))) :
    CommandMeans (encode i) i fun s => ws (s.reg a) (s.reg b) := by
  refine commandMeans_of_complete hrow hwf fun s hs => ?_
  have ha : s.operand a = s.reg a := hs a (by simp [hsources])
  have hb : s.operand b = s.reg b := hs b (by simp [hsources])
  rw [hexec, ha, hb]

/-- Settles O10: five commands of two sources, each by its own operation. -/
theorem arithmeticAndLogicCommands : Obligations.ArithmeticAndLogicCommands := fun d a b =>
  ⟨commandMeans_binary (fun x y => [(d, x + y)]) (EncodedRow.add d a b) rfl rfl fun _ => rfl,
    commandMeans_binary (fun x y => [(d, x - y)]) (EncodedRow.sub d a b) rfl rfl fun _ => rfl,
    commandMeans_binary (fun x y => [(d, x * y)]) (EncodedRow.mul d a b) rfl rfl fun _ => rfl,
    commandMeans_binary (fun x y => [(d, x ^^^ y)]) (EncodedRow.xor d a b) rfl rfl fun _ => rfl,
    commandMeans_binary (fun x y => [(d, x &&& y)]) (EncodedRow.and d a b) rfl rfl fun _ => rfl⟩

/-- Settles O11: the immediate forms have one source, the register forms two, the second of them the
amount. -/
theorem shiftAndRotateCommands : Obligations.ShiftAndRotateCommands := by
  refine ⟨fun d a n => ⟨?shri, ?shli, ?rotri, ?rotli⟩, fun d a b => ⟨?rotr, ?rotl⟩⟩
  case shri => exact commandMeans_unary (· >>> n.val) (EncodedRow.shri d a n) rfl rfl fun _ => rfl
  case shli => exact commandMeans_unary (· <<< n.val) (EncodedRow.shli d a n) rfl rfl fun _ => rfl
  case rotri => exact commandMeans_unary (rotr · n.val) (EncodedRow.rotri d a n) rfl rfl fun _ => rfl
  case rotli => exact commandMeans_unary (rotl · n.val) (EncodedRow.rotli d a n) rfl rfl fun _ => rfl
  case rotr =>
    exact commandMeans_binary (fun x y => [(d, rotr x (y.toNat % 64))]) (EncodedRow.rotr d a b)
      rfl rfl fun _ => rfl
  case rotl =>
    exact commandMeans_binary (fun x y => [(d, rotl x (y.toNat % 64))]) (EncodedRow.rotl d a b)
      rfl rfl fun _ => rfl

/-! ### The constant ROM (R33, R80) -/

/-- The ROM has no word at an index above 5. -/
theorem rom_eq_none (P : Params) {k : Imm6} (hk : 5 < k.val) : rom P k = none := by
  rw [rom]
  split
  case h_7 => rfl
  all_goals omega

/-- `LDK` of an index that holds a word loads that word. -/
theorem commandMeans_ldk (d : Reg) {k : Imm6} {v : Params → Word} (hk : romIndexFits k = true)
    (hrom : ∀ P, rom P k = some (v P)) :
    CommandMeans (encode (.ldk d k)) (.ldk d k) fun s => [(d, v s.params)] :=
  commandMeans_of_complete (EncodedRow.ldk d k) hk fun s _ => by rw [exec, execLdk, hrom]

/-- `LDK` of an index that holds no word is an illegal operand. -/
theorem ldk_takesFault (d : Reg) {k : Imm6} (s : State) (hk : 5 < k.val) :
    TakesFault (.ldk d k) s .illegalOperand (s.cwl.setWidth 64) := by
  refine ⟨s.illegalOperand, ?_, faulted_takeFault s _ _⟩
  rw [exec, execLdk, rom_eq_none s.params hk]

/-- Settles O13: `SWAP` has two sources, `MOV` one, `LDI` and `LDK` none; an `LDK` index reads the
ROM or, above 5, faults. -/
theorem moveAndConstantCommands : Obligations.MoveAndConstantCommands := by
  refine ⟨fun a b => ?swap, fun d n => ?ldi, fun d => ?ldk, fun d _ s hk => ?fault,
    fun d a => ?mov⟩
  case swap =>
    exact commandMeans_binary (fun x y => [(a, y), (b, x)]) (EncodedRow.swap a b) rfl rfl fun _ => rfl
  case ldi => exact commandMeans_of_complete (EncodedRow.ldi d n) rfl fun _ _ => rfl
  case ldk =>
    refine ⟨?_, ?_, ?_, ?_, ?_, ?_⟩
    all_goals exact commandMeans_ldk d rfl fun _ => rfl
  case fault => exact ldk_takesFault d s hk
  case mov => exact commandMeans_unary id (EncodedRow.mov d a) rfl rfl fun _ => rfl

/-! ### Buffer reads (R82 to R84, R149) -/

/-- A command that ends in `oobRead` at `base + k` takes the read fault of that offset: `FINFO` is
64 bits wide, and no `ADDR_W` is wider, so the offset modulo `2^ADDR_W` fits. -/
theorem takesReadFault_of_oobRead {i : Instr} {s : State} {base : Word} {k : Nat}
    (hexec : exec i s = .next (s.oobRead (base.toNat + k))) : TakesReadFault i s base k := by
  refine ⟨_, ⟨_, hexec, faulted_oobRead s _⟩, ?_, fun hw => ?_⟩
  · have hle : 2 ^ s.params.ADDR_W.val ≤ 2 ^ 64 :=
      Nat.pow_le_pow_right (by decide) (Nat.le_of_lt_succ s.params.ADDR_W.isLt)
    have hpos : 0 < 2 ^ s.params.ADDR_W.val := Nat.two_pow_pos _
    rw [Word.toNat_ofNat, Nat.mod_eq_of_lt ((Nat.mod_lt _ hpos).trans_le hle)]
  · have hw' : s.params.ADDR_W.val = 64 := congrArg Fin.val hw
    rw [hw']
    apply BitVec.eq_of_toNat_eq
    simp

/-- A command that reads `n` bytes at `R[a]` into `R[d]`: in range it completes with R40's sum, out of
range it takes `OOB_READ` at `R[a]`. -/
theorem bufferRead_of_exec {i : Instr} {d a : Reg} {n : Nat} (hsources : i.sources = [a])
    (hexec : ∀ s, exec i s =
      .next (s.completeRead do return [(d, ← memRead s.buf (s.operand a).toNat n)]))
    (s : State) (hs : Ready i s) :
    ((s.reg a).toNat + n ≤ s.buf.len.toNat →
      ∃ t, exec i s = .next t ∧ Completed s t [(d, wordAt s.buf (s.reg a).toNat n)]) ∧
    ((s.reg a).toNat + n > s.buf.len.toNat → TakesReadFault i s (s.reg a) 0) := by
  have ha : s.operand a = s.reg a := hs.latched a (by simp [hsources])
  have hrun := hexec s
  rw [ha] at hrun
  constructor
  · intro hin
    rw [memRead_eq_wordAt hin] at hrun
    exact ⟨_, hrun, completed_undisturbed hs.undisturbed _⟩
  · intro hout
    rw [memRead_error hout] at hrun
    exact takesReadFault_of_oobRead hrun

/-- Settles O17: the three commands read 1, 4 and 8 bytes. -/
theorem bufferReadCommands : Obligations.BufferReadCommands := fun d a =>
  ⟨⟨decode_encode_of_row (EncodedRow.rdb d a) rfl, decode_encode_of_row (EncodedRow.rdle32 d a) rfl,
      decode_encode_of_row (EncodedRow.rdle64 d a) rfl⟩,
    bufferRead_of_exec rfl fun _ => rfl, bufferRead_of_exec rfl fun _ => rfl,
    bufferRead_of_exec rfl fun _ => rfl⟩

end Machine

end Sys2Proof

/-! The combiners (R85 to R98). Each function by the facts its rule states, then each command: those
that complete from every ready state, and those that read a window of the buffer, where the first
read that does not fit names the fault. -/

namespace Sys2Proof.Machine

open Laws

/-! ### ShiftMix (R85) -/

/-- A word whose bits above 46 are 0 has nothing to shift in. -/
theorem shiftMix_of_lt {v : Word} (h : v.toNat < 2 ^ 47) : shiftMix v = v := by
  have hshift : v >>> 47 = 0#64 := by
    apply BitVec.eq_of_toNat_eq
    rw [BitVec.toNat_ushiftRight, Nat.shiftRight_eq_div_pow, Nat.div_eq_of_lt h]
    rfl
  rw [shiftMix, hshift, BitVec.xor_zero]

/-- `ShiftMix` undoes itself: a second shift by 47 leaves no bit of the first. -/
theorem shiftMix_involutive : Function.Involutive shiftMix := by
  intro v
  have htwice : v >>> 47 >>> 47 = 0#64 := by
    rw [← BitVec.shiftRight_add]
    exact BitVec.ushiftRight_eq_zero (by decide)
  rw [shiftMix, shiftMix, BitVec.ushiftRight_xor_distrib, htwice, BitVec.xor_zero, BitVec.xor_assoc,
    BitVec.xor_self, BitVec.xor_zero]

@[simp] theorem shiftMix_zero : shiftMix 0#64 = 0#64 := shiftMix_of_lt (by decide)

/-- Settles O18: `SHIFTMIX` has one source; its function is its own inverse, so a bijection. -/
theorem shiftMixCommandIsABijection : Obligations.ShiftMixCommandIsABijection :=
  ⟨fun d a => commandMeans_unary shiftMix (EncodedRow.shiftmix d a) rfl rfl fun _ => rfl,
    fun _ => rfl, fun _ => shiftMix_of_lt, rfl, fun _ _ h => shiftMix_involutive.injective h,
    shiftMix_involutive.surjective⟩

/-! ### HashLen16, Hash128to64 and H (R87 to R90, R95, R96) -/

/-- A command with three source registers: `R[d] <- f(R[a], R[b], R[c])`. -/
theorem commandMeans_ternary {i : Instr} {d a b c : Reg} (f : Word → Word → Word → Word)
    (hrow : EncodedRow.Statement i) (hwf : i.wellFormed = true) (hsources : i.sources = [a, b, c])
    (hexec : ∀ s,
      exec i s = .next (s.complete [(d, f (s.operand a) (s.operand b) (s.operand c))])) :
    CommandMeans (encode i) i fun s => [(d, f (s.reg a) (s.reg b) (s.reg c))] := by
  refine commandMeans_of_complete hrow hwf fun s hs => ?_
  have ha : s.operand a = s.reg a := hs a (by simp [hsources])
  have hb : s.operand b = s.reg b := hs b (by simp [hsources])
  have hc : s.operand c = s.reg c := hs c (by simp [hsources])
  rw [hexec, ha, hb, hc]

/-- `HL16K` has two sources and takes its multiplier from the ROM. -/
theorem commandMeans_hl16k (d a b : Reg) :
    CommandMeans (encode (.hl16k d a b)) (.hl16k d a b)
      fun s => [(d, hashLen16 (s.reg a) (s.reg b) s.params.KMUL)] := by
  refine commandMeans_of_complete (EncodedRow.hl16k d a b) rfl fun s hs => ?_
  have ha : s.operand a = s.reg a := hs a (by simp [Instr.sources])
  have hb : s.operand b = s.reg b := hs b (by simp [Instr.sources])
  rw [exec, execHl16k, hash128to64, ha, hb]

@[simp] theorem rotr_zero_word (r : Nat) : rotr 0#64 r = 0#64 := by
  simp [rotr]

@[simp] theorem hashLen16_zero_words (mul : Word) : hashLen16 0 0 mul = 0 := by
  simp [hashLen16]

@[simp] theorem hashLen16_zero_mul (u v : Word) : hashLen16 u v 0 = 0 :=
  BitVec.mul_zero

@[simp] theorem avalancheH_zero_words (mul : Word) (r : Nat) : avalancheH 0 0 mul r = 0 := by
  simp [avalancheH]

/-- Settles O19: the formulas are the definitions written out, and a rotation by 0 is none. -/
theorem combinerCommands : Obligations.CombinerCommands := by
  refine ⟨fun d a b c => ?hl16, commandMeans_hl16k, fun d a b c r => ?hmix, fun _ _ _ => rfl,
    fun _ _ _ => rfl, fun _ _ _ _ => ⟨rfl, rfl⟩, hashLen16_zero_words, hashLen16_zero_mul, rfl, rfl,
    avalancheH_zero_words⟩
  case hl16 =>
    exact commandMeans_ternary hashLen16 (EncodedRow.hl16 d a b c) rfl rfl fun _ => rfl
  case hmix =>
    exact commandMeans_ternary (avalancheH · · · r.val) (EncodedRow.hmix d a b c r) rfl rfl
      fun _ => rfl

/-! ### Register groups (R56) -/

theorem groupFits_iff {r : Reg} {n : Nat} : groupFits r n = true ↔ r.val + n ≤ 16 :=
  decide_eq_true_iff

theorem groupReg_val {r : Reg} {k : Nat} (h : r.val + k ≤ 15) : (groupReg r k).val = r.val + k :=
  Nat.mod_eq_of_lt (Nat.lt_succ_of_le h)

/-- A command that ends as an illegal operand takes that fault with its own word. -/
theorem takesFault_of_illegalOperand {i : Instr} {s : State}
    (hexec : exec i s = .next s.illegalOperand) :
    TakesFault i s .illegalOperand (s.cwl.setWidth 64) :=
  ⟨_, hexec, faulted_takeFault s _ _⟩

/-! ### Reads of a window (R40, R92, R97) -/

theorem fetch64_eq_wordAt {B : Buffer} {off : Nat} (h : off + 8 ≤ B.len.toNat) :
    fetch64 B off = .ok (wordAt B off 8) :=
  memRead_eq_wordAt h

theorem fetch64_error {B : Buffer} {off : Nat} (h : B.len.toNat < off + 8) :
    fetch64 B off = .error off :=
  memRead_error h

/-- A window in range: all four reads answer. -/
theorem weakPairMixAt_eq_ok {B : Buffer} {off : Nat} (a b : Word) (h : off + 32 ≤ B.len.toNat) :
    weakPairMixAt B off a b = .ok (weakPairMix (wordAt B off 8) (wordAt B (off + 8) 8)
      (wordAt B (off + 16) 8) (wordAt B (off + 24) 8) a b) := by
  rw [weakPairMixAt, fetch64_eq_wordAt (by omega), fetch64_eq_wordAt (by omega),
    fetch64_eq_wordAt (by omega), fetch64_eq_wordAt (by omega)]
  rfl

/-- R94: a window out of range answers the offset of its first read, in ascending order, that does
not fit. -/
theorem weakPairMixAt_eq_error {B : Buffer} {off k : Nat} (a b : Word) (hk : k < 4)
    (hout : B.len.toNat < off + 8 * k + 8) (hin : ∀ j, j < k → off + 8 * j + 8 ≤ B.len.toNat) :
    weakPairMixAt B off a b = .error (off + 8 * k) := by
  rw [weakPairMixAt]
  match k, hk with
  | 0, _ =>
    rw [fetch64_error hout]
    rfl
  | 1, _ =>
    rw [fetch64_eq_wordAt (hin 0 (by decide)), fetch64_error hout]
    rfl
  | 2, _ =>
    rw [fetch64_eq_wordAt (hin 0 (by decide)), fetch64_eq_wordAt (hin 1 (by decide)),
      fetch64_error hout]
    rfl
  | 3, _ =>
    rw [fetch64_eq_wordAt (hin 0 (by decide)), fetch64_eq_wordAt (hin 1 (by decide)),
      fetch64_eq_wordAt (hin 2 (by decide)), fetch64_error hout]
    rfl

/-! ### Commands that read a window (R135, R149) -/

section WindowRead

variable {α : Type} {i : Instr} {s : State} {r : Read α} {ws : α → List (Reg × Word)}

/-- Where every read answers, the command completes with the writes of the value. -/
theorem completed_of_read {v : α} (hexec : exec i s = .next (s.completeRead (ws <$> r)))
    (hs : Ready i s) (hr : r = .ok v) : ∃ t, exec i s = .next t ∧ Completed s t (ws v) := by
  rw [hr] at hexec
  exact ⟨_, hexec, completed_undisturbed hs.undisturbed _⟩

/-- Where a read is out of range, the command takes the fault of that read. -/
theorem takesReadFault_of_read {base : Word} {k : Nat}
    (hexec : exec i s = .next (s.completeRead (ws <$> r))) (hr : r = .error (base.toNat + k)) :
    TakesReadFault i s base k := by
  rw [hr] at hexec
  exact takesReadFault_of_oobRead hexec

end WindowRead

/-! ### The weak pair (R91 to R94) -/

theorem commandMeans_wpmix {d a : Reg} (ha : a.val ≤ 10) (hd : d.val ≤ 14) :
    CommandMeans (encode (.wpmix d a)) (.wpmix d a) fun s => pairWrites d
      (weakPairMix (s.reg a) (s.reg (groupReg a 1)) (s.reg (groupReg a 2)) (s.reg (groupReg a 3))
        (s.reg (groupReg a 4)) (s.reg (groupReg a 5))) := by
  have hfit : (groupFits a 6 && groupFits d 2) = true :=
    Bool.and_eq_true_iff.2 ⟨groupFits_iff.2 (by omega), groupFits_iff.2 (by omega)⟩
  have hwf : (Instr.wpmix d a).wellFormed = true := Bool.and_eq_true_iff.2 ⟨hfit, rfl⟩
  refine commandMeans_of_complete (EncodedRow.wpmix d a) hwf fun s hs => ?_
  simp only [Latched, Instr.sources, List.forall_mem_cons] at hs
  obtain ⟨h0, h1, h2, h3, h4, h5, -⟩ := hs
  rw [exec, execWpmix, if_pos hfit, h0, h1, h2, h3, h4, h5]

theorem wpmix_takesFault {d a : Reg} (s : State) (h : a.val > 10 ∨ d.val > 14) :
    TakesFault (.wpmix d a) s .illegalOperand (s.cwl.setWidth 64) := by
  have hpast : ¬ (groupFits a 6 && groupFits d 2) = true := by
    rw [Bool.and_eq_true_iff, groupFits_iff, groupFits_iff]
    omega
  apply takesFault_of_illegalOperand
  rw [exec, execWpmix, if_neg hpast]

/-- `WPMIXB` with a legal pair runs the window's mixer on its registers. -/
theorem exec_wpmixb {d a b c : Reg} {s : State} (hd : d.val ≤ 14)
    (hs : Latched (.wpmixb d a b c) s) :
    exec (.wpmixb d a b c) s = .next (s.completeRead
      (pairWrites d <$> weakPairMixAt s.buf (s.reg a).toNat (s.reg b) (s.reg c))) := by
  simp only [Latched, Instr.sources, List.forall_mem_cons] at hs
  obtain ⟨ha, hb, hc, -⟩ := hs
  rw [exec, execWpmixb, if_pos (groupFits_iff.2 (by omega)), ha, hb, hc]
  rfl

theorem wpmixb_takesFault {d : Reg} (a b c : Reg) (s : State) (hd : d.val > 14) :
    TakesFault (.wpmixb d a b c) s .illegalOperand (s.cwl.setWidth 64) := by
  apply takesFault_of_illegalOperand
  rw [exec, execWpmixb, if_neg (by rw [groupFits_iff]; omega)]

/-- Settles O20: the groups split at the last register that fits, and the window's reads run in
ascending order. -/
theorem weakPairCommands : Obligations.WeakPairCommands := by
  refine ⟨fun d a => commandMeans_wpmix, fun d a s => wpmix_takesFault s, fun _ _ _ _ _ _ => rfl,
    rfl, fun _ _ => groupReg_val, fun _ _ a b => weakPairMixAt_eq_ok a b, fun d a b c hd => ?wpmixb,
    fun d a b c s => wpmixb_takesFault a b c s⟩
  have hwf : (Instr.wpmixb d a b c).wellFormed = true :=
    Bool.and_eq_true_iff.2 ⟨groupFits_iff.2 (by omega), rfl⟩
  refine ⟨decode_encode_of_row (EncodedRow.wpmixb d a b c) hwf, fun s hs => ⟨fun hin => ?_, ?_⟩⟩
  · exact completed_of_read (ws := pairWrites d) (exec_wpmixb hd hs.latched) hs
      (weakPairMixAt_eq_ok _ _ hin)
  · intro k hk hout hin
    exact takesReadFault_of_read (exec_wpmixb hd hs.latched)
      (weakPairMixAt_eq_error _ _ hk hout hin)

/-! ### The window hash (R97, R98) -/

/-- Settles O21: in range the four reads answer, and the hash is R97's formula on their words. -/
theorem windowHashFormula : Obligations.WindowHashFormula := by
  intro P B off mul seed0 seed1 h
  rw [windowHash, fetch64_eq_wordAt (by omega), fetch64_eq_wordAt (by omega),
    fetch64_eq_wordAt (by omega), fetch64_eq_wordAt (by omega)]
  rfl

section Order

variable {P : Params} {B : Buffer} {off : Nat} {mul seed0 seed1 : Word}

/-- R98: the read at `+0` is the first. -/
theorem windowHash_error_0 (h : B.len.toNat < off + 8) :
    windowHash P B off mul seed0 seed1 = .error off := by
  rw [windowHash, fetch64_error h]
  rfl

/-- R98: the read at `+8` is the second. -/
theorem windowHash_error_8 (hin : off + 8 ≤ B.len.toNat) (hout : B.len.toNat < off + 16) :
    windowHash P B off mul seed0 seed1 = .error (off + 8) := by
  rw [windowHash, fetch64_eq_wordAt hin, fetch64_error hout]
  rfl

/-- R98: the read at `+24` is the third, so it fails before the one at `+16` is made. -/
theorem windowHash_error_24 (hin : off + 16 ≤ B.len.toNat) (hout : B.len.toNat < off + 32) :
    windowHash P B off mul seed0 seed1 = .error (off + 24) := by
  rw [windowHash, fetch64_eq_wordAt (by omega), fetch64_eq_wordAt hin, fetch64_error hout]
  rfl

end Order

/-- `H32` with a legal seed pair runs the window hash on its registers. -/
theorem exec_h32 {d a b c : Reg} {s : State} (hc : c.val ≤ 14) (hs : Latched (.h32 d a b c) s) :
    exec (.h32 d a b c) s = .next (s.completeRead ((fun v => [(d, v)]) <$>
      windowHash s.params s.buf (s.reg a).toNat (s.reg b) (s.reg c) (s.reg (groupReg c 1)))) := by
  simp only [Latched, Instr.sources, List.forall_mem_cons] at hs
  obtain ⟨ha, hb, hseed0, hseed1, -⟩ := hs
  rw [exec, execH32, if_pos (groupFits_iff.2 (by omega)), ha, hb, hseed0, hseed1]
  rfl

theorem h32_takesFault (d a b : Reg) {c : Reg} (s : State) (hc : c.val > 14) :
    TakesFault (.h32 d a b c) s .illegalOperand (s.cwl.setWidth 64) := by
  apply takesFault_of_illegalOperand
  rw [exec, execH32, if_neg (by rw [groupFits_iff]; omega)]

/-- Settles O22: the window is in range or one of three reads is the first that does not fit, and a
product with 0 leaves `ShiftMix` nothing to mix. -/
theorem windowHashCommand : Obligations.WindowHashCommand := by
  refine ⟨fun d a b c hc => ⟨?word, fun s hs => ⟨fun hin => ?completes, fun hout => ?at0,
    fun hin hout => ?at8, fun hin hout => ?at24⟩⟩, fun d a b c s => h32_takesFault d a b s,
    fun P B off s0 s1 hin => ?zero⟩
  case word =>
    have hwf : (Instr.h32 d a b c).wellFormed = true :=
      Bool.and_eq_true_iff.2 ⟨groupFits_iff.2 (by omega), rfl⟩
    exact decode_encode_of_row (EncodedRow.h32 d a b c) hwf
  case completes =>
    have hv := windowHashFormula s.params s.buf (s.reg a).toNat (s.reg b) (s.reg c)
      (s.reg (groupReg c 1)) hin
    obtain ⟨t, hrun, hdone⟩ := completed_of_read (exec_h32 hc hs.latched) hs hv
    exact ⟨_, t, hv, hrun, hdone⟩
  case at0 => exact takesReadFault_of_read (exec_h32 hc hs.latched) (windowHash_error_0 hout)
  case at8 => exact takesReadFault_of_read (exec_h32 hc hs.latched) (windowHash_error_8 hin hout)
  case at24 => exact takesReadFault_of_read (exec_h32 hc hs.latched) (windowHash_error_24 hin hout)
  case zero => simpa using windowHashFormula P B off 0 s0 s1 hin

end Sys2Proof.Machine

/-! The closed-form paths (R100 to R114): which branch a length takes, the value of each branch on the
words of the buffer, and the commands that check the length and then run one path. -/

namespace Sys2Proof.Machine

open Laws

/-! ### Reads and windows in range (R12, R97) -/

theorem fetch32_eq_wordAt {B : Buffer} {off : Nat} (h : off + 4 ≤ B.len.toNat) :
    fetch32 B off = .ok (wordAt B off 4) :=
  memRead_eq_wordAt h

theorem byteRead_eq_wordAt {B : Buffer} {off : Nat} (h : off + 1 ≤ B.len.toNat) :
    byteRead B off = .ok (wordAt B off 1) :=
  memRead_eq_wordAt h

/-- The hash of a window in range has a value. -/
theorem windowHash_ok (P : Params) {B : Buffer} {off : Nat} (mul seed0 seed1 : Word)
    (h : off + 32 ≤ B.len.toNat) : ∃ v, windowHash P B off mul seed0 seed1 = .ok v :=
  ⟨_, windowHashFormula P B off mul seed0 seed1 h⟩

/-- A read that answers hands its value on. -/
theorem read_bind_of_ok {α β : Type} {r : Read α} {v : α} (h : r = .ok v) (f : α → Read β) :
    r >>= f = f v := by
  rw [h]
  rfl

/-! ### The branch a length takes (R100, R118, R138) -/

section Branch

variable (P : Params) (B : Buffer) {L : Word}

theorem hashLen0to16_of_8to16 (h : 8 ≤ L.toNat) : hashLen0to16 P B L = hashLen8to16 P B L :=
  if_pos h

theorem hashLen0to16_of_4to7 (hlo : 4 ≤ L.toNat) (hhi : L.toNat ≤ 7) :
    hashLen0to16 P B L = hashLen4to7 P B L := by
  rw [hashLen0to16, if_neg (by omega), if_pos hlo]

theorem hashLen0to16_of_1to3 (hlo : 1 ≤ L.toNat) (hhi : L.toNat ≤ 3) :
    hashLen0to16 P B L = hashLen1to3 P B L := by
  rw [hashLen0to16, if_neg (by omega), if_neg (by omega), if_pos hlo]

theorem hashLen0to16_of_zero (h : L.toNat = 0) : hashLen0to16 P B L = .ok P.K2 := by
  rw [hashLen0to16, if_neg (by omega), if_neg (by omega), if_neg (by omega)]

theorem naClosed_of_le_16 (h : L.toNat ≤ 16) : naClosed P B L = hashLen0to16 P B L :=
  if_pos h

theorem farmClosed_of_le_16 (h : L.toNat ≤ 16) : farmClosed P B L = hashLen0to16 P B L :=
  if_pos h

end Branch

section ClosedStep

variable {s : State} {a : Reg} {L : Word}

theorem stepNa64_of_le_64 (d : Reg) (ha : s.operand a = L) (h : L.toNat ≤ 64) :
    stepNa64 d a s = loopStep (.closed (naClosed s.params s.buf L)) d L s := by
  rw [stepNa64, ha, pathNa64, if_pos h]

theorem stepHash64_of_le_96 (d : Reg) (ha : s.operand a = L) (h : L.toNat ≤ 96) :
    stepHash64 d a s = loopStep (.closed (farmClosed s.params s.buf L)) d L s := by
  rw [stepHash64, ha, pathHash64, if_pos h]

end ClosedStep

/-- Settles O24: in each range of lengths the path's reads and windows lie inside the buffer, so they
answer its words, and the rest of the path is the rule's formula on them. -/
theorem closedFormFormulas : Obligations.ClosedFormFormulas := by
  intro P B L hN
  refine ⟨hashLen0to16_of_zero P B, fun hlo hhi => ?len1to3, fun hlo hhi => ?len4to7,
    fun hlo hhi => ?len8to16, fun hlo hhi => ?len17to32, fun hlo hhi => ?len33to64,
    fun hlo hhi => ?len33to64na, fun hlo hhi => ?len65to96⟩
  case len1to3 =>
    rw [hashLen0to16_of_1to3 P B hlo hhi, hashLen1to3, byteRead_eq_wordAt (by omega),
      byteRead_eq_wordAt (by omega), byteRead_eq_wordAt (by omega)]
    rfl
  case len4to7 =>
    rw [hashLen0to16_of_4to7 P B hlo hhi, hashLen4to7, fetch32_eq_wordAt (by omega),
      fetch32_eq_wordAt (by omega)]
    rfl
  case len8to16 =>
    rw [hashLen0to16_of_8to16 P B hlo, hashLen8to16, fetch64_eq_wordAt (by omega),
      fetch64_eq_wordAt (by omega)]
    rfl
  case len17to32 =>
    rw [hashLen17to32, fetch64_eq_wordAt (by omega), fetch64_eq_wordAt (by omega),
      fetch64_eq_wordAt (by omega), fetch64_eq_wordAt (by omega)]
    rfl
  case len33to64 =>
    obtain ⟨h0, e0⟩ := windowHash_ok P (B := B) (off := 0) (P.K2 - 30) 0 0 (by omega)
    obtain ⟨h1, e1⟩ := windowHash_ok P (B := B) (off := L.toNat - 32) (P.K2 - 30 + 2 * L) 0 0
      (by omega)
    refine ⟨h0, h1, e0, e1, ?_⟩
    rw [hashLen33to64, read_bind_of_ok e0, read_bind_of_ok e1]
    rfl
  case len33to64na =>
    rw [hashLen33to64na, fetch64_eq_wordAt (by omega), fetch64_eq_wordAt (by omega),
      fetch64_eq_wordAt (by omega), fetch64_eq_wordAt (by omega), fetch64_eq_wordAt (by omega),
      fetch64_eq_wordAt (by omega), fetch64_eq_wordAt (by omega), fetch64_eq_wordAt (by omega)]
    rfl
  case len65to96 =>
    obtain ⟨h0, e0⟩ := windowHash_ok P (B := B) (off := 0) (P.K2 - 114) 0 0 (by omega)
    obtain ⟨h1, e1⟩ := windowHash_ok P (B := B) (off := 32) (P.K2 - 114 + 2 * L) 0 0 (by omega)
    obtain ⟨h2, e2⟩ := windowHash_ok P (B := B) (off := L.toNat - 32) (P.K2 - 114 + 2 * L) h0 h1
      (by omega)
    refine ⟨h0, h1, h2, e0, e1, e2, ?_⟩
    rw [hashLen65to96, read_bind_of_ok e0, read_bind_of_ok e1, read_bind_of_ok e2]
    rfl

/-- The word the encoder makes for a well-formed command stands for that command. -/
theorem decode_of_encode_eq {i : Instr} {w : CmdWord} (hrow : EncodedRow.Statement i)
    (hwf : i.wellFormed = true) (henc : encode i = w) : decode w = .ok i :=
  henc ▸ decode_encode_of_row hrow hwf

/-! ### Commands with a length check (R135, R136) -/

section LengthChecked

variable {i : Instr} {s : State} {d a : Reg}

/-- The value of a computation that is known to answer `v` is what the command writes. -/
theorem CompletesWith.completed {value : Read Word} {v : Word} (h : CompletesWith i s d value)
    (hv : value = .ok v) : ∃ t, exec i s = .next t ∧ Completed s t [(d, v)] := by
  obtain ⟨v', t, hv', hrun, hdone⟩ := h
  cases hv.symm.trans hv'
  exact ⟨t, hrun, hdone⟩

/-- A command that ends in one read computation completes with its value, where it has one. -/
theorem completesWith_of_completeRead {value : Read Word}
    (hexec : exec i s = .next (s.completeRead do return [(d, ← value)])) (hs : Ready i s)
    (hv : ∃ v, value = .ok v) : CompletesWith i s d value := by
  obtain ⟨v, hv⟩ := hv
  obtain ⟨t, hrun, hdone⟩ := completed_of_read (ws := fun v => [(d, v)]) hexec hs hv
  exact ⟨v, t, hv, hrun, hdone⟩

section ClosedForm

variable {path : Params → Buffer → Word → Read Word} {lo hi : Nat}
  (hexec : exec i s = .next (closedForm path lo hi d a s)) (hs : Ready i s) (hsources : a ∈ i.sources)
include hexec hs hsources

/-- Inside its range and inside the buffer, a closed-form command computes its path, whose reads all
lie inside the length. -/
theorem closedForm_completes
    (hpath : lo ≤ (s.reg a).toNat →
      ReadsInside (s.reg a).toNat (wordsOf s.buf) fun B => path s.params B (s.reg a))
    (hlo : lo ≤ (s.reg a).toNat) (hhi : (s.reg a).toNat ≤ hi)
    (hN : (s.reg a).toNat ≤ s.buf.len.toNat) :
    CompletesWith i s d (path s.params s.buf (s.reg a)) := by
  rw [closedForm, hs.latched a hsources, State.checkLength_ok s _ hN hlo hhi] at hexec
  exact completesWith_of_completeRead hexec hs ((hpath hlo).ok hN)

/-- At every other length it takes `BAD_LENGTH`. -/
theorem closedForm_takesFault
    (h : (s.reg a).toNat < lo ∨ (s.reg a).toNat > hi ∨ (s.reg a).toNat > s.buf.len.toNat) :
    TakesFault i s .badLength (s.reg a) := by
  rw [closedForm, hs.latched a hsources, State.checkLength_bad s _ (by omega)] at hexec
  exact ⟨_, hexec, faulted_takeFault s _ _⟩

end ClosedForm

/-- A loop command whose first step is a closed form is over after that step. -/
theorem loopCommand_closed_completes {f : State → State} {value : Read Word} {k : Nat}
    (hexec : exec i s = .next (runSteps f (k + 1) s))
    (hf : f s = loopStep (.closed value) d (s.reg a) s) (hs : Ready i s)
    (hN : (s.reg a).toNat ≤ s.buf.len.toNat) (hmax : (s.reg a).toNat ≤ s.params.maxLen)
    (hv : ∃ v, value = .ok v) : CompletesWith i s d value := by
  have hidle : (f s).phase = .idle := by
    rw [hf]
    exact (loopStep_closed_end value d (s.reg a) s).phase
  rw [runSteps_of_idle k hidle, hf, loopStep,
    State.checkLength_ok s _ hN (Nat.zero_le _) hmax] at hexec
  exact completesWith_of_completeRead hexec hs hv

end LengthChecked

/-- Settles O25: each command is its path behind the length check of its range. -/
theorem closedFormCommands : Obligations.ClosedFormCommands := by
  intro d a s
  exact ⟨⟨decode_of_encode_eq (EncodedRow.hl0_16 d a) rfl rfl,
      decode_of_encode_eq (EncodedRow.hl17_32 d a) rfl rfl,
      decode_of_encode_eq (EncodedRow.hl33_64 d a) rfl rfl,
      decode_of_encode_eq (EncodedRow.hl33_64na d a) rfl rfl,
      decode_of_encode_eq (EncodedRow.hl65_96 d a) rfl rfl⟩,
    fun hs => ⟨closedForm_completes rfl hs (.head _) (fun _ => .hashLen0to16 _) (Nat.zero_le _),
      fun h => closedForm_takesFault rfl hs (.head _) (.inr h)⟩,
    fun hs => ⟨closedForm_completes rfl hs (.head _) .hashLen17to32,
      closedForm_takesFault rfl hs (.head _)⟩,
    fun hs => ⟨closedForm_completes rfl hs (.head _) .hashLen33to64,
      closedForm_takesFault rfl hs (.head _)⟩,
    fun hs => ⟨closedForm_completes rfl hs (.head _) .hashLen33to64na,
      closedForm_takesFault rfl hs (.head _)⟩,
    fun hs => ⟨closedForm_completes rfl hs (.head _) .hashLen65to96,
      closedForm_takesFault rfl hs (.head _)⟩⟩

/-- Settles O23: length 0 passes every length check, and each of the three commands then takes the
branch of `HashLen0to16` that reads nothing. -/
theorem emptyInputHashesToK2 : Obligations.EmptyInputHashesToK2 := by
  intro d a s hzero
  have hL : (s.reg a).toNat = 0 := congrArg BitVec.toNat hzero
  have hvalue : hashLen0to16 s.params s.buf (s.reg a) = .ok s.params.K2 :=
    hashLen0to16_of_zero _ _ hL
  refine ⟨fun hs => ?hl0_16, fun hs => ?na64, fun hs => ?hash64⟩
  case hl0_16 =>
    exact (closedForm_completes rfl hs (.head _) (fun _ => .hashLen0to16 _) (Nat.zero_le _)
      (by omega) (by omega)).completed hvalue
  case na64 =>
    have hclosed : naClosed s.params s.buf (s.reg a) = .ok s.params.K2 :=
      (naClosed_of_le_16 _ _ (by omega)).trans hvalue
    have hstep := stepNa64_of_le_64 d (hs.latched a (.head _)) (by omega)
    exact (loopCommand_closed_completes rfl hstep hs (by omega) (by omega) ⟨_, hclosed⟩).completed
      hclosed
  case hash64 =>
    have hclosed : farmClosed s.params s.buf (s.reg a) = .ok s.params.K2 :=
      (farmClosed_of_le_16 _ _ (by omega)).trans hvalue
    have hstep := stepHash64_of_le_96 d (hs.latched a (.head _)) (by omega)
    exact (loopCommand_closed_completes rfl hstep hs (by omega) (by omega) ⟨_, hclosed⟩).completed
      hclosed

end Sys2Proof.Machine

/-! The loop commands (R125, R126, R131): a path's value as one computation over the buffer, what the
parts of a loop compute one after another, and the sequencer run that computes the path's value. -/

namespace Sys2Proof.Machine

open Laws

/-! ### The value of a path (R118, R119, R124, R127) -/

/-- What a loop command on this path computes from the `L` bytes of the buffer. -/
def Path.value (P : Params) (B : Buffer) (L : Word) : Path → Read Word
  | .closed value => value
  | .na seeds => applySeeds P seeds <$> naLoop P B L Acc.zero
  | .uo s0 s1 => uoLoop P B L s0 s1

section PathValue

variable (P : Params) (B : Buffer) (L s0 s1 : Word)

theorem pathNa64_value : (pathNa64 P B L).value P B L = na64 P B L := by
  rw [pathNa64, na64]
  split_ifs
  · rfl
  · exact id_map (naLoop P B L Acc.zero)

theorem pathNa64s_value : (pathNa64s P B L s0 s1).value P B L = na64s P B L s0 s1 := by
  rw [pathNa64s, na64s, na64]
  split_ifs <;> rfl

theorem pathUo64s_value : (pathUo64s P B L s0 s1).value P B L = uo64s P B L s0 s1 := by
  rw [pathUo64s, uo64s]
  split_ifs with h
  · rw [na64s, na64, if_pos h]
    rfl
  · rfl

end PathValue

/-! ### The parts of a loop, one after another (R116, R119, R127) -/

/-- The value of a loop over `L` bytes with these four parts, from the accumulator `acc`. -/
def loopValue (init : Acc → Read Acc) (body : Nat → Acc → Read Acc) (tail : Word → Acc → Read Acc)
    (fin : Acc → Word) (L : Word) (acc : Acc) : Read Word := do
  let acc ← init acc
  let acc ← iterateFrom body (iterations L) 0 acc
  return fin (← tail L acc)

theorem naLoop_eq_loopValue (P : Params) (B : Buffer) (L : Word) (acc : Acc) :
    naLoop P B L acc = loopValue (naInit P B) (naIteration P B) (naTail P B) (naFinish P) L acc :=
  rfl

theorem uoLoop_eq_loopValue (P : Params) (B : Buffer) (L s0 s1 : Word) (acc : Acc) :
    uoLoop P B L s0 s1 =
      loopValue (fun _ => .ok (uoInit P s0 s1)) (uoIteration B) (uoTail B) (uoFinish P) L acc :=
  rfl

/-- The sequence `acc`, `accAt 0`, `accAt 1`, and so on. -/
def accFrom (acc : Acc) (accAt : Nat → Acc) : Nat → Acc
  | 0 => acc
  | k + 1 => accAt k

section Parts

variable {init : Acc → Read Acc} {body : Nat → Acc → Read Acc} {tail : Word → Acc → Read Acc}
  {L : Word} {N : Nat}

/-- Iterations that all answer go through a sequence of accumulators, one block offset each. -/
theorem iterateFrom_trace (hbody : ∀ p acc, p + 64 ≤ N → ∃ acc', body p acc = .ok acc') (n p : Nat)
    (acc : Acc) (h : p + n * 64 ≤ N) :
    ∃ accAt : Nat → Acc, accAt 0 = acc ∧
      (∀ k, k < n → body (p + 64 * k) (accAt k) = .ok (accAt (k + 1))) ∧
      iterateFrom body n p acc = .ok (accAt n) := by
  induction n generalizing p acc with
  | zero => exact ⟨fun _ => acc, rfl, fun k hk => absurd hk (Nat.not_lt_zero k), rfl⟩
  | succ n ih =>
    obtain ⟨a, ha⟩ := hbody p acc (by omega)
    obtain ⟨accAt, rfl, hstep, hrun⟩ := ih (p + 64) a (by omega)
    refine ⟨accFrom acc accAt, rfl, fun k hk => ?_, ?_⟩
    · cases k with
      | zero => exact ha
      | succ k =>
        rw [show p + 64 * (k + 1) = p + 64 + 64 * k by omega]
        exact hstep k (by omega)
    · rw [iterateFrom, read_bind_of_ok ha]
      exact hrun

/-- A loop whose parts all answer is the initialisation, the iterations at `p = 0, 64, ..` up to `end`,
the tail and the finalisation, in order. -/
theorem loopValue_trace (hinit : ∀ acc, ∃ acc', init acc = .ok acc')
    (hbody : ∀ p acc, p + 64 ≤ N → ∃ acc', body p acc = .ok acc')
    (htail : ∀ acc, ∃ acc', tail L acc = .ok acc') (hN : L.toNat ≤ N) (fin : Acc → Word) (acc : Acc) :
    ∃ (accAt : Nat → Acc) (last : Acc), init acc = .ok (accAt 0) ∧
      (∀ k, k < iterations L → body (64 * k) (accAt k) = .ok (accAt (k + 1))) ∧
      iterateFrom body (iterations L) 0 (accAt 0) = .ok (accAt (iterations L)) ∧
      tail L (accAt (iterations L)) = .ok last ∧
      loopValue init body tail fin L acc = .ok (fin last) := by
  obtain ⟨a, ha⟩ := hinit acc
  obtain ⟨accAt, rfl, hstep, hrun⟩ := iterateFrom_trace hbody (iterations L) 0 a
    (by rw [iterations]; omega)
  obtain ⟨last, hlast⟩ := htail (accAt (iterations L))
  refine ⟨accAt, last, ha, fun k hk => ?_, hrun, hlast, ?_⟩
  · rw [← Nat.zero_add (64 * k)]
    exact hstep k hk
  · rw [loopValue, read_bind_of_ok ha, read_bind_of_ok hrun, read_bind_of_ok hlast]
    rfl

end Parts

/-- The seeds are applied to the value of the na loop, whatever its accumulator held before. -/
theorem loopValue_applySeeds (P : Params) (B : Buffer) (L : Word) (seeds : Option (Word × Word))
    (acc : Acc) :
    loopValue (naInit P B) (naIteration P B) (naTail P B)
      (fun acc => applySeeds P seeds (naFinish P acc)) L acc =
    (Path.na seeds).value P B L := by
  rw [Path.value, naLoop_acc B L Acc.zero acc, naLoop_eq_loopValue]
  simp [loopValue]

/-! ### Loop commands run their path (R132) -/

/-- From `s₀` the command `i` is a run of `f`, and `f` is the sequencer step of `path` over `L` bytes,
a closed form for the lengths no loop takes. -/
structure RunsPath (i : Instr) (s₀ : State) (f : State → State) (path : Path) (d : Reg) (L : Word) :
    Prop where
  run : exec i s₀ = .next (runSteps f (loopSteps L) s₀)
  step : ∀ s, SameOutsideLoop s₀ s → f s = loopStep path d L s
  closed : L.toNat ≤ 64 → ∃ value, path = .closed value

section RunsPath

variable {i : Instr} {s : State} {f : State → State} {path : Path} {d : Reg} {L : Word}

/-- A run of a loop, step by step over the accumulator, completes with the value of the loop. -/
theorem LoopShape.completesWith {init : Acc → Read Acc} {body : Nat → Acc → Read Acc}
    {tail : Word → Acc → Read Acc} {fin : Acc → Word} (h : LoopShape s f d L init body tail fin)
    (hreads : LoopReads s L init body tail) (hexec : exec i s = .next (runSteps f (loopSteps L) s))
    (hs : Ready i s) (hL : 64 < L.toNat) (hN : L.toNat ≤ s.buf.len.toNat)
    (hmax : L.toNat ≤ s.params.maxLen) :
    CompletesWith i s d (loopValue init body tail fin L s.acc) := by
  obtain ⟨accAt, last, hinit, -, hiterate, htail, hvalue⟩ :=
    loopValue_trace hreads.init hreads.body hreads.tail hN fin s.acc
  have hrun := h.run_start hs.running hs.stage hL hN hmax hinit hiterate htail 0
  rw [Nat.zero_add] at hrun
  rw [hrun] at hexec
  exact ⟨_, _, hvalue, hexec, completed_undisturbed hs.undisturbed _⟩

/-- With a length inside the buffer and inside `ADDR_W` bits, the command computes its path's value. -/
theorem RunsPath.completesWith (h : RunsPath i s f path d L) (hs : Ready i s) {value : Read Word}
    (hpath : path.value s.params s.buf L = value) (hvalue : ∃ v, value = .ok v)
    (hN : L.toNat ≤ s.buf.len.toNat) (hmax : L.toNat ≤ s.params.maxLen) :
    CompletesWith i s d value := by
  subst hpath
  have hloop : (∀ value, path ≠ .closed value) → 64 < L.toNat := fun hne =>
    Nat.lt_of_not_le fun hle => (h.closed hle).elim hne
  cases path with
  | closed value =>
    have hf := h.step s (.refl s)
    have hidle : (f s).phase = .idle := hf ▸ (loopStep_closed_end value d L s).phase
    have hexec := h.run
    rw [loopSteps, runSteps_of_idle _ hidle, hf, loopStep,
      State.checkLength_ok s _ hN (Nat.zero_le _) hmax] at hexec
    exact completesWith_of_completeRead hexec hs hvalue
  | na seeds =>
    have hL := hloop fun _ => Path.noConfusion
    rw [← loopValue_applySeeds s.params s.buf L seeds s.acc]
    exact (naShape h.step).completesWith (naReads hL hN) h.run hs hL hN hmax
  | uo s0 s1 =>
    have hL := hloop fun _ => Path.noConfusion
    exact (uoShape h.step).completesWith (uoReads hL hN) h.run hs hL hN hmax

/-- With any other length its first step is a fault. -/
theorem RunsPath.takesFault (h : RunsPath i s f path d L) (hs : Ready i s)
    (hbad : s.buf.len.toNat < L.toNat ∨ s.params.maxLen < L.toNat) :
    TakesFault i s .badLength L := by
  have hf : f s = s.takeFault .badLength L :=
    (h.step s (.refl s)).trans (loopStep_tooLong hs.stage hbad path d)
  have hexec := h.run
  rw [loopSteps, runSteps_of_idle _ (by rw [hf]; rfl), hf] at hexec
  exact ⟨_, hexec, faulted_takeFault s _ _⟩

end RunsPath

/-- The operands of a command with three sources are their registers. -/
theorem Latched.ternary {i : Instr} {s : State} {a b c : Reg} (h : Latched i s)
    (hsources : i.sources = [a, b, c]) :
    s.operand a = s.reg a ∧ s.operand b = s.reg b ∧ s.operand c = s.reg c := by
  simpa [Latched, hsources] using h

section LoopCommands

variable {s : State} {d a b c : Reg}

theorem runsPath_na64 (hs : Ready (.na64 d a) s) :
    RunsPath (.na64 d a) s (stepNa64 d a) (pathNa64 s.params s.buf (s.reg a)) d (s.reg a) := by
  have ha : s.operand a = s.reg a := hs.latched a (.head _)
  refine ⟨by rw [exec, execNa64, ha], fun t ht => ?_, fun h => ⟨_, if_pos h⟩⟩
  rw [stepNa64, ht.operand, ht.params, ht.buf, ha]

theorem runsPath_na64s (hs : Ready (.na64s d a b c) s) :
    RunsPath (.na64s d a b c) s (stepNa64s d a b c)
      (pathNa64s s.params s.buf (s.reg a) (s.reg b) (s.reg c)) d (s.reg a) := by
  obtain ⟨ha, hb, hc⟩ := hs.latched.ternary rfl
  refine ⟨by rw [exec, execNa64s, ha], fun t ht => ?_, fun h => ⟨_, if_pos h⟩⟩
  rw [stepNa64s, ht.operand, ht.operand, ht.operand, ht.params, ht.buf, ha, hb, hc]

theorem runsPath_uo64s (hs : Ready (.uo64s d a b c) s) :
    RunsPath (.uo64s d a b c) s (stepUo64s d a b c)
      (pathUo64s s.params s.buf (s.reg a) (s.reg b) (s.reg c)) d (s.reg a) := by
  obtain ⟨ha, hb, hc⟩ := hs.latched.ternary rfl
  refine ⟨by rw [exec, execUo64s, ha], fun t ht => ?_, fun h => ⟨_, if_pos h⟩⟩
  rw [stepUo64s, ht.operand, ht.operand, ht.operand, ht.params, ht.buf, ha, hb, hc]

end LoopCommands

/-- Settles O27: each command runs its path, by a simulation of the loop over its iterations, and the
path's value, whose reads all lie inside the length, is the whole function. -/
theorem loopCommandsComputeTheirFunctions : Obligations.LoopCommandsComputeTheirFunctions := by
  intro d a b c s
  refine ⟨⟨decode_of_encode_eq (EncodedRow.na64 d a) rfl rfl,
      decode_of_encode_eq (EncodedRow.na64s d a b c) rfl rfl,
      decode_of_encode_eq (EncodedRow.uo64s d a b c) rfl rfl⟩,
    fun hs => ⟨fun hN => ?na64, (runsPath_na64 hs).takesFault hs⟩,
    fun hs => ⟨fun hN => ?na64s, (runsPath_na64s hs).takesFault hs⟩,
    fun hs => ⟨fun hN => ?uo64s, (runsPath_uo64s hs).takesFault hs⟩⟩
  case na64 =>
    exact (runsPath_na64 hs).completesWith hs (pathNa64_value ..)
      ((ReadsInside.na64 (P := s.params) _).ok hN) hN
  case na64s =>
    exact (runsPath_na64s hs).completesWith hs (pathNa64s_value ..)
      ((ReadsInside.na64s (P := s.params) _ _ _).ok hN) hN
  case uo64s =>
    exact (runsPath_uo64s hs).completesWith hs (pathUo64s_value ..)
      ((ReadsInside.uo64s (P := s.params) _ _ _).ok hN) hN

end Sys2Proof.Machine

/-! The na and the uo loop (R117 to R130): each part's reads lie inside the buffer and answer its
words, so the part is its rule's formula on them; the two multipliers; and which path a length takes. -/

namespace Sys2Proof.Machine

/-- What a computation whose first part is a read answers, that read has answered. -/
theorem read_bind_eq_ok {α β : Type} {r : Read α} {f : α → Read β} {v : β} (h : r >>= f = .ok v) :
    ∃ a, r = .ok a ∧ f a = .ok v := by
  cases r with
  | ok a => exact ⟨a, rfl, h⟩
  | error off => cases h

/-! ### The multipliers of the two loops (R122, R128) -/

/-- What the na tail adds to `K1` is twice the low byte of `z`. -/
theorem lowByte_shiftLeft_toNat (z : Word) : ((z &&& 0xFF) <<< 1).toNat = 2 * (z.toNat % 256) := by
  have hand : (z &&& 0xFF).toNat = z.toNat % 256 := by
    rw [BitVec.toNat_and]
    exact Nat.and_two_pow_sub_one_eq_mod z.toNat 8
  have hlt : 2 * (z.toNat % 256) < 2 ^ 64 := by omega
  rw [BitVec.toNat_shiftLeft, hand, Nat.shiftLeft_eq, Nat.mul_comm]
  exact Nat.mod_eq_of_lt hlt

/-- The na tail sets the multiplier, whatever it reads. -/
theorem naTail_mul {P : Params} {B : Buffer} {L : Word} {acc acc' : Acc}
    (h : naTail P B L acc = .ok acc') : acc'.mul = P.K1 + ((acc.z &&& 0xFF) <<< 1) := by
  obtain ⟨_, -, h⟩ := read_bind_eq_ok h
  obtain ⟨_, -, h⟩ := read_bind_eq_ok h
  obtain ⟨_, -, h⟩ := read_bind_eq_ok h
  obtain ⟨_, -, h⟩ := read_bind_eq_ok h
  obtain ⟨_, -, h⟩ := read_bind_eq_ok h
  obtain ⟨_, -, h⟩ := read_bind_eq_ok h
  cases h
  rfl

theorem naTail_mul_toNat {P : Params} {B : Buffer} {L : Word} {acc acc' : Acc}
    (h : naTail P B L acc = .ok acc') :
    acc'.mul.toNat = (P.K1.toNat + 2 * (acc.z.toNat % 256)) % 2 ^ 64 := by
  rw [naTail_mul h, Word.toNat_add, lowByte_shiftLeft_toNat]

theorem getLsbD_zero_iff (v : Word) : v.getLsbD 0 = true ↔ v.toNat % 2 = 1 := by
  simp [BitVec.getLsbD]

/-- Bits 1 and 7 of a word are each set or not. -/
theorem and_0x82_mem (u : Word) : u &&& 0x82 ∈ [0x00, 0x02, 0x80, 0x82] := by
  have hsplit : u &&& 0x82 = (u &&& BitVec.twoPow 64 1) ||| (u &&& BitVec.twoPow 64 7) := by
    rw [← BitVec.and_or_distrib_left]
    rfl
  rw [hsplit, BitVec.and_twoPow, BitVec.and_twoPow]
  split_ifs <;> decide

theorem uoInit_mul (P : Params) (s0 s1 : Word) :
    (uoInit P s0 s1).mul = P.K2 + ((uoInit P s0 s1).u &&& 0x82) :=
  rfl

/-! ### The formulas of the two loops (R120 to R123, R128 to R130) -/

/-- Settles O31: in range every read answers, and what each part then computes is its rule's formula;
the loop goes through its parts in order, and the tail's multiplier is `K1` and twice a byte. -/
theorem naLoopFollowsItsFormulas : Obligations.NaLoopFollowsItsFormulas := by
  intro P B acc
  refine ⟨fun h => ?init, fun p hp => ?iteration, fun L hL hN => ?tail, rfl, fun L hL hN => ?loop,
    fun L acc' h => ?mul, by decide, by decide⟩
  case init =>
    rw [naInit, fetch64_eq_wordAt h]
    rfl
  case iteration =>
    simp (disch := omega) only [naIteration, fetch64_eq_wordAt, weakPairMixAt_eq_ok]
    rfl
  case tail =>
    have hp : tailOffset L + 64 ≤ B.len.toNat := by rw [tailOffset]; omega
    simp (disch := omega) only [naTail, fetch64_eq_wordAt, weakPairMixAt_eq_ok]
    rfl
  case loop =>
    obtain ⟨accAt, last, hinit, hstep, -, htail, hvalue⟩ := loopValue_trace
      (fun acc => (ReadsInside.naInit (P := P) acc (by omega)).ok hN)
      (fun _ acc hp => (ReadsInside.naIteration (P := P) hp acc).ok (Nat.le_refl B.len.toNat))
      (fun acc => (ReadsInside.naTail (P := P) (by omega) acc).ok hN) hN (naFinish P) acc
    exact ⟨accAt, last, hinit, hstep, htail, hvalue⟩
  case mul =>
    have hmul := naTail_mul_toNat h
    rw [getLsbD_zero_iff, getLsbD_zero_iff]
    constructor <;> intro hK1 <;> omega

/-- Settles O32: as for the na loop; its multiplier is `K2` and two bits that are each set or not. -/
theorem uoLoopFollowsItsFormulas : Obligations.UoLoopFollowsItsFormulas := by
  intro P B
  refine ⟨fun _ _ => rfl, fun acc p hp => ?iteration, fun acc L hL hN => ?tail, fun _ => rfl,
    fun L s0 s1 hL hN => ?loop, fun s0 s1 => ?mul⟩
  case iteration =>
    simp (disch := omega) only [uoIteration, fetch64_eq_wordAt]
    rfl
  case tail =>
    have hp : tailOffset L + 64 ≤ B.len.toNat := by rw [tailOffset]; omega
    simp (disch := omega) only [uoTail, fetch64_eq_wordAt, weakPairMixAt_eq_ok]
    rfl
  case loop =>
    obtain ⟨accAt, last, hinit, hstep, -, htail, hvalue⟩ := loopValue_trace
      (init := fun _ => .ok (uoInit P s0 s1)) (fun _ => ⟨_, rfl⟩)
      (fun _ acc hp => (ReadsInside.uoIteration hp acc).ok (Nat.le_refl B.len.toNat))
      (fun acc => (ReadsInside.uoTail (by omega) acc).ok hN) hN (uoFinish P) Acc.zero
    exact ⟨accAt, last, (Except.ok.inj hinit).symm, hstep, htail, hvalue⟩
  case mul =>
    rw [uoInit_mul]
    simpa using and_0x82_mem (uoInit P s0 s1).u

/-! ### The path each length takes (R118, R124, R127, R138, R140) -/

section Branch

variable (P : Params) (B : Buffer) {L : Word}

theorem naClosed_of_17to32 (hlo : 17 ≤ L.toNat) (hhi : L.toNat ≤ 32) :
    naClosed P B L = hashLen17to32 P B L := by
  rw [naClosed, if_neg (by omega), if_pos hhi]

theorem naClosed_of_gt_32 (h : 32 < L.toNat) : naClosed P B L = hashLen33to64na P B L := by
  rw [naClosed, if_neg (by omega), if_neg (by omega)]

theorem farmClosed_of_17to32 (hlo : 17 ≤ L.toNat) (hhi : L.toNat ≤ 32) :
    farmClosed P B L = hashLen17to32 P B L := by
  rw [farmClosed, if_neg (by omega), if_pos hhi]

theorem farmClosed_of_33to64 (hlo : 33 ≤ L.toNat) (hhi : L.toNat ≤ 64) :
    farmClosed P B L = hashLen33to64 P B L := by
  rw [farmClosed, if_neg (by omega), if_neg (by omega), if_pos hhi]

theorem farmClosed_of_gt_64 (h : 64 < L.toNat) : farmClosed P B L = hashLen65to96 P B L := by
  rw [farmClosed, if_neg (by omega), if_neg (by omega), if_neg (by omega)]

theorem na64_of_le_64 (h : L.toNat ≤ 64) : na64 P B L = naClosed P B L :=
  if_pos h

theorem na64_of_gt_64 (h : 64 < L.toNat) (acc : Acc) : na64 P B L = naLoop P B L acc := by
  rw [na64, if_neg (by omega), naLoop_acc]

theorem uo64s_of_le_64 (h : L.toNat ≤ 64) (s0 s1 : Word) :
    uo64s P B L s0 s1 = na64s P B L s0 s1 :=
  if_pos h

theorem uo64s_of_gt_64 (h : 64 < L.toNat) (s0 s1 : Word) :
    uo64s P B L s0 s1 = uoLoop P B L s0 s1 :=
  if_neg (by omega)

theorem farm64_of_le_96 (h : L.toNat ≤ 96) : farm64 P B L = farmClosed P B L :=
  if_pos h

theorem farm64_of_97to256 (hlo : 97 ≤ L.toNat) (hhi : L.toNat ≤ 256) :
    farm64 P B L = na64 P B L := by
  rw [farm64, if_neg (by omega), if_pos hhi]

theorem farm64_of_gt_256 (h : 256 < L.toNat) : farm64 P B L = uo64s P B L P.SEED_NA 0 := by
  rw [farm64, if_neg (by omega), if_neg (by omega)]

end Branch

/-- The seeded form is the one-seed value with the seeds applied, or its failing read. -/
theorem na64s_eq_map (P : Params) (B : Buffer) (L s0 s1 : Word) :
    na64s P B L s0 s1 = (na64 P B L).map fun h => hash128to64 P (h - s0) s1 :=
  rfl

/-- Settles O29: the dispatchers branch on the length alone, and the na loop never reads the
accumulator it starts from. -/
theorem pathsAgreeWhereTheDispatcherSays : Obligations.PathsAgreeWhereTheDispatcherSays := by
  intro P B L s0 s1 acc
  refine ⟨fun h => ?upTo16, fun hlo hhi => ?from17to32, fun hlo hhi => ?from33to64,
    fun hlo hhi => ?from65to96, farm64_of_97to256 P B, fun h => na64_of_gt_64 P B h acc,
    farm64_of_gt_256 P B, fun h hna => ?value, fun off hna => ?failingRead,
    fun h => uo64s_of_le_64 P B h s0 s1, fun h => uo64s_of_gt_64 P B h s0 s1, rfl⟩
  case upTo16 =>
    rw [farm64_of_le_96 P B (by omega), na64_of_le_64 P B (by omega)]
    exact ⟨farmClosed_of_le_16 P B h, naClosed_of_le_16 P B h⟩
  case from17to32 =>
    rw [farm64_of_le_96 P B (by omega), na64_of_le_64 P B (by omega)]
    exact ⟨farmClosed_of_17to32 P B hlo hhi, naClosed_of_17to32 P B hlo hhi⟩
  case from33to64 =>
    rw [farm64_of_le_96 P B (by omega), na64_of_le_64 P B hhi]
    exact ⟨farmClosed_of_33to64 P B hlo hhi, naClosed_of_gt_32 P B hlo⟩
  case from65to96 => exact (farm64_of_le_96 P B hhi).trans (farmClosed_of_gt_64 P B hlo)
  case value => rw [na64s_eq_map, hna]; rfl
  case failingRead => rw [na64s_eq_map, hna]; rfl

end Sys2Proof.Machine

/-! The dispatcher's commands (R134 to R141): the path a length takes through `HASH64` is the
dispatcher's function, the length check comes before anything else a command does, and a write to
`CMD` is accepted or refused as a whole. -/

namespace Sys2Proof.Machine

open Laws

/-! ### The two entry points (R138 to R141) -/

/-- Whichever path the length takes, its value is the one-seed dispatcher's. -/
theorem pathHash64_value (P : Params) (B : Buffer) (L : Word) :
    (pathHash64 P B L).value P B L = farm64 P B L := by
  rw [pathHash64, farm64]
  split_ifs with h96 h256
  · rfl
  · rw [na64_of_gt_64 P B (by omega) Acc.zero]
    exact id_map (naLoop P B L Acc.zero)
  · rw [uo64s_of_gt_64 P B (by omega)]
    rfl

section HashCommands

variable {s : State} {d a b c : Reg}

theorem runsPath_hash64 (hs : Ready (.hash64 d a) s) :
    RunsPath (.hash64 d a) s (stepHash64 d a) (pathHash64 s.params s.buf (s.reg a)) d (s.reg a) := by
  have ha : s.operand a = s.reg a := hs.latched a (.head _)
  refine ⟨by rw [exec, execHash64, ha], fun t ht => ?_, fun h => ⟨_, if_pos (by omega)⟩⟩
  rw [stepHash64, ht.operand, ht.params, ht.buf, ha]

theorem runsPath_hash64s (hs : Ready (.hash64s d a b c) s) :
    RunsPath (.hash64s d a b c) s (stepHash64s d a b c)
      (pathUo64s s.params s.buf (s.reg a) (s.reg b) (s.reg c)) d (s.reg a) := by
  obtain ⟨ha, hb, hc⟩ := hs.latched.ternary rfl
  refine ⟨by rw [exec, execHash64s, ha], fun t ht => ?_, fun h => ⟨_, if_pos h⟩⟩
  rw [stepHash64s, ht.operand, ht.operand, ht.operand, ht.params, ht.buf, ha, hb, hc]

end HashCommands

/-- Settles O28: each command runs the path its length takes, by the simulation of the loops over their
iterations, and the path's value, whose reads all lie inside the length, is the dispatcher's. -/
theorem hashCommandsComputeTheDispatcher : Obligations.HashCommandsComputeTheDispatcher := by
  intro d a b c s
  refine ⟨⟨decode_of_encode_eq (EncodedRow.hash64 d a) rfl rfl,
      decode_of_encode_eq (EncodedRow.hash64s d a b c) rfl rfl⟩,
    fun hs => ⟨fun hN => ?hash64, (runsPath_hash64 hs).takesFault hs⟩,
    fun hs => ⟨fun hN => ?hash64s, (runsPath_hash64s hs).takesFault hs⟩⟩
  case hash64 =>
    exact (runsPath_hash64 hs).completesWith hs (pathHash64_value ..)
      ((ReadsInside.farm64 (P := s.params) _).ok hN) hN
  case hash64s =>
    exact (runsPath_hash64s hs).completesWith hs (pathUo64s_value ..)
      ((ReadsInside.uo64s (P := s.params) _ _ _).ok hN) hN

/-! ### The length check (R136) -/

section LengthCheck

variable {i : Instr} {s : State} {d a : Reg}

/-- A closed-form command with a length its check refuses ends in that fault. -/
theorem exec_badLength_of_closedForm {path : Params → Buffer → Word → Read Word} {lo hi : Nat}
    (hexec : exec i s = .next (closedForm path lo hi d a s))
    (hbad : s.buf.len.toNat < (s.operand a).toNat ∨ (s.operand a).toNat < lo ∨
      hi < (s.operand a).toNat) :
    exec i s = .next (s.takeFault .badLength (s.operand a)) := by
  rw [hexec, closedForm, State.checkLength_bad s _ hbad]

/-- A loop command with a length its check refuses is over after its first step, on every path. -/
theorem exec_badLength_of_loopStep {f : State → State} {path : Path} {L : Word} {k : Nat}
    (hexec : exec i s = .next (runSteps f (k + 1) s)) (hf : f s = loopStep path d L s)
    (hstage : s.stage = .start)
    (hbad : s.buf.len.toNat < L.toNat ∨ s.params.maxLen < L.toNat) :
    exec i s = .next (s.takeFault .badLength L) := by
  have hfault : f s = s.takeFault .badLength L :=
    hf.trans (loopStep_tooLong hstage hbad path d)
  rw [hexec, runSteps_of_idle k (by rw [hfault]; rfl), hfault]

/-- The length of a command is one of its operands. -/
theorem mem_sources_of_lengthRange {P : Params} {lo hi : Nat}
    (h : i.lengthRange P = some (a, lo, hi)) : a ∈ i.sources := by
  cases i with
  | hl0_16 | hl17_32 | hl33_64 | hl33_64na | hl65_96 | na64 | na64s | uo64s | hash64 | hash64s =>
    cases h
    exact .head _
  | _ => cases h

/-- R136: a command of the table, at its start, takes `BAD_LENGTH` for a length past the buffer or
outside its range. -/
theorem exec_badLength {lo hi : Nat} (h : i.lengthRange s.params = some (a, lo, hi))
    (hstage : s.stage = .start)
    (hbad : s.buf.len.toNat < (s.operand a).toNat ∨ (s.operand a).toNat < lo ∨
      hi < (s.operand a).toNat) :
    exec i s = .next (s.takeFault .badLength (s.operand a)) := by
  cases i with
  | hl0_16 | hl17_32 | hl33_64 | hl33_64na | hl65_96 =>
    cases h
    exact exec_badLength_of_closedForm rfl hbad
  | na64 | na64s | uo64s | hash64 | hash64s =>
    cases h
    exact exec_badLength_of_loopStep rfl rfl hstage
      (hbad.imp_right fun h => h.resolve_left (Nat.not_lt_zero _))
  | _ => cases h

end LengthCheck

/-- Settles O26: the command's first step is its length check, on the latched length. -/
theorem lengthCheckFaults : Obligations.LengthCheckFaults := by
  intro i a lo hi s h hlatched hstage hbad
  have ha : s.operand a = s.reg a := hlatched a (mem_sources_of_lengthRange h)
  rw [← ha] at hbad ⊢
  exact ⟨_, exec_badLength h hstage hbad, faulted_takeFault s _ _⟩

/-! ### Writes to `CMD` and to the operand registers (R134, R152) -/

/-- The latch of a word that is a command holds every one of its sources. -/
theorem lookup_latch (s : State) {w : CmdWord} {i : Instr} (hd : decode w = .ok i) {r : Reg}
    (hr : r ∈ i.sources) : (s.latch w).lookup r = some (s.reg r) := by
  rw [State.latch, hd]
  exact lookup_latched s i.sources r hr

section Writes

variable {s : State} {v : Word} {rest : List Turn}

/-- R134: with neither `BUSY` nor `FAULT` set, the low 32 bits of the value are accepted. -/
theorem step_cmdWrite_accepts (h : s.agenda = .host (.write 0x000 64 v) :: rest)
    (hbusy : s.status.busy = false) (hfault : s.status.fault = false) :
    step s = .next (State.accept { s with agenda := rest } (v.setWidth 32)) := by
  rw [step_of_hostWrite h rfl, State.hostWrite, State.writeCmd]
  simp only [hbusy, hfault, Bool.or_false, Bool.false_eq_true, if_false]

/-- R152 (a) and (b): with either set, the write is ignored but for `OVR`. -/
theorem step_cmdWrite_refused (h : s.agenda = .host (.write 0x000 64 v) :: rest)
    (hrefused : s.status.busy = true ∨ s.status.fault = true) :
    step s = .next (State.setOvr { s with agenda := rest }) := by
  rw [step_of_hostWrite h rfl, State.hostWrite, State.writeCmd,
    if_pos ((Bool.or_eq_true _ _).mpr hrefused)]

/-- R152 (c): while a command runs, a write to an operand register is ignored but for `OVR`. -/
theorem step_operandWrite_refused {r : Reg}
    (h : s.agenda = .host (.write (0x100 + 8 * r.val) 64 v) :: rest) (hbusy : s.status.busy = true) :
    step s = .next (State.setOvr { s with agenda := rest }) := by
  rw [step_of_hostWrite h (accessed_operand r), State.hostWrite, State.writeOperand, if_pos hbusy]

end Writes

/-- Settles O9: a `CMD` write is acceptance or sets `OVR` alone, and so does an operand write while
busy. -/
theorem cmdWriteAccepts : Obligations.CmdWriteAccepts := by
  refine ⟨fun s v rest h => ⟨fun hbusy hfault => ?accepted, fun hrefused => ?refused⟩,
    fun s t r v rest h hbusy ht q => ?operand⟩
  case accepted =>
    exact ⟨_, step_cmdWrite_accepts h hbusy hfault, rfl, rfl, rfl,
      fun _ hd _ hr => lookup_latch _ hd hr, rfl, rfl, fun _ => rfl, rfl, rfl, rfl, rfl, rfl, rfl,
      fun _ hd => ready_accept _ hd⟩
  case refused => exact step_cmdWrite_refused h hrefused
  case operand =>
    rw [step_operandWrite_refused h hbusy] at ht
    cases ht
    exact ⟨rfl, rfl⟩

end Sys2Proof.Machine

/-! What the host sees of a fault and of a completion (R151, R152, R154): the rules for the host
actions that are taken and those that are ignored, that every running command ends, and that nothing
but the host clears `OVR`. -/

namespace Sys2Proof.Machine

/-! ### Writes and attachments that are taken, and the ignored attachment (R24, R28, R29, R152) -/

section HostActions

variable {s : State} {v : Word} {rest : List Turn} {bytes : List Byte}

/-- R28: while no command runs, a write to an operand register is taken. -/
theorem step_operandWrite_taken {r : Reg}
    (h : s.agenda = .host (.write (0x100 + 8 * r.val) 64 v) :: rest)
    (hbusy : s.status.busy = false) :
    step s = .next (State.setReg { s with agenda := rest } r v) := by
  rw [step_of_hostWrite h (accessed_operand r), State.hostWrite, State.writeOperand,
    if_neg (Bool.eq_false_iff.mp hbusy)]

/-- R24: a write to `CTRL` is taken at any time. -/
theorem step_ctrlWrite (h : s.agenda = .host (.write 0x010 64 v) :: rest) :
    step s = .next { s with agenda := rest, ie := v.getLsbD 0 } := by
  rw [step_of_hostWrite (q := .ctrl) h rfl, State.hostWrite]

/-- R29: while no command runs, an `Attach` of bytes that `ADDR_W` bits can count is taken. -/
theorem step_attach_taken (h : s.agenda = .host (.attach bytes) :: rest)
    (hbusy : s.status.busy = false) (hlen : bytes.length ≤ s.params.maxLen) :
    step s = .next { s with agenda := rest, buf := Buffer.ofBytes bytes } := by
  rw [step_of_host h, hostAct, State.attach, if_neg (Bool.eq_false_iff.mp hbusy),
    if_neg (Nat.not_lt.mpr hlen)]

/-- R152 (d): while a command runs, an `Attach` is ignored but for `OVR`. -/
theorem step_attach_ignored (h : s.agenda = .host (.attach bytes) :: rest)
    (hbusy : s.status.busy = true) :
    step s = .next (State.setOvr { s with agenda := rest }) := by
  rw [step_of_host h, hostAct, State.attach, if_pos hbusy]

end HostActions

/-! ### The completion signal (R154) -/

/-- Settles O60: each of the four writes leaves `IE` clear, or `DONE` and `FAULT` both clear. -/
theorem completionSignalFollowsDoneAndFault : Obligations.CompletionSignalFollowsDoneAndFault := by
  refine ⟨fun _ => rfl, fun s t v rest ht => ⟨fun h => ?status, fun h hie => ?ctrl,
    fun h hbusy hfault => ?cmd⟩⟩
  case status =>
    cases (statusWriteClearsOnlyTheBitsSet s v rest h).symm.trans ht
    constructor
    · intro hbit hfault
      simp [State.irq, hbit, hfault]
    · intro hbit hdone
      simp [State.irq, hbit, hdone]
  case ctrl =>
    cases (step_ctrlWrite h).symm.trans ht
    simp only [State.irq, hie, Bool.false_and]
  case cmd =>
    cases (step_cmdWrite_accepts h hbusy hfault).symm.trans ht
    simp [State.irq, hfault]

/-! ### The end of a fault (R151) -/

/-- A `STATUS` write with bit 2 set clears `FAULT`, `CAUSE` and `FINFO` together and leaves `BUSY`. -/
theorem step_statusWrite_clears_fault {s : State} {v : Word} {rest : List Turn}
    (h : s.agenda = .host (.write 0x008 64 v) :: rest) (hbit : v.getLsbD 2 = true) :
    ∃ t, step s = .next t ∧ t.agenda = rest ∧ t.status.busy = s.status.busy ∧
      t.status.fault = false ∧ t.status.cause = .none ∧ t.finfo = 0 := by
  refine ⟨_, statusWriteClearsOnlyTheBitsSet s v rest h, rfl, rfl, ?_, if_pos hbit, if_pos hbit⟩
  simp only [hbit, Bool.not_true, Bool.and_false]

/-- Settles O59: with the core idle every host action but a `CMD` write is taken, and the `STATUS`
write leaves `BUSY` and `FAULT` clear, which is all that acceptance asks for. -/
theorem faultEndsWithAStatusWrite : Obligations.FaultEndsWithAStatusWrite := by
  intro s v w rest hbusy hfault hbit
  refine ⟨fun h => step_cmdWrite_refused h (.inr hfault), fun h => ?cleared,
    fun r h => ⟨_, step_operandWrite_taken h hbusy, State.reg_setReg_same _ r w, rfl⟩,
    fun h => ⟨_, step_ctrlWrite h, rfl, rfl⟩,
    fun bytes hlen h => ⟨_, step_attach_taken h hbusy hlen, rfl, rfl⟩⟩
  case cleared =>
    obtain ⟨t, hclear, hagenda, htbusy, htfault, hcause, hfinfo⟩ :=
      step_statusWrite_clears_fault h hbit
    have haccept := step_cmdWrite_accepts hagenda (htbusy.trans hbusy) htfault
    have hirq : t.irq = (t.ie && t.status.done) := by
      rw [State.irq, htfault, Bool.or_false]
    exact ⟨t, run_succ_of_next hclear 0, htfault, hcause, hfinfo, hirq, _,
      (run_succ_of_next hclear 1).trans (run_succ_of_next haccept 0), rfl, rfl, rfl, rfl⟩

/-! ### A running command ends (R132, R133) -/

/-- A command that can loop does so above 64 bytes at the least. -/
theorem le_of_loopAbove {i : Instr} {a : Reg} {n : Nat} (h : i.loopAbove = some (a, n)) :
    64 ≤ n := by
  cases i with
  | na64 | na64s | uo64s | hash64 | hash64s =>
    cases h
    decide
  | _ => cases h

section CommandEnds

variable {s : State} {i : Instr}

/-- A loop command with a length inside the buffer completes, from whichever stage it stands at. -/
theorem exec_end_of_loop {a : Reg} {n : Nat} (hi : i.loopAbove = some (a, n))
    (hrun : s.phase = .run) (hL : n < (s.operand a).toNat)
    (hN : (s.operand a).toNat ≤ s.buf.len.toNat)
    (hmax : s.stage = .start → (s.operand a).toNat ≤ s.params.maxLen)
    (hat : s.stage ≠ .start → LoopAt s (s.operand a)) :
    ∃ t, exec i s = .next t ∧ CommandEnd i.dests s t := by
  obtain ⟨f, d, init, body, tail, fin, hloop⟩ := loopCommand_of_loopAbove hi hL hN
  obtain ⟨v, hv⟩ := hloop.completes hrun ((le_of_loopAbove hi).trans_lt hL) hN hmax hat
  refine ⟨_, hloop.run s (.refl s), ?_⟩
  rw [hv, hloop.dests]
  exact .completed _ rfl

/-- A running command ends when it is left to run, if a loop under way stands where R117 allows. -/
theorem exec_end_of_loopInv (hrun : s.phase = .run) (hd : decode s.cwl = .ok i)
    (hinv : s.stage ≠ .start → LoopInv s) : ∃ t, exec i s = .next t ∧ CommandEnd i.dests s t := by
  by_cases hstage : s.stage = .start
  · cases hi : i.loopAbove with
    | none =>
      obtain ⟨t, ht, -, hend⟩ := exec_end hi s
      exact ⟨t, ht, hend⟩
    | some p =>
      obtain ⟨a, n⟩ := p
      by_cases hshort : (s.operand a).toNat ≤ n ∨ s.buf.len.toNat < (s.operand a).toNat ∨
          s.params.maxLen < (s.operand a).toNat
      · obtain ⟨t, ht, -, hend⟩ := exec_end_of_short hi hstage hshort
        exact ⟨t, ht, hend⟩
      · push Not at hshort
        obtain ⟨hL, hN, hmax⟩ := hshort
        exact exec_end_of_loop hi hrun hL hN (fun _ => hmax) (absurd hstage)
  · obtain ⟨j, a, n, hdj, hj, hL, hN, hat⟩ := hinv hstage
    cases hd.symm.trans hdj
    exact exec_end_of_loop hj hrun hL hN (absurd · hstage) fun _ => hat

end CommandEnds

/-! ### `OVR` (R152) -/

/-- The end of a command leaves `OVR` alone. -/
theorem CommandEnd.ovr {ds : List Reg} {s t : State} (h : CommandEnd ds s t) :
    t.status.ovr = s.status.ovr := by
  cases h <;> rfl

/-- So does every outcome of a command. -/
theorem CommandOutcome.ovr {ds : List Reg} {s t : State} (h : CommandOutcome ds s t) :
    t.status.ovr = s.status.ovr := by
  cases h with
  | ended hend => exact hend.ovr
  | underWay hsame => rw [hsame]

/-- The core run to its end leaves `OVR` alone. -/
theorem ovr_of_coreRun {s t : State} (h : coreRun s = .next t) : t.status.ovr = s.status.ovr := by
  rcases core_outcome (.inr h) with ⟨-, rfl⟩ | ⟨-, e, -, rfl⟩ | ⟨-, i, -, ho⟩
  · rfl
  · rfl
  · exact ho.ovr

/-- However many steps the core takes, it leaves `OVR` alone. -/
theorem ovr_of_coreSteps {n : Nat} {s t : State} (h : coreSteps n s = .next t) :
    t.status.ovr = s.status.ovr := by
  rcases coreSteps_outcome h with rfl | ⟨-, e, -, rfl⟩ | ⟨-, i, -, ho⟩
  · rfl
  · rfl
  · exact ho.ovr

/-- Of the host's registers `STATUS` alone can clear `OVR`, by a write with bit 3 set. -/
theorem hostWrite_clears_ovr {s : State} {v : Word} {q : HostReg} (hovr : s.status.ovr = true)
    (h : (s.hostWrite v q).status.ovr = false) : q = .status ∧ v.getLsbD 3 = true := by
  cases q with
  | status =>
    rw [State.hostWrite, writeStatus_status] at h
    simpa [hovr] using h
  | cmd =>
    rw [State.hostWrite, State.writeCmd] at h
    split_ifs at h <;> simp [hovr] at h
  | operand r =>
    rw [State.hostWrite, State.writeOperand] at h
    split_ifs at h <;> simp [hovr] at h
  | ctrl | finfo | buflen | reserved => exact absurd (hovr.symm.trans h) (by decide)

/-- Of the host's actions a `STATUS` write with bit 3 set and `Reset` alone can clear `OVR`. -/
theorem hostAct_clears_ovr {a : HostAction} {s t : State} (hovr : s.status.ovr = true)
    (ht : hostAct a s = .next t) (h : t.status.ovr = false) :
    a = .reset ∨ ∃ v, a = .write 0x008 64 v ∧ v.getLsbD 3 = true := by
  cases a with
  | reset => exact .inl rfl
  | write off width v =>
    rw [hostAct] at ht
    cases hq : accessed off width with
    | none =>
      rw [hq] at ht
      cases ht
    | some q =>
      rw [hq] at ht
      cases ht
      obtain ⟨rfl, hbit⟩ := hostWrite_clears_ovr hovr h
      obtain ⟨rfl, rfl⟩ := accessed_status hq
      exact .inr ⟨v, rfl, hbit⟩
  | read off width =>
    rw [hostAct] at ht
    split at ht <;> cases ht
    exact absurd (hovr.symm.trans h) (by decide)
  | attach bytes =>
    rw [hostAct, State.attach] at ht
    split_ifs at ht <;> cases ht
    · cases h
    · exact absurd (hovr.symm.trans h) (by decide)
  | changeBacking off b =>
    cases ht
    exact absurd (hovr.symm.trans h) (by decide)

/-- `OVR` is sticky: of all turns those two host actions alone can clear it. -/
theorem step_clears_ovr {s t : State} (hovr : s.status.ovr = true) (ht : step s = .next t)
    (h : t.status.ovr = false) :
    ∃ rest, s.agenda = .host .reset :: rest ∨
      ∃ v, s.agenda = .host (.write 0x008 64 v) :: rest ∧ v.getLsbD 3 = true := by
  have hchanged : t.status.ovr ≠ s.status.ovr := by simp [h, hovr]
  cases hagenda : s.agenda with
  | nil => exact absurd (ovr_of_coreRun ((step_of_nil hagenda).symm.trans ht)) hchanged
  | cons turn rest =>
    cases turn with
    | coreRun => exact absurd (ovr_of_coreRun ((step_of_coreRun hagenda).symm.trans ht)) hchanged
    | coreSteps n =>
      exact absurd (ovr_of_coreSteps ((step_of_coreSteps hagenda).symm.trans ht)) hchanged
    | host a =>
      rw [step_of_host hagenda] at ht
      rcases hostAct_clears_ovr (s := { s with agenda := rest }) hovr ht h with
        rfl | ⟨v, rfl, hbit⟩
      · exact ⟨rest, .inl rfl⟩
      · exact ⟨rest, .inr ⟨v, rfl, hbit⟩⟩

/-- `OVR` stops nothing: with it set a running command still runs to its end, and it stays set. -/
theorem coreRun_setOvr_end {s : State} (hinv : CoreInv s) (hrun : s.phase = .run) :
    ∃ t, coreRun s.setOvr = .next t ∧ t.phase = .idle ∧ t.status.ovr = true := by
  have hrun' : s.setOvr.phase = .run := hrun
  cases hd : decode s.setOvr.cwl with
  | error e => exact ⟨_, running_of_error hrun' hd exec, rfl, rfl⟩
  | ok i =>
    obtain ⟨t, ht, hend⟩ := exec_end_of_loopInv hrun' hd hinv.loop
    exact ⟨t, (running_of_decode hrun' hd exec).trans ht, hend.phase, hend.ovr⟩

/-- Settles O58: the ignored actions by the rule of each; `OVR` is cleared by the host alone, and
neither the core's turns nor acceptance nor `irq` reads it. -/
theorem ignoredWritesSetOvr : Obligations.IgnoredWritesSetOvr := by
  refine ⟨fun s a rest h hignored => ?ignored, fun _ _ => step_clears_ovr,
    fun _ => rfl, fun _ => coreRun_setOvr_end,
    fun s v rest h hbusy hfault => ⟨_, step_cmdWrite_accepts h hbusy hfault, rfl⟩,
    fun s v rest => ⟨fun h => ⟨_, statusWriteClearsOnlyTheBitsSet s v rest h, rfl⟩, step_ctrlWrite⟩⟩
  case ignored =>
    rcases hignored with ⟨⟨v, rfl⟩, hset⟩ | ⟨⟨r, v, rfl⟩, hbusy⟩ | ⟨⟨bytes, rfl⟩, hbusy⟩
    · exact step_cmdWrite_refused h hset
    · exact step_operandWrite_refused h hbusy
    · exact step_attach_ignored h hbusy

end Sys2Proof.Machine

/-! The `Reset` action (R161): a host turn that is taken in every state, busy or not, and leaves what
R36 gives. -/

namespace Sys2Proof.Machine

/-- A `Reset` turn is one step that does what `doReset` says; no condition on the core stands. -/
theorem step_of_reset {s : State} {rest : List Turn} (h : s.agenda = .host .reset :: rest) :
    step s = .next (State.doReset { s with agenda := rest }) := by
  rw [step_of_host h, hostAct]

/-- Every register is 0 after `Reset`, whatever it held. -/
@[simp] theorem doReset_reg (s : State) (r : Reg) : s.doReset.reg r = 0 := by
  rw [State.reg, State.doReset_regs]
  exact reg_reset r

/-- The completion signal is low after `Reset`, even one that was high before (R154). -/
@[simp] theorem doReset_irq (s : State) : s.doReset.irq = false := by
  rw [State.irq, State.doReset_ie, State.doReset_status]
  rfl

/-- Settles O50: the step is `doReset`, whose registers and `irq` have the rules above; its other
fields are those of `State.reset`, or, for `agenda` and `params`, kept. -/
theorem resetActionFromAnyState : Obligations.ResetActionFromAnyState := by
  intro s rest h
  refine ⟨_, step_of_reset h, doReset_reg _, ?cmd, ?status, ?ie, ?finfo, ?buf, ?phase,
    doReset_irq _, State.doReset_agenda _, State.doReset_params _⟩
  case cmd | status | ie | finfo | buf | phase => rfl

end Sys2Proof.Machine

/-! The core's turns as the host sees them (R46, R137, R146, R147, R160): a turn of a step is the
host's or the core's, what a turn of the core leaves alone, and the frame of every command. -/

namespace Sys2Proof.Machine

/-! ### The turn a step takes (R148) -/

/-- A step that answers a next state was a merged run, some sequencer steps, or a host action, from
the state with the turns still to come. -/
theorem step_turn {s t : State} (h : step s = .next t) :
    ∃ rest, coreRun { s with agenda := rest } = .next t ∨
      (∃ n, coreSteps n { s with agenda := rest } = .next t) ∨
      ∃ a, s.agenda = .host a :: rest ∧ hostAct a { s with agenda := rest } = .next t := by
  cases hagenda : s.agenda with
  | nil =>
    have hs : { s with agenda := [] } = s := by rw [← hagenda]
    exact ⟨[], .inl (by rw [hs, ← step_of_nil hagenda, h])⟩
  | cons turn rest =>
    refine ⟨rest, ?_⟩
    cases turn with
    | coreRun => exact .inl (step_of_coreRun hagenda ▸ h)
    | coreSteps n => exact .inr (.inl ⟨n, step_of_coreSteps hagenda ▸ h⟩)
    | host a => exact .inr (.inr ⟨a, rfl, step_of_host hagenda ▸ h⟩)

/-! ### What no turn of the core touches -/

/-- `CMD`, `CTRL`, `OVR`, the buffer, the turns to come, the host's last read and the parameters are
the same in `t` as in `s`. -/
structure CoreFrame (s t : State) : Prop where
  cmd : t.cmd = s.cmd
  ie : t.ie = s.ie
  ovr : t.status.ovr = s.status.ovr
  buf : t.buf = s.buf
  agenda : t.agenda = s.agenda
  readData : t.readData = s.readData
  params : t.params = s.params

theorem CommandEnd.frame {ds : List Reg} {s t : State} (h : CommandEnd ds s t) : CoreFrame s t := by
  cases h <;> exact ⟨rfl, rfl, rfl, rfl, rfl, rfl, rfl⟩

theorem SameOutsideLoop.frame {s t : State} (h : SameOutsideLoop s t) : CoreFrame s t := by
  rw [h]
  exact ⟨rfl, rfl, rfl, rfl, rfl, rfl, rfl⟩

theorem CommandOutcome.frame {ds : List Reg} {s t : State} (h : CommandOutcome ds s t) :
    CoreFrame s t := by
  cases h with
  | ended hend => exact hend.frame
  | underWay hsame => exact hsame.frame

/-- Every error of the decoder is recorded with a cause. -/
theorem causeOf_ne_none (e : DecodeError) : causeOf e ≠ .none := by
  cases e <;> decide

/-- What a turn of the core can do: nothing, or one of the outcomes of the latched word. -/
theorem coreTurn_outcome {s t : State} (h : coreRun s = .next t ∨ ∃ n, coreSteps n s = .next t) :
    t = s ∨ s.phase = .run ∧ ∃ ds, CommandOutcome ds s t := by
  have hsplit : t = s ∨
      (s.phase = .run ∧ ∃ e, decode s.cwl = .error e ∧
        t = s.takeFault (causeOf e) (s.cwl.setWidth 64)) ∨
      (s.phase = .run ∧ ∃ i, decode s.cwl = .ok i ∧ CommandOutcome i.dests s t) := by
    rcases h with h | ⟨n, h⟩
    · exact (core_outcome (.inr h)).imp_left And.right
    · exact coreSteps_outcome h
  rcases hsplit with rfl | ⟨hrun, e, -, rfl⟩ | ⟨hrun, i, -, ho⟩
  · exact .inl rfl
  · exact .inr ⟨hrun, [], .ended _ (.faulted _ _ (causeOf_ne_none e))⟩
  · exact .inr ⟨hrun, _, ho⟩

theorem coreTurn_frame {s t : State} (h : coreRun s = .next t ∨ ∃ n, coreSteps n s = .next t) :
    CoreFrame s t := by
  rcases coreTurn_outcome h with rfl | ⟨-, ds, ho⟩
  · exact ⟨rfl, rfl, rfl, rfl, rfl, rfl, rfl⟩
  · exact ho.frame

/-- Settles O44: a step that is no host action is a turn of the core. -/
theorem coreNeverWritesTheBuffer : Obligations.CoreNeverWritesTheBuffer := by
  intro s t hcore h
  obtain ⟨rest, hrun | hsteps | ⟨a, ha, -⟩⟩ := step_turn h
  · exact (coreTurn_frame (.inl hrun)).buf
  · exact (coreTurn_frame (.inr hsteps)).buf
  · exact absurd ha (hcore a rest)

/-! ### The frame of a command (R137, R146, R147) -/

/-- A command's end writes no register but its destinations. -/
theorem CommandEnd.reg_other {ds : List Reg} {s t : State} (h : CommandEnd ds s t) {r : Reg}
    (hr : r ∉ ds) : t.reg r = s.reg r := by
  cases h with
  | faulted cause info _ => rfl
  | completed ws hds =>
    rw [State.reg_complete, State.reg_setRegs]
    refine written_other _ _ _ fun w hw e => hr ?_
    rw [← hds, ← State.results_fst s ws, ← e]
    exact List.mem_map_of_mem hw

theorem CommandOutcome.reg_other {ds : List Reg} {s t : State} (h : CommandOutcome ds s t) {r : Reg}
    (hr : r ∉ ds) : t.reg r = s.reg r := by
  cases h with
  | ended hend => exact hend.reg_other hr
  | underWay hsame => rw [hsame]; rfl

/-- `FINFO` and `CAUSE` change with a fault alone. -/
theorem CommandOutcome.faultInfo {ds : List Reg} {s t : State} (h : CommandOutcome ds s t)
    (ht : t.status.fault = false) : t.finfo = s.finfo ∧ t.status.cause = s.status.cause := by
  cases h with
  | ended hend =>
    cases hend with
    | completed ws _ => exact ⟨rfl, rfl⟩
    | faulted cause info _ => cases ht
  | underWay hsame => rw [hsame]; exact ⟨rfl, rfl⟩

/-- A command that answers has one of the three outcomes. -/
theorem outcome_of_exec {i : Instr} {s t : State} (h : exec i s = .next t) :
    CommandOutcome i.dests s t := by
  obtain ⟨u, hu, ho⟩ := exec_outcome i s
  cases h.symm.trans hu
  exact ho

/-- Settles O36: each clause by the rule of the three outcomes it names. -/
theorem commandFrame : Obligations.CommandFrame := by
  intro i s t h
  have ho := outcome_of_exec h
  obtain ⟨hcmd, hie, hovr, hbuf, hagenda, hread, hparams⟩ := ho.frame
  exact ⟨fun _ => ho.reg_other, fun off => by rw [hbuf], by rw [hbuf], hcmd, hie, hovr, hagenda,
    hread, hparams, fun _ => ho.faultInfo⟩

/-- Settles O37: of the three outcomes the fault alone sets `FAULT`. -/
theorem faultsArePrecise : Obligations.FaultsArePrecise := by
  intro i s t h hs ht
  cases outcome_of_exec h with
  | ended hend =>
    cases hend with
    | completed ws _ => exact absurd (hs.symm.trans ht) (by decide)
    | faulted cause info hcause => exact ⟨cause, info, hcause, faulted_takeFault s cause info⟩
  | underWay hsame =>
    rw [hsame] at ht
    exact absurd (hs.symm.trans ht) (by decide)

/-- Settles O42: a command still running has changed its loop words alone. -/
theorem nothingShowsBeforeCompletion : Obligations.NothingShowsBeforeCompletion := by
  intro s t n _ h ht
  rcases coreTurn_outcome (.inr ⟨n, h⟩) with rfl | ⟨-, ds, hend | hsame⟩
  · exact ⟨fun _ => rfl, rfl, rfl, rfl, rfl, rfl, rfl, rfl, rfl, rfl⟩
  · exact absurd (hend.phase.symm.trans ht) (by decide)
  · rw [hsame]
    exact ⟨fun _ => rfl, rfl, rfl, rfl, rfl, rfl, rfl, rfl, rfl, rfl⟩

/-! ### A core turn runs the latched command (R135, R160) -/

/-- Settles O7: the turn put first is the core's, and the word accepted is the command's. -/
theorem stepRunsTheFetchedCommand : Obligations.StepRunsTheFetchedCommand := by
  intro s nbits w i h
  have hd : decode (tableWord nbits w) = .ok i := by
    rw [decodeTableWord] at h
    split at h
    case h_1 j hj => rw [hj, Option.some.inj h]
    case h_2 => cases h
  rw [step_of_coreRun (rest := s.agenda) rfl, coreRun]
  exact running_of_decode rfl hd exec

/-- Settles O8: each kind of turn by its rule, with the latched word's command in it. -/
theorem runningCoreExecutesTheLatchedCommand :
    Obligations.RunningCoreExecutesTheLatchedCommand := by
  intro s i rest hrun hd
  have hrunning (go : Instr → State → Result) :
      State.running { s with agenda := rest } go = go i { s with agenda := rest } :=
    running_of_decode (s := { s with agenda := rest }) hrun hd go
  refine ⟨fun h => ?nil, fun h => ?coreRun, step_of_coreSteps, fun h => ?one, fun n h => ?more⟩
  case nil => exact (step_of_nil h).trans (running_of_decode hrun hd exec)
  case coreRun => exact (step_of_coreRun h).trans (hrunning exec)
  case one => rw [step_of_coreSteps h, coreSteps_one, coreStep, hrunning]
  case more =>
    obtain ⟨t, ht⟩ := coreStep_next { s with agenda := rest }
    exact ⟨t, (hrunning execStep).symm.trans ht, (step_of_coreSteps h).trans (coreSteps_succ ht n)⟩

end Sys2Proof.Machine

/-! Encoding and decoding (R53 to R62): every command is a row of the opcode map, the row's build
makes a command whose word has zero in the fields the form does not use, and the decoder's checks
are what makes the word that command's. -/

namespace Sys2Proof

open Laws

/-! ### Decoding the encoder's word -/

/-- The encoder's word of every command is a row of the opcode map that makes it. -/
theorem encodedRow (i : Instr) : EncodedRow.Statement i := by
  cases i with
  | add d a b => exact EncodedRow.add d a b
  | sub d a b => exact EncodedRow.sub d a b
  | mul d a b => exact EncodedRow.mul d a b
  | xor d a b => exact EncodedRow.xor d a b
  | and d a b => exact EncodedRow.and d a b
  | shri d a n => exact EncodedRow.shri d a n
  | shli d a n => exact EncodedRow.shli d a n
  | rotri d a r => exact EncodedRow.rotri d a r
  | rotli d a r => exact EncodedRow.rotli d a r
  | rotr d a b => exact EncodedRow.rotr d a b
  | rotl d a b => exact EncodedRow.rotl d a b
  | swap a b => exact EncodedRow.swap a b
  | ldi d n => exact EncodedRow.ldi d n
  | ldk d k => exact EncodedRow.ldk d k
  | mov d a => exact EncodedRow.mov d a
  | rdb d a => exact EncodedRow.rdb d a
  | rdle32 d a => exact EncodedRow.rdle32 d a
  | rdle64 d a => exact EncodedRow.rdle64 d a
  | shiftmix d a => exact EncodedRow.shiftmix d a
  | hl16 d a b c => exact EncodedRow.hl16 d a b c
  | hl16k d a b => exact EncodedRow.hl16k d a b
  | wpmix d a => exact EncodedRow.wpmix d a
  | wpmixb d a b c => exact EncodedRow.wpmixb d a b c
  | hmix d a b c r => exact EncodedRow.hmix d a b c r
  | h32 d a b c => exact EncodedRow.h32 d a b c
  | hl0_16 d a => exact EncodedRow.hl0_16 d a
  | hl17_32 d a => exact EncodedRow.hl17_32 d a
  | hl33_64 d a => exact EncodedRow.hl33_64 d a
  | hl33_64na d a => exact EncodedRow.hl33_64na d a
  | hl65_96 d a => exact EncodedRow.hl65_96 d a
  | na64 d a => exact EncodedRow.na64 d a
  | na64s d a b c => exact EncodedRow.na64s d a b c
  | uo64s d a b c => exact EncodedRow.uo64s d a b c
  | hash64 d a => exact EncodedRow.hash64 d a
  | hash64s d a b c => exact EncodedRow.hash64s d a b c

/-- Settles O1: the word of every command is its row's, and a well-formed one passes the checks. -/
theorem decodeOfEncodeIsIdentity : Obligations.DecodeOfEncodeIsIdentity :=
  fun i hwf => decode_encode_of_row (encodedRow i) hwf

/-! ### Encoding what the decoder answers -/

/-- The fields of a word with those the form does not use set to zero (R55). -/
def Form.keep (form : Form) (f : Fields) : Fields :=
  match form with
  | .DAB => { f with c := 0, imm := 0 }
  | .DAI => { f with b := 0, c := 0 }
  | .AB => { f with d := 0, c := 0, imm := 0 }
  | .DI => { f with a := 0, b := 0, c := 0 }
  | .DA => { f with b := 0, c := 0, imm := 0 }
  | .DABC => { f with imm := 0 }
  | .DABCI => f

/-- Fields that pass the check R60 (b) are those the form keeps. -/
theorem Form.keep_of_unusedZero {form : Form} {f : Fields} (h : unusedZero form f = true) :
    form.keep f = f := by
  obtain ⟨d, a, b, c, rsv, imm⟩ := f
  cases form <;> simp_all [unusedZero, Form.keep]

/-- The command a row of the opcode map makes is encoded with the row's opcode and the fields its
form keeps. -/
theorem encode_build {opc : Nat} {form : Form} {build : Fields → Instr}
    (h : opcodeRow opc = some (form, build)) (f : Fields) :
    encode (build f) = commandWord opc (form.keep f).d (form.keep f).a (form.keep f).b
      (form.keep f).c (form.keep f).imm := by
  rw [opcodeRow.eq_def] at h
  split at h <;> cases h <;> rfl

/-- What a word that decodes has passed: its opcode has a row, and every check of R60 holds. -/
theorem decode_eq_ok {w : CmdWord} {i : Instr} (h : decode w = .ok i) :
    ∃ form build, opcodeRow (opcodeOf w) = some (form, build) ∧ (fieldsOf w).rsv = 0 ∧
      unusedZero form (fieldsOf w) = true ∧ i.wellFormed = true ∧ build (fieldsOf w) = i := by
  rw [decode] at h
  split at h
  case h_1 => cases h
  case h_2 form build hrow =>
    dsimp only at h
    split_ifs at h with hrsv hunused hgroups hrom
    cases h
    rw [Bool.not_eq_false] at hunused hgroups hrom
    exact ⟨form, build, hrow, not_not.mp hrsv, hunused,
      Bool.and_eq_true_iff.mpr ⟨hgroups, hrom⟩, rfl⟩

/-- Settles O2: the word is made of its opcode and its fields, and those are the command's. -/
theorem encodeOfDecodeIsIdentity : Obligations.EncodeOfDecodeIsIdentity := by
  intro w i h
  obtain ⟨form, build, hrow, hrsv, hunused, hwf, rfl⟩ := decode_eq_ok h
  refine ⟨hwf, ?_⟩
  rw [encode_build hrow, Form.keep_of_unusedZero hunused, commandWord_fieldsOf w hrsv]

/-! ### Printed words (R63, R64) -/

/-- Settles O3: each printed word is the encoder's for its command, and opcode 0 has no row. -/
theorem printedWordsDecode : Obligations.PrintedWordsDecode :=
  ⟨Machine.decode_of_encode_eq (i := .hmix 1 2 3 4 31) (encodedRow _) rfl rfl,
    Machine.decode_of_encode_eq (i := .add 1 2 3) (encodedRow _) rfl rfl,
    Machine.decode_of_encode_eq (i := .shri 1 2 47) (encodedRow _) rfl rfl,
    Machine.decode_of_encode_eq (i := .swap 1 2) (encodedRow _) rfl rfl,
    Machine.decode_of_encode_eq (i := .ldk 3 2) (encodedRow _) rfl rfl,
    Machine.decode_of_encode_eq (i := .rdle64 1 2) (encodedRow _) rfl rfl,
    Machine.decode_of_encode_eq (i := .wpmix 0 2) (encodedRow _) rfl rfl,
    Machine.decode_of_encode_eq (i := .h32 1 2 3 4) (encodedRow _) rfl rfl,
    Machine.decode_of_encode_eq (i := .hl0_16 1 2) (encodedRow _) rfl rfl,
    Machine.decode_of_encode_eq (i := .na64s 1 2 3 4) (encodedRow _) rfl rfl,
    Machine.decode_of_encode_eq (i := .hash64 1 2) (encodedRow _) rfl rfl,
    decode_of_opcodeRow_none rfl⟩

/-- The word of a command whose only fields are a destination and an immediate. -/
theorem commandWord_dest_imm {opc n : Nat} {d : Reg} {imm : Imm6} (hopc : opc < 256)
    (h : n = opc * 2 ^ 24 + d.val * 2 ^ 20 + imm.val) :
    commandWord opc d 0 0 0 imm = BitVec.ofNat 32 n := by
  have hd := Reg.val_lt d
  have hzero : (0 : Reg).val = 0 := rfl
  apply BitVec.eq_of_toNat_eq
  rw [commandWord_toNat hopc, BitVec.toNat_ofNat, hzero, Nat.mod_eq_of_lt] <;> omega

/-- Settles O4: each pseudo-instruction is expanded to its command, and the command encoded. -/
theorem pseudoInstructionWords : Obligations.PseudoInstructionWords := by
  refine ⟨rfl, fun d => ?clr, fun d k => ?ldc, fun _ _ _ => rfl, fun _ _ _ => rfl⟩
  case clr =>
    rw [Pseudo.expand, encode]
    exact commandWord_dest_imm (by decide) (by simp)
  case ldc =>
    rw [Pseudo.expand, encode]
    exact commandWord_dest_imm (by decide) (by simp)

end Sys2Proof

/-! The invariant (R22, R29, R31, R117, R134): the state after reset meets it, and every turn keeps
it. A command that ends leaves an idle core; a loop command under way stands at a step of the same
loop, and its merged run is the same from there; and of a running command the host can change what
shows on its port alone. -/

namespace Sys2Proof.Machine

/-! ### States of the invariant -/

/-- What the invariant asks of an idle core: the rest of it speaks of a running one. -/
theorem coreInv_of_idle {s : State} (hphase : s.phase = .idle) (hstage : s.stage = .start)
    (hdisturbed : s.disturbed = false) (hbuffer : Buffer.wf s.buf)
    (hfits : s.buf.len.toNat ≤ s.params.maxLen) (hbusy : s.status.busy = false)
    (hdone : s.status.done = true → s.status.fault = false)
    (hcause : s.status.fault = false ↔ s.status.cause = .none)
    (hfinfo : s.status.fault = false → s.finfo = 0) : CoreInv s where
  buffer := hbuffer
  bufferFits := hfits
  busyNotDone h := absurd (hbusy.symm.trans h) (by decide)
  busyNotFault h := absurd (hbusy.symm.trans h) (by decide)
  doneNotFault := hdone
  busyRun := by rw [hbusy, hphase]; decide
  causeFault := hcause
  finfoFault := hfinfo
  idle _ := ⟨hstage, hdisturbed⟩
  readBack h := absurd (hphase.symm.trans h) (by decide)
  latched h := absurd (hphase.symm.trans h) (by decide)
  loop h := absurd hstage h

/-- Settles O45: the core is idle after reset, with nothing attached and nothing recorded. -/
theorem resetMeetsTheInvariant : Obligations.ResetMeetsTheInvariant :=
  coreInv_of_idle rfl rfl rfl ⟨Memory.wf_nil, fun _ h => nomatch h⟩ (Nat.zero_le _) rfl nofun
    (by decide) fun _ => rfl

section

variable {s t : State} {i : Instr}

theorem CoreInv.busy (h : CoreInv s) (hrun : s.phase = .run) : s.status.busy = true :=
  h.busyRun.mpr hrun

/-- A core that is not busy is idle. -/
theorem CoreInv.phase_idle (h : CoreInv s) (hbusy : s.status.busy = false) : s.phase = .idle := by
  cases hphase : s.phase with
  | idle => rfl
  | run => exact absurd (hbusy.symm.trans (h.busy hphase)) (by decide)

/-- The invariant says nothing of `CTRL`, of `OVR`, of the turns to come or of the host's last read.
-/
theorem CoreInv.congr (h : CoreInv s)
    (ht : t = { s with ie := t.ie, status := { s.status with ovr := t.status.ovr },
                       agenda := t.agenda, readData := t.readData }) : CoreInv t := by
  rw [ht]
  exact ⟨h.buffer, h.bufferFits, h.busyNotDone, h.busyNotFault, h.doneNotFault, h.busyRun,
    h.causeFault, h.finfoFault, h.idle, h.readBack, h.latched, h.loop⟩

/-! ### The core's turns keep it -/

/-- A running command that ends leaves a state of the invariant. -/
theorem CommandEnd.coreInv {ds : List Reg} (h : CommandEnd ds s t) (hinv : CoreInv s)
    (hrun : s.phase = .run) : CoreInv t := by
  have hfault := hinv.busyNotFault (hinv.busy hrun)
  have hdone := hinv.busyNotDone (hinv.busy hrun)
  cases h with
  | completed ws _ =>
    exact coreInv_of_idle rfl rfl rfl hinv.buffer hinv.bufferFits rfl (fun _ => hfault)
      hinv.causeFault hinv.finfoFault
  | faulted cause info hcause =>
    exact coreInv_of_idle rfl rfl rfl hinv.buffer hinv.bufferFits rfl
      (fun h => absurd (hdone.symm.trans h) (by decide)) ⟨nofun, fun h => absurd h hcause⟩ nofun

/-- A running command that goes on leaves one, if its loop stands where R117 allows. -/
theorem SameOutsideLoop.coreInv (h : SameOutsideLoop s t) (hinv : CoreInv s) (hrun : s.phase = .run)
    (hloop : LoopInv t) : CoreInv t := by
  have hphase : t.phase = .run := h.phase.trans hrun
  have hidle : t.phase = .idle → t.stage = .start ∧ t.disturbed = false := fun hi =>
    absurd (hi.symm.trans hphase) (by decide)
  rw [h] at hloop hidle ⊢
  exact ⟨hinv.buffer, hinv.bufferFits, hinv.busyNotDone, hinv.busyNotFault, hinv.doneNotFault,
    hinv.busyRun, hinv.causeFault, hinv.finfoFault, hidle, hinv.readBack, hinv.latched,
    fun _ => hloop⟩

/-- A running command either ends in one sequencer step, the same as its merged run, or it is a loop
command at a step of its loop. -/
theorem ends_or_loops (hinv : CoreInv s) (hd : decode s.cwl = .ok i) :
    (∃ t, exec i s = .next t ∧ execStep i s = .next t ∧ CommandEnd i.dests s t) ∨
    ∃ a n, i.loopAbove = some (a, n) ∧ n < (s.operand a).toNat ∧
      (s.operand a).toNat ≤ s.buf.len.toNat ∧ (s.stage ≠ .start → LoopAt s (s.operand a)) := by
  by_cases hstage : s.stage = .start
  · cases hi : i.loopAbove with
    | none => exact .inl (exec_end hi s)
    | some p =>
      obtain ⟨a, n⟩ := p
      by_cases hshort : (s.operand a).toNat ≤ n ∨ s.buf.len.toNat < (s.operand a).toNat
      · exact .inl (exec_end_of_short hi hstage (hshort.imp_right .inl))
      · push Not at hshort
        exact .inr ⟨a, n, rfl, hshort.1, hshort.2, absurd hstage⟩
  · obtain ⟨j, a, n, hdj, hj, hL, hN, hat⟩ := hinv.loop hstage
    cases hd.symm.trans hdj
    exact .inr ⟨a, n, hj, hL, hN, fun _ => hat⟩

/-- One sequencer step of a running command is its merged run, or leaves it under way at a step of
the same loop, from where the merged run ends in the same state (R132). -/
theorem execStep_splits (hinv : CoreInv s) (hrun : s.phase = .run) (hd : decode s.cwl = .ok i) :
    ∃ t, execStep i s = .next t ∧
      ((exec i s = .next t ∧ CommandEnd i.dests s t) ∨
        (exec i t = exec i s ∧ SameOutsideLoop s t ∧ LoopInv t)) := by
  rcases ends_or_loops hinv hd with ⟨t, ht, hstep, hend⟩ | ⟨a, n, hi, hL, hN, hat⟩
  · exact ⟨t, hstep, .inl ⟨ht, hend⟩⟩
  · obtain ⟨f, d, init, body, tail, fin, hloop⟩ := loopCommand_of_loopAbove hi hL hN
    have hL64 := (le_of_loopAbove hi).trans_lt hL
    have hmax : s.stage = .start → (s.operand a).toNat ≤ s.params.maxLen := fun _ =>
      hN.trans hinv.bufferFits
    obtain ⟨k, hk⟩ : ∃ k, loopSteps (s.operand a) = k + 1 := ⟨_, rfl⟩
    refine ⟨f s, hloop.step s, ?_⟩
    rcases hloop.step_at hL64 hN hmax hat with ⟨-, v, hv⟩ | ⟨-, hsame, hstage, hat', -⟩
    · refine .inl ⟨?_, ?_⟩
      · rw [hloop.run s (.refl s), hk, runSteps_of_idle k (by rw [hv]; rfl)]
      · rw [hv, hloop.dests]
        exact .completed _ rfl
    · refine .inr ⟨?_, hsame, i, a, n, by rw [hsame]; exact hd, hi, ?_⟩
      · obtain ⟨v, hv⟩ := hloop.completes hrun hL64 hN hmax hat
        have hrun' : (f s).phase = .run := hsame.phase.trans hrun
        rw [hk, runSteps_of_run k hrun'] at hv
        rw [hloop.run (f s) hsame, hloop.run s (.refl s), hk, runSteps_of_run k hrun',
          runSteps_more hrun' (by rw [hv]; rfl)]
      · rw [hsame.operand, hsame.buf]
        exact ⟨hL, hN, hat'⟩

/-- A merged run of a running core is the end of a command. -/
theorem coreRun_end (hinv : CoreInv s) (hrun : s.phase = .run) :
    ∃ t ds, coreRun s = .next t ∧ CommandEnd ds s t := by
  cases hd : decode s.cwl with
  | error e =>
    exact ⟨_, [], running_of_error hrun hd exec, .faulted _ _ (causeOf_ne_none e)⟩
  | ok i =>
    obtain ⟨t, ht, hend⟩ := exec_end_of_loopInv hrun hd hinv.loop
    exact ⟨t, i.dests, (running_of_decode hrun hd exec).trans ht, hend⟩

/-- One sequencer step of a running core is its merged run, or leaves it under way, and the merged
run from there is the same. -/
theorem coreStep_splits (hinv : CoreInv s) (hrun : s.phase = .run) :
    ∃ t, coreStep s = .next t ∧ CoreInv t ∧
      ((t.phase = .idle ∧ coreRun s = .next t) ∨ (t.phase = .run ∧ coreRun t = coreRun s)) := by
  cases hd : decode s.cwl with
  | error e =>
    have hend : CommandEnd [] s (s.takeFault (causeOf e) (s.cwl.setWidth 64)) :=
      .faulted _ _ (causeOf_ne_none e)
    exact ⟨_, running_of_error hrun hd execStep, hend.coreInv hinv hrun,
      .inl ⟨hend.phase, running_of_error hrun hd exec⟩⟩
  | ok i =>
    obtain ⟨t, hstep, ⟨ht, hend⟩ | ⟨hexec, hsame, hloop⟩⟩ := execStep_splits hinv hrun hd
    · exact ⟨t, (running_of_decode hrun hd execStep).trans hstep, hend.coreInv hinv hrun,
        .inl ⟨hend.phase, (running_of_decode hrun hd exec).trans ht⟩⟩
    · have hrun' : t.phase = .run := hsame.phase.trans hrun
      have hd' : decode t.cwl = .ok i := by rw [hsame]; exact hd
      refine ⟨t, (running_of_decode hrun hd execStep).trans hstep,
        hsame.coreInv hinv hrun hloop, .inr ⟨hrun', ?_⟩⟩
      rw [coreRun, coreRun, running_of_decode hrun' hd', hexec, running_of_decode hrun hd]

theorem coreStep_coreInv (hinv : CoreInv s) (h : coreStep s = .next t) : CoreInv t := by
  cases hphase : s.phase with
  | idle =>
    cases (running_idle hphase _).symm.trans h
    exact hinv
  | run =>
    obtain ⟨u, hu, hinvu, -⟩ := coreStep_splits hinv hphase
    cases hu.symm.trans h
    exact hinvu

theorem coreRun_coreInv (hinv : CoreInv s) (h : coreRun s = .next t) : CoreInv t := by
  cases hphase : s.phase with
  | idle =>
    cases (running_idle hphase _).symm.trans h
    exact hinv
  | run =>
    obtain ⟨u, ds, hu, hend⟩ := coreRun_end hinv hphase
    cases hu.symm.trans h
    exact hend.coreInv hinv hphase

/-! ### The host's turns keep it -/

theorem setOvr_coreInv (hinv : CoreInv s) : CoreInv s.setOvr := hinv.congr rfl

/-- An accepted word is latched with its operands, at its first step (R134). -/
theorem accept_coreInv (hinv : CoreInv s) (hfault : s.status.fault = false) (w : CmdWord) :
    CoreInv (s.accept w) where
  buffer := hinv.buffer
  bufferFits := hinv.bufferFits
  busyNotDone _ := rfl
  busyNotFault _ := hfault
  doneNotFault _ := hfault
  busyRun := ⟨fun _ => rfl, fun _ => rfl⟩
  causeFault := hinv.causeFault
  finfoFault := hinv.finfoFault
  idle := nofun
  readBack _ := rfl
  latched _ _ hd := latched_accept s hd
  loop h := absurd rfl h

/-- A write to `STATUS` clears `CAUSE` and `FINFO` with `FAULT` (R23). -/
theorem writeStatus_coreInv (hinv : CoreInv s) (v : Word) : CoreInv (s.writeStatus v) := by
  have hcause := hinv.causeFault
  have hfinfo := hinv.finfoFault
  rw [writeStatus_outside, writeStatus_status, writeStatus_finfo]
  refine ⟨hinv.buffer, hinv.bufferFits, fun h => ?_, fun h => ?_, fun h => ?_, hinv.busyRun, ?_, ?_,
    hinv.idle, hinv.readBack, hinv.latched, hinv.loop⟩
  · simp [hinv.busyNotDone h]
  · simp [hinv.busyNotFault h]
  · simp [hinv.doneNotFault (Bool.and_eq_true_iff.mp h).1]
  · cases v.getLsbD 2 <;> simp [hcause]
  · intro h
    split_ifs with hbit
    · rfl
    · exact hfinfo (by simpa [hbit] using h)

/-- A register written while no command runs is no latched operand's. -/
theorem setReg_coreInv (hinv : CoreInv s) (hbusy : s.status.busy = false) (r : Reg) (v : Word) :
    CoreInv (s.setReg r v) := by
  have hphase := hinv.phase_idle hbusy
  obtain ⟨hstage, hdisturbed⟩ := hinv.idle hphase
  exact coreInv_of_idle hphase hstage hdisturbed hinv.buffer hinv.bufferFits hbusy
    hinv.doneNotFault hinv.causeFault hinv.finfoFault

theorem hostWrite_coreInv (hinv : CoreInv s) (v : Word) (q : HostReg) :
    CoreInv (s.hostWrite v q) := by
  cases q with
  | cmd =>
    rw [State.hostWrite, State.writeCmd]
    split_ifs with h
    · exact setOvr_coreInv hinv
    · exact accept_coreInv hinv (by simp_all) _
  | status => exact writeStatus_coreInv hinv v
  | ctrl => exact hinv.congr rfl
  | finfo | buflen | reserved => exact hinv
  | operand r =>
    rw [State.hostWrite, State.writeOperand]
    split_ifs with h
    · exact setOvr_coreInv hinv
    · exact setReg_coreInv hinv (Bool.eq_false_iff.mpr h) r v

theorem attach_coreInv {bytes : List Byte} (hinv : CoreInv s) (h : s.attach bytes = .next t) :
    CoreInv t := by
  rw [State.attach] at h
  split_ifs at h with hbusy hlen <;> cases h
  · exact setOvr_coreInv hinv
  · have hbusy' := Bool.eq_false_iff.mpr hbusy
    have hphase := hinv.phase_idle hbusy'
    obtain ⟨hstage, hdisturbed⟩ := hinv.idle hphase
    have hmax := Params.maxLen_lt s.params
    refine coreInv_of_idle hphase hstage hdisturbed (Buffer.wf_ofBytes bytes (by omega)) ?_ hbusy'
      hinv.doneNotFault hinv.causeFault hinv.finfoFault
    show (BitVec.ofNat 64 bytes.length).toNat ≤ _
    rw [BitVec.toNat_ofNat, Nat.mod_eq_of_lt (by omega)]
    exact Nat.not_lt.mp hlen

/-- A changed byte changes neither the length of the buffer nor what a running loop has latched. -/
theorem changeBacking_coreInv (hinv : CoreInv s) (off : Nat) (b : Byte) :
    CoreInv (s.changeBacking off b) where
  buffer := Buffer.wf_change hinv.buffer off b
  bufferFits := by
    rw [State.changeBacking_buf, Buffer.change_len]
    exact hinv.bufferFits
  busyNotDone := hinv.busyNotDone
  busyNotFault := hinv.busyNotFault
  doneNotFault := hinv.doneNotFault
  busyRun := hinv.busyRun
  causeFault := hinv.causeFault
  finfoFault := hinv.finfoFault
  idle hphase := by
    obtain ⟨hstage, hdisturbed⟩ := hinv.idle hphase
    have hbusy : s.status.busy = false := Bool.eq_false_iff.mpr fun h =>
      absurd (hphase.symm.trans (hinv.busyRun.mp h)) (by decide)
    exact ⟨hstage, by simp [hdisturbed, hbusy]⟩
  readBack := hinv.readBack
  latched := hinv.latched
  loop hstage := by
    obtain ⟨i, a, n, hd, hi, hL, hN, hat⟩ := hinv.loop hstage
    refine ⟨i, a, n, hd, hi, hL, ?_, hat⟩
    rw [State.changeBacking_buf, Buffer.change_len]
    exact hN

theorem doReset_coreInv (s : State) : CoreInv s.doReset :=
  coreInv_of_idle rfl rfl rfl resetMeetsTheInvariant.buffer (Nat.zero_le _) rfl nofun
    resetMeetsTheInvariant.causeFault fun _ => rfl

theorem hostAct_coreInv {a : HostAction} (hinv : CoreInv s) (h : hostAct a s = .next t) :
    CoreInv t := by
  cases a with
  | write off width v =>
    rw [hostAct] at h
    split at h <;> cases h
    exact hostWrite_coreInv hinv v _
  | read off width =>
    rw [hostAct] at h
    split at h <;> cases h
    exact hinv.congr rfl
  | attach bytes => exact attach_coreInv hinv h
  | changeBacking off b =>
    cases h
    exact changeBacking_coreInv hinv off b
  | reset =>
    cases h
    exact doReset_coreInv s

end

/-- Settles O46: every turn keeps the invariant, and which turns are still to come is no part of it.
-/
theorem stepKeepsTheInvariant : Obligations.StepKeepsTheInvariant := by
  intro s t hinv h
  obtain ⟨rest, hturn⟩ := step_turn h
  have hinv' : CoreInv { s with agenda := rest } := hinv.congr rfl
  rcases hturn with hrun | ⟨n, hsteps⟩ | ⟨a, -, hhost⟩
  · exact coreRun_coreInv hinv' hrun
  · exact coreSteps_keeps (fun _ _ => coreStep_coreInv) n hinv' hsteps
  · exact hostAct_coreInv hinv' hhost

/-! ### How a running command ends (R133, R155) -/

/-- Settles O35: a merged run is the command's end, and a running command has neither `DONE` nor
`FAULT` set before it. -/
theorem everyCommandTerminates : Obligations.EveryCommandTerminates := by
  intro s hinv hrun
  have hfault := hinv.busyNotFault (hinv.busy hrun)
  have hdone := hinv.busyNotDone (hinv.busy hrun)
  obtain ⟨t, ds, ht, hend⟩ := coreRun_end hinv hrun
  refine ⟨t, ht, hend.phase, ?_⟩
  cases hend with
  | completed ws _ => exact ⟨rfl, .inl ⟨rfl, hfault⟩⟩
  | faulted cause info _ => exact ⟨rfl, .inr ⟨hdone, rfl⟩⟩

/-- Settles O48: an idle core does nothing, and a core with a fault recorded is not busy. -/
theorem idleCoreDoesNothing : Obligations.IdleCoreDoesNothing := by
  refine ⟨fun s hidle => ⟨running_idle hidle _, coreSteps_idle hidle, fun h => ?_⟩,
    fun s hinv hfault => ?_⟩
  · exact (step_of_nil h).trans (running_idle hidle _)
  · have hbusy : s.status.busy = false := Bool.eq_false_iff.mpr fun h =>
      absurd (hfault.symm.trans (hinv.busyNotFault h)) (by decide)
    have hidle := hinv.phase_idle hbusy
    exact ⟨running_idle hidle _, coreSteps_idle hidle⟩

/-! ### The host beside a running command (R155) -/

/-- While a command runs, a host write changes `STATUS`, `CTRL` and `FINFO` alone, and not `BUSY`.
-/
theorem hostWrite_running {s : State} (hbusy : s.status.busy = true) (v : Word) (q : HostReg) :
    ∃ st ie finfo, s.hostWrite v q = { s with status := st, ie := ie, finfo := finfo } ∧
      st.busy = true := by
  cases q with
  | cmd =>
    refine ⟨{ s.status with ovr := true }, s.ie, s.finfo, ?_, hbusy⟩
    rw [State.hostWrite, State.writeCmd, hbusy, Bool.true_or, if_pos rfl]
    rfl
  | operand r =>
    refine ⟨{ s.status with ovr := true }, s.ie, s.finfo, ?_, hbusy⟩
    rw [State.hostWrite, State.writeOperand, if_pos hbusy]
    rfl
  | status =>
    exact ⟨_, _, _, writeStatus_outside s v, by rw [writeStatus_status]; exact hbusy⟩
  | ctrl | finfo | buflen | reserved => exact ⟨_, _, _, rfl, hbusy⟩

/-- While a command runs, a host action but `Reset` changes what shows on the host's port and the
buffer's bytes alone, and neither `BUSY` nor the buffer's length. -/
theorem hostAct_running {s t : State} {a : HostAction} (hbusy : s.status.busy = true)
    (ha : a ≠ .reset) (h : hostAct a s = .next t) :
    t = { s with status := t.status, ie := t.ie, finfo := t.finfo, buf := t.buf,
                 readData := t.readData, disturbed := t.disturbed } ∧
      t.status.busy = true ∧ t.buf.len = s.buf.len := by
  cases a with
  | write off width v =>
    rw [hostAct] at h
    split at h <;> cases h
    rename_i q _
    obtain ⟨st, ie, finfo, hw, hst⟩ := hostWrite_running hbusy v q
    rw [hw]
    exact ⟨rfl, hst, rfl⟩
  | read off width =>
    rw [hostAct] at h
    split at h <;> cases h
    exact ⟨rfl, hbusy, rfl⟩
  | attach bytes =>
    rw [hostAct, State.attach, if_pos hbusy] at h
    cases h
    exact ⟨rfl, hbusy, rfl⟩
  | changeBacking off b =>
    cases h
    exact ⟨rfl, hbusy, Buffer.change_len s.buf off b⟩
  | reset => exact absurd rfl ha

/-- Settles O47: the fields it names are none of those a host action changes while busy. -/
theorem onlyResetStopsARunningCommand : Obligations.OnlyResetStopsARunningCommand := by
  intro s t a rest hinv hrun hagenda ha h
  obtain ⟨ht, hbusy, hlen⟩ := hostAct_running (s := { s with agenda := rest }) (hinv.busy hrun) ha
    ((step_of_host hagenda).symm.trans h)
  rw [ht] at hbusy hlen ⊢
  exact ⟨hrun, hbusy, rfl, rfl, rfl, rfl, rfl, rfl, rfl, rfl, rfl, hlen, rfl, fun _ => rfl⟩

end Sys2Proof.Machine

/-! Turns of a running command (R132, R133, R169; assumption 10): however its sequencer steps are
grouped into turns the command ends in the same state, and how many steps it takes one by one. -/

namespace Sys2Proof.Machine

/-! ### Step boundaries are unobservable -/

/-- Any number of sequencer steps is a part of the merged run. -/
theorem coreSteps_splits (n : Nat) {s t : State} (hinv : CoreInv s) (hrun : s.phase = .run)
    (h : coreSteps n s = .next t) :
    (t.phase = .run → coreRun t = coreRun s) ∧ (t.phase = .idle → coreRun s = .next t) := by
  induction n generalizing s with
  | zero =>
    cases h
    exact ⟨fun _ => rfl, fun hidle => absurd (hrun.symm.trans hidle) (by decide)⟩
  | succ n ih =>
    obtain ⟨u, hu, hinvu, ⟨hidle, hend⟩ | ⟨hrunu, hmerged⟩⟩ := coreStep_splits hinv hrun
    · rw [coreSteps_succ hu, coreSteps_idle hidle] at h
      cases h
      exact ⟨fun hrun => absurd (hidle.symm.trans hrun) (by decide), fun _ => hend⟩
    · rw [coreSteps_succ hu] at h
      rw [← hmerged]
      exact ih hinvu hrunu h

/-- A refused step is where a run stops. -/
theorem run_succ_of_refused {s : State} {r : Refusal} (h : step s = .refused r) (n : Nat) :
    Sys2Proof.core.run (n + 1) s = .refused r := by
  have hstep : Sys2Proof.core.step s = .refused r := h
  simp only [Host.Core.run, hstep]

/-- A run of one step is that step. -/
theorem run_one (s : State) : Sys2Proof.core.run 1 s = step s := by
  cases hs : step s with
  | next t => exact run_succ_of_next hs 0
  | fault f => cases f
  | refused r => exact run_succ_of_refused hs 0

/-- Turns of no step take themselves off the list and do nothing else. -/
theorem run_emptyTurns (m : Nat) {s : State} {turns : List Turn}
    (h : s.agenda = List.replicate m (.coreSteps 0) ++ turns) :
    Sys2Proof.core.run m s = .next { s with agenda := turns } := by
  induction m generalizing s with
  | zero =>
    cases (show s.agenda = turns from h)
    rfl
  | succ m ih =>
    rw [run_succ_of_next (step_of_coreSteps h)]
    exact ih rfl

/-- A run goes on from where its first steps end. -/
theorem run_add {m : Nat} {s t : State} (h : Sys2Proof.core.run m s = .next t) (n : Nat) :
    Sys2Proof.core.run (m + n) s = Sys2Proof.core.run n t := by
  induction m generalizing s with
  | zero => cases h; rw [Nat.zero_add]
  | succ m ih =>
    rw [Nat.add_right_comm]
    cases hs : step s with
    | next u =>
      rw [run_succ_of_next hs] at h ⊢
      exact ih h
    | fault f => cases f
    | refused r => cases (run_succ_of_refused hs m).symm.trans h

/-- Settles O33: sequencer steps are a part of the merged run, and the turns before the merged one
do nothing. -/
theorem stepSplittingIsUnobservable : Obligations.StepSplittingIsUnobservable := by
  refine ⟨fun s t n hinv hrun h => coreSteps_splits n hinv hrun h, fun s m rest h => ?_⟩
  have hempty := run_emptyTurns m h
  refine ⟨hempty, ?_⟩
  rw [run_add hempty, run_one]
  exact step_of_coreRun rfl

/-! ### How many sequencer steps a command takes -/

/-- The length of a loop command is one of its operands. -/
theorem mem_sources_of_loopAbove {i : Instr} {a : Reg} {n : Nat} (h : i.loopAbove = some (a, n)) :
    a ∈ i.sources := by
  cases i with
  | na64 | na64s | uo64s | hash64 | hash64s =>
    cases h
    exact .head _
  | _ => cases h

/-- Turns of one sequencer step always answer. -/
theorem run_steps_next (n : Nat) {s : State} (h : s.agenda = List.replicate n (.coreSteps 1)) :
    ∃ t, Sys2Proof.core.run n s = .next t := by
  induction n generalizing s with
  | zero => exact ⟨s, rfl⟩
  | succ n ih =>
    obtain ⟨u, hu⟩ := coreStep_next { s with agenda := List.replicate n (.coreSteps 1) }
    rw [run_succ_of_next ((step_of_coreSteps h).trans ((coreSteps_one _).trans hu))]
    exact ih (coreTurn_frame (.inr ⟨1, (coreSteps_one _).trans hu⟩)).agenda

/-- A loop command at a step of its loop, taken one sequencer step a turn, is still running while
steps are left, and has completed when none is. -/
theorem run_loop_steps {i : Instr} {a : Reg} {above : Nat} (hi : i.loopAbove = some (a, above))
    (n : Nat) {s : State} (hrun : s.phase = .run) (hd : decode s.cwl = .ok i)
    (hL : above < (s.operand a).toNat) (hN : (s.operand a).toNat ≤ s.buf.len.toNat)
    (hmax : (s.operand a).toNat ≤ s.params.maxLen) (hat : s.stage ≠ .start → LoopAt s (s.operand a))
    (hagenda : s.agenda = List.replicate n (.coreSteps 1)) :
    ∃ t, Sys2Proof.core.run n s = .next t ∧
      (n < stepsLeft (s.operand a) s → t.phase = .run) ∧
      (n = stepsLeft (s.operand a) s → t.phase = .idle ∧ t.status.done = true) := by
  induction n generalizing s with
  | zero =>
    have hleft : stepsLeft (s.operand a) s ≠ 0 := by
      rw [stepsLeft]
      split <;> simp [loopSteps]
    exact ⟨s, rfl, fun _ => hrun, fun h => absurd h.symm hleft⟩
  | succ n ih =>
    let u : State := { s with agenda := List.replicate n (.coreSteps 1) }
    obtain ⟨f, d, init, body, tail, fin, hloop⟩ := loopCommand_of_loopAbove (s₀ := u) hi hL hN
    have hstep : step s = .next (f u) := by
      rw [step_of_coreSteps hagenda, coreSteps_one]
      exact (running_of_decode (s := u) hrun hd execStep).trans (hloop.step u)
    rw [run_succ_of_next hstep]
    rcases hloop.step_at ((le_of_loopAbove hi).trans_lt hL) hN (fun _ => hmax) hat with
      ⟨hfinish, v, hv⟩ | ⟨-, hsame, hstage, hat', hleft⟩
    · have hleft : stepsLeft (s.operand a) s = 1 := by
        rw [stepsLeft, show s.stage = .finish from hfinish]
      rw [hleft, hv]
      obtain ⟨t, ht⟩ := run_steps_next n (s := u.complete [(d, v)]) rfl
      refine ⟨t, ht, fun h => absurd h (by omega), fun h => ?_⟩
      obtain rfl : n = 0 := by omega
      cases ht
      exact ⟨rfl, rfl⟩
    · have hL' : (f u).operand a = s.operand a := hsame.operand a
      have hleft' : stepsLeft (s.operand a) s = stepsLeft ((f u).operand a) (f u) + 1 := by
        rw [hL']
        exact hleft
      rw [hleft']
      have hd' : decode (f u).cwl = .ok i := by rw [hsame]; exact hd
      obtain ⟨t, ht, hrunning, hdone⟩ := ih (hsame.phase.trans hrun) hd' (hL' ▸ hL)
        (by rw [hL', hsame.buf]; exact hN) (by rw [hL', hsame.params]; exact hmax)
        (fun _ => hL' ▸ hat') hsame.frame.agenda
      exact ⟨t, ht, fun h => hrunning (by omega), fun h => hdone (by omega)⟩

/-- Settles O34: each turn of a loop command takes one step off those that are left, and a command
that is on no loop has one. -/
theorem loopCommandStepCount : Obligations.LoopCommandStepCount := by
  refine ⟨fun s i a above n hrun hd hs hi hL hN hmax => ?loop, fun s i hinv hrun hd h => ?single⟩
  case loop =>
    have ha : s.operand a = s.reg a := hs.latched a (mem_sources_of_loopAbove hi)
    rw [← ha] at hL hN hmax ⊢
    have hleft : stepsLeft (s.operand a) s = ((s.operand a).toNat - 1) / 64 + 3 := by
      rw [stepsLeft, hs.stage]
      rfl
    rw [← hleft]
    exact run_loop_steps (s := { s with agenda := List.replicate n (.coreSteps 1) }) hi n hrun hd hL
      hN hmax (absurd hs.stage) rfl
  case single =>
    obtain ⟨t, ht, hstep, hend⟩ : ∃ t, exec i s = .next t ∧ execStep i s = .next t ∧
        CommandEnd i.dests s t := by
      rcases ends_or_loops hinv hd with hends | ⟨a, above, hi, hL, hN, -⟩
      · exact hends
      · rcases h with h | ⟨a', above', hi', hshort⟩
        · cases h.symm.trans hi
        · cases hi.symm.trans hi'
          have ha : s.operand a = s.reg a := hinv.latched hrun i hd a (mem_sources_of_loopAbove hi)
          rw [← ha] at hshort
          exact absurd hshort (by omega)
    exact ⟨t, (coreSteps_one s).trans ((running_of_decode hrun hd execStep).trans hstep),
      (running_of_decode hrun hd exec).trans ht, hend.phase⟩

end Sys2Proof.Machine

/-! Which fault a command can raise (R136, R145, R149): a length command inside its range completes,
so it faults on its length alone; the other faults are those of illegal operands and of five
commands' reads. -/

namespace Sys2Proof.Machine

/-! ### Length commands inside their range complete -/

section InRange

variable {i : Instr} {s : State} {d a : Reg} {L : Word}

/-- A closed-form command with a length in range completes with its path's value. -/
theorem closedForm_inRange {path : Params → Buffer → Word → Read Word} {lo hi : Nat}
    (hpath : ReadsInside (s.operand a).toNat (wordsOf s.buf) fun B => path s.params B (s.operand a))
    (hN : (s.operand a).toNat ≤ s.buf.len.toNat) (hlo : lo ≤ (s.operand a).toNat)
    (hhi : (s.operand a).toNat ≤ hi) :
    ∃ v, path s.params s.buf (s.operand a) = .ok v ∧
      closedForm path lo hi d a s = s.complete [(d, v)] := by
  obtain ⟨v, hv⟩ := hpath.ok hN
  refine ⟨v, hv, ?_⟩
  simp only [closedForm, State.checkLength_ok s _ hN hlo hhi, hv]
  rfl

/-- A loop command whose first step is a closed form completes in that step. -/
theorem exec_of_closed_step (f : State → State) {path : Path} {value : Read Word} {k : Nat}
    (hexec : exec i s = .next (runSteps f (k + 1) s)) (hf : f s = loopStep path d L s)
    (hdests : i.dests = [d]) (hpath : path = .closed value) (hN : L.toNat ≤ s.buf.len.toNat)
    (hmax : L.toNat ≤ s.params.maxLen) (hvalue : ∃ v, value = .ok v) :
    ∃ d v, i.dests = [d] ∧ exec i s = .next (s.complete [(d, v)]) := by
  obtain ⟨v, rfl⟩ := hvalue
  have hcomplete : f s = s.complete [(d, v)] := by
    rw [hf, hpath, loopStep, State.checkLength_ok s _ hN (Nat.zero_le _) hmax]
    rfl
  exact ⟨d, v, hdests, by rw [hexec, runSteps_of_idle k (by rw [hcomplete]; rfl), hcomplete]⟩

/-- A loop command at or below its loop length, on a length in range, completes. -/
theorem exec_closed_completes {n : Nat} (hi : i.loopAbove = some (a, n))
    (hL : (s.operand a).toNat ≤ n) (hN : (s.operand a).toNat ≤ s.buf.len.toNat)
    (hmax : (s.operand a).toNat ≤ s.params.maxLen) :
    ∃ d v, i.dests = [d] ∧ exec i s = .next (s.complete [(d, v)]) := by
  have hna (h64 : (s.operand a).toNat ≤ 64) : ∃ v, naClosed s.params s.buf (s.operand a) = .ok v :=
    (ReadsInside.naClosed (P := s.params) h64).ok hN
  have hseeded (h64 : (s.operand a).toNat ≤ 64) (s0 s1 : Word) : ∃ v, (do
      return seeded s.params (← naClosed s.params s.buf (s.operand a)) s0 s1 : Read Word) = .ok v :=
    (hna h64).elim fun _ hv => ⟨_, read_bind_of_ok hv _⟩
  cases i with
  | na64 d a =>
    cases hi
    exact exec_of_closed_step (stepNa64 d a) rfl rfl rfl (if_pos hL) hN hmax (hna hL)
  | na64s d a b c =>
    cases hi
    exact exec_of_closed_step (stepNa64s d a b c) rfl rfl rfl (if_pos hL) hN hmax (hseeded hL _ _)
  | uo64s d a b c =>
    cases hi
    exact exec_of_closed_step (stepUo64s d a b c) rfl rfl rfl (if_pos hL) hN hmax (hseeded hL _ _)
  | hash64 d a =>
    cases hi
    exact exec_of_closed_step (stepHash64 d a) rfl rfl rfl (if_pos hL) hN hmax
      ((ReadsInside.farmClosed (P := s.params) hL).ok hN)
  | hash64s d a b c =>
    cases hi
    exact exec_of_closed_step (stepHash64s d a b c) rfl rfl rfl (if_pos hL) hN hmax (hseeded hL _ _)
  | _ => cases hi

/-- A loop command above its loop length, on a length in range, completes from wherever it stands.
-/
theorem exec_loop_completes {n : Nat} (hi : i.loopAbove = some (a, n)) (hrun : s.phase = .run)
    (hL : n < (s.operand a).toNat) (hN : (s.operand a).toNat ≤ s.buf.len.toNat)
    (hmax : s.stage = .start → (s.operand a).toNat ≤ s.params.maxLen)
    (hat : s.stage ≠ .start → LoopAt s (s.operand a)) :
    ∃ d v, i.dests = [d] ∧ exec i s = .next (s.complete [(d, v)]) := by
  obtain ⟨f, d, init, body, tail, fin, hloop⟩ := loopCommand_of_loopAbove hi hL hN
  obtain ⟨v, hv⟩ := hloop.completes hrun ((le_of_loopAbove hi).trans_lt hL) hN hmax hat
  exact ⟨d, v, hloop.dests, by rw [hloop.run s (.refl s), hv]⟩

/-- Whether its core runs or not, a loop command at its start on a length in range takes no fault.
-/
theorem exec_loop_noFault {n : Nat} {t : State} (hi : i.loopAbove = some (a, n))
    (hstage : s.stage = .start) (hN : (s.operand a).toNat ≤ s.buf.len.toNat)
    (hmax : (s.operand a).toNat ≤ s.params.maxLen) (h : exec i s = .next t) :
    t.status.fault = s.status.fault := by
  by_cases hL : (s.operand a).toNat ≤ n
  · obtain ⟨d, v, -, hv⟩ := exec_closed_completes hi hL hN hmax
    cases h.symm.trans hv
    rfl
  · have hL' := Nat.not_le.mp hL
    cases hphase : s.phase with
    | run =>
      obtain ⟨d, v, -, hv⟩ := exec_loop_completes hi hphase hL' hN (fun _ => hmax) (absurd hstage)
      cases h.symm.trans hv
      rfl
    | idle =>
      obtain ⟨f, d, init, body, tail, fin, hloop⟩ := loopCommand_of_loopAbove hi hL' hN
      rcases hloop.step_at ((le_of_loopAbove hi).trans_lt hL') hN (fun _ => hmax) (absurd hstage)
        with ⟨hfinish, -⟩ | ⟨-, hsame, -⟩
      · exact absurd (hstage.symm.trans hfinish) (by decide)
      · have hexec := hloop.run s (.refl s)
        rw [loopSteps, runSteps_of_idle _ (hsame.phase.trans hphase)] at hexec
        cases h.symm.trans hexec
        rw [hsame]

end InRange

/-! ### Which fault a command can raise (R145, R149) -/

/-- The faults a command can raise at its start: an operand that is not legal, a length that its
check refuses, or, of five commands, a read out of range. -/
def AllowedFault (i : Instr) (s t : State) : Prop :=
  (t.status.cause = .illegalOperand ∧ i.wellFormed = false ∧ t.finfo = s.cwl.setWidth 64) ∨
  (t.status.cause = .badLength ∧
    ∃ a lo hi, i.lengthRange s.params = some (a, lo, hi) ∧ t.finfo = s.operand a) ∨
  (t.status.cause = .oobRead ∧ ∃ d a b c,
    i = .rdb d a ∨ i = .rdle32 d a ∨ i = .rdle64 d a ∨ i = .wpmixb d a b c ∨ i = .h32 d a b c)

/-- The ROM has no word at the indices above 5 alone (R33). -/
theorem rom_eq_none_iff (P : Params) (k : Imm6) : rom P k = none ↔ 5 < k.val := by
  refine ⟨fun h => Nat.lt_of_not_le fun hk => ?_, rom_eq_none P⟩
  obtain ⟨n, hn⟩ := k
  replace hk : n ≤ 5 := hk
  interval_cases n <;> cases h

/-- The fault of an operand that is not legal is allowed to an ill-formed command. -/
theorem allowedFault_illegalOperand {i : Instr} (s : State) (hwf : ¬i.wellFormed = true) :
    AllowedFault i s s.illegalOperand :=
  .inl ⟨rfl, Bool.eq_false_iff.mpr hwf, rfl⟩

/-- A command that ends in reads faults with `OOB_READ` or not at all. -/
theorem completeRead_fault (s : State) (r : Read (List (Reg × Word))) :
    (s.completeRead r).status.fault = s.status.fault ∨
      (s.completeRead r).status.cause = .oobRead := by
  cases r with
  | ok ws => exact .inl rfl
  | error off => exact .inr rfl

/-- A length command at its start faults on its length, or not at all. -/
theorem exec_length_fault {i : Instr} {a : Reg} {lo hi : Nat} {s t : State}
    (hrange : i.lengthRange s.params = some (a, lo, hi)) (hstage : s.stage = .start)
    (h : exec i s = .next t)
    (hok : (s.operand a).toNat ≤ s.buf.len.toNat → lo ≤ (s.operand a).toNat →
      (s.operand a).toNat ≤ hi → t.status.fault = s.status.fault) :
    t.status.fault = s.status.fault ∨ AllowedFault i s t := by
  by_cases hbad : s.buf.len.toNat < (s.operand a).toNat ∨ (s.operand a).toNat < lo ∨
      hi < (s.operand a).toNat
  · cases (exec_badLength hrange hstage hbad).symm.trans h
    exact .inr (.inr (.inl ⟨rfl, a, lo, hi, hrange, rfl⟩))
  · push Not at hbad
    obtain ⟨hN, hlo, hhi⟩ := hbad
    exact .inl (hok hN hlo hhi)

/-- A closed-form command at its start is one of these. -/
theorem exec_closedForm_fault {i : Instr} {d a : Reg} {lo hi : Nat} {s t : State}
    {path : Params → Buffer → Word → Read Word}
    (hexec : exec i s = .next (closedForm path lo hi d a s))
    (hrange : i.lengthRange s.params = some (a, lo, hi)) (hstage : s.stage = .start)
    (h : exec i s = .next t)
    (hpath : lo ≤ (s.operand a).toNat →
      ReadsInside (s.operand a).toNat (wordsOf s.buf) fun B => path s.params B (s.operand a)) :
    t.status.fault = s.status.fault ∨ AllowedFault i s t := by
  refine exec_length_fault hrange hstage h fun hN hlo hhi => ?_
  obtain ⟨v, -, hv⟩ := closedForm_inRange (d := d) (hpath hlo) hN hlo hhi
  cases h.symm.trans hexec
  rw [hv, State.complete_status]

/-- A command at its start raises no fault that R145 does not allow it. -/
theorem exec_allowedFault {i : Instr} {s t : State} (h : exec i s = .next t)
    (hstage : s.stage = .start) : t.status.fault = s.status.fault ∨ AllowedFault i s t := by
  cases i with
  | ldk d k =>
    simp only [exec, execLdk] at h
    split at h <;> cases h
    · exact .inl rfl
    · rename_i hrom
      refine .inr (allowedFault_illegalOperand s fun hwf => ?_)
      have hk : k.val ≤ 5 := of_decide_eq_true (Bool.and_eq_true_iff.mp hwf).2
      exact absurd ((rom_eq_none_iff _ k).mp hrom) (Nat.not_lt.mpr hk)
  | wpmix d a =>
    simp only [exec, execWpmix] at h
    split_ifs at h with hfits <;> cases h
    · exact .inl rfl
    · exact .inr (allowedFault_illegalOperand s fun hwf => hfits (Bool.and_eq_true_iff.mp hwf).1)
  | wpmixb d a b c =>
    simp only [exec, execWpmixb] at h
    split_ifs at h with hfits <;> cases h
    · exact (completeRead_fault s _).imp_right fun hc =>
        .inr (.inr ⟨hc, d, a, b, c, .inr (.inr (.inr (.inl rfl)))⟩)
    · exact .inr (allowedFault_illegalOperand s fun hwf => hfits (Bool.and_eq_true_iff.mp hwf).1)
  | h32 d a b c =>
    simp only [exec, execH32] at h
    split_ifs at h with hfits <;> cases h
    · exact (completeRead_fault s _).imp_right fun hc =>
        .inr (.inr ⟨hc, d, a, b, c, .inr (.inr (.inr (.inr rfl)))⟩)
    · exact .inr (allowedFault_illegalOperand s fun hwf => hfits (Bool.and_eq_true_iff.mp hwf).1)
  | rdb d a =>
    cases h
    exact (completeRead_fault s _).imp_right fun hc => .inr (.inr ⟨hc, d, a, a, a, .inl rfl⟩)
  | rdle32 d a =>
    cases h
    exact (completeRead_fault s _).imp_right fun hc => .inr (.inr ⟨hc, d, a, a, a, .inr (.inl rfl)⟩)
  | rdle64 d a =>
    cases h
    exact (completeRead_fault s _).imp_right fun hc =>
      .inr (.inr ⟨hc, d, a, a, a, .inr (.inr (.inl rfl))⟩)
  | hl0_16 =>
    exact exec_closedForm_fault rfl rfl hstage h fun _ => .hashLen0to16 _
  | hl17_32 => exact exec_closedForm_fault rfl rfl hstage h .hashLen17to32
  | hl33_64 => exact exec_closedForm_fault rfl rfl hstage h .hashLen33to64
  | hl33_64na => exact exec_closedForm_fault rfl rfl hstage h .hashLen33to64na
  | hl65_96 => exact exec_closedForm_fault rfl rfl hstage h .hashLen65to96
  | na64 | na64s | uo64s | hash64 | hash64s =>
    exact exec_length_fault rfl hstage h fun hN _ hmax => exec_loop_noFault rfl hstage hN hmax h
  | _ =>
    cases h
    exact .inl rfl

/-- Settles O38: a command that faults from a state without one has raised the fault. -/
theorem faultCausesAndInformation : Obligations.FaultCausesAndInformation := by
  intro i s t h hstage hs ht
  rcases exec_allowedFault h hstage with hsame | hallowed
  · exact absurd (ht.symm.trans (hsame.trans hs)) (by decide)
  · exact hallowed

end Sys2Proof.Machine

/-! One command from two states (R143, R48): it ends alike where they agree in the operands, the
constants and the buffer's length, and with the same results where the buffers are the same. -/

namespace Sys2Proof.Machine

/-! ### One command from two states -/

/-- What holds of all sources of a command with two or three of them holds of each. -/
theorem agree_pair {f g : Reg → Word} {a b : Reg} (h : ∀ r ∈ [a, b], f r = g r) :
    f a = g a ∧ f b = g b := by
  simpa using h

theorem agree_triple {f g : Reg → Word} {a b c : Reg} (h : ∀ r ∈ [a, b, c], f r = g r) :
    f a = g a ∧ f b = g b ∧ f c = g c := by
  simpa using h

/-- Two reads of the same kind: both answer, or both fail at the same offset. -/
inductive SameKind {α : Type} : Read α → Read α → Prop where
  | ok (v v' : α) : SameKind (.ok v) (.ok v')
  | error (off : Nat) : SameKind (.error off) (.error off)

theorem SameKind.bind {α β : Type} {r r' : Read α} {f f' : α → Read β} (h : SameKind r r')
    (hf : ∀ v v', SameKind (f v) (f' v')) : SameKind (r >>= f) (r' >>= f') := by
  cases h with
  | ok v v' => exact hf v v'
  | error off => exact .error off

section Kind

variable {B B' : Buffer} (h : B'.len = B.len)
include h

/-- Whether a read is in range depends on the buffer's length alone (R40). -/
theorem SameKind.memRead (off n : Nat) : SameKind (memRead B off n) (memRead B' off n) := by
  rw [Machine.memRead, Machine.memRead, h]
  split_ifs
  · exact .error off
  · exact .ok _ _

theorem SameKind.weakPairMixAt (off : Nat) (a b : Word) :
    SameKind (weakPairMixAt B off a b) (weakPairMixAt B' off a b) :=
  .bind (.memRead h _ _) fun _ _ => .bind (.memRead h _ _) fun _ _ =>
  .bind (.memRead h _ _) fun _ _ => .bind (.memRead h _ _) fun _ _ => .ok _ _

theorem SameKind.windowHash (P : Params) (off : Nat) (mul s0 s1 : Word) :
    SameKind (windowHash P B off mul s0 s1) (windowHash P B' off mul s0 s1) :=
  .bind (.memRead h _ _) fun _ _ => .bind (.memRead h _ _) fun _ _ =>
  .bind (.memRead h _ _) fun _ _ => .bind (.memRead h _ _) fun _ _ => .ok _ _

end Kind

/-- `s` and `s'` give the command `i` the same operands, word and parameters and a buffer of the
same length; and, where `same` says so, the same bytes. -/
structure SameInputs (same : Prop) (i : Instr) (s s' : State) : Prop where
  operand : ∀ r ∈ i.sources, s'.operand r = s.operand r
  cwl : s'.cwl = s.cwl
  params : s'.params = s.params
  len : s'.buf.len = s.buf.len
  bytes : same → s'.buf = s.buf

/-- A command with the destinations `ds` ends alike from `s` and from `s'`: it writes its
destinations in both, the same values where `same` says so, or takes the same fault. -/
inductive SameEnd (same : Prop) (ds : List Reg) (s s' : State) : Result → Result → Prop where
  | completed (ws ws' : List (Reg × Word)) (h : ws.map Prod.fst = ds) (h' : ws'.map Prod.fst = ds)
      (hsame : same → ws' = ws) :
      SameEnd same ds s s' (.next (s.complete ws)) (.next (s'.complete ws'))
  | faulted (cause : Cause) (info : Word) :
      SameEnd same ds s s' (.next (s.takeFault cause info)) (.next (s'.takeFault cause info))

section TwoStates

variable {same : Prop} {ds : List Reg} {s s' : State}

/-- The same writes from both. -/
theorem SameEnd.writes (ws : List (Reg × Word)) (h : ws.map Prod.fst = ds) :
    SameEnd same ds s s' (.next (s.complete ws)) (.next (s'.complete ws)) :=
  .completed ws ws h h fun _ => rfl

theorem SameEnd.illegalOperand (h : s'.cwl = s.cwl) :
    SameEnd same ds s s' (.next s.illegalOperand) (.next s'.illegalOperand) := by
  rw [State.illegalOperand, State.illegalOperand, h]
  exact .faulted _ _

/-- A result computed with reads: the reads are of the same kind, and the same on the same buffer.
-/
theorem SameEnd.completeRead {α : Type} {f : Buffer → Read α} {ws : α → List (Reg × Word)}
    (hkind : SameKind (f s.buf) (f s'.buf)) (hws : ∀ v, (ws v).map Prod.fst = ds)
    (hparams : s'.params = s.params) (hbytes : same → s'.buf = s.buf) :
    SameEnd same ds s s' (.next (s.completeRead do return ws (← f s.buf)))
      (.next (s'.completeRead do return ws (← f s'.buf))) := by
  have hsame : same → f s'.buf = f s.buf := fun h => congrArg f (hbytes h)
  generalize f s.buf = r, f s'.buf = r' at hkind hsame
  cases hkind with
  | ok v v' =>
    refine .completed (ws v) (ws v') (hws v) (hws v') fun h => ?_
    rw [Except.ok.inj (hsame h)]
  | error off =>
    show SameEnd same ds s s' (.next (s.oobRead off)) (.next (s'.oobRead off))
    rw [State.oobRead, State.oobRead, hparams]
    exact .faulted _ _

/-- A closed-form command: its check sees the length alone, and in range its path answers. -/
theorem SameEnd.closedForm {path : Params → Buffer → Word → Read Word} {lo hi : Nat} {d a : Reg}
    (hoperand : s'.operand a = s.operand a) (hparams : s'.params = s.params)
    (hlen : s'.buf.len = s.buf.len) (hbytes : same → s'.buf = s.buf)
    (hpath : lo ≤ (s.operand a).toNat → ∀ W,
      ReadsInside (s.operand a).toNat W fun B => path s.params B (s.operand a)) :
    SameEnd same [d] s s' (.next (closedForm path lo hi d a s))
      (.next (closedForm path lo hi d a s')) := by
  by_cases hbad : s.buf.len.toNat < (s.operand a).toNat ∨ (s.operand a).toNat < lo ∨
      hi < (s.operand a).toNat
  · simp only [Machine.closedForm, State.checkLength_bad _ _ hbad, hoperand]
    rw [State.checkLength_bad s' _ (hlen ▸ hbad)]
    exact .faulted _ _
  · push Not at hbad
    obtain ⟨hN, hlo, hhi⟩ := hbad
    obtain ⟨v, hpv, hv⟩ := closedForm_inRange (d := d) (hpath hlo _) hN hlo hhi
    obtain ⟨v', hpv', hv'⟩ := closedForm_inRange (s := s') (path := path) (lo := lo) (hi := hi)
      (d := d) (a := a)
      (by rw [hoperand, hparams]; exact hpath hlo _) (by rw [hoperand, hlen]; exact hN)
      (by rw [hoperand]; exact hlo) (by rw [hoperand]; exact hhi)
    rw [hv, hv']
    refine .completed _ _ rfl rfl fun h => ?_
    rw [hoperand, hparams, hbytes h, hpv] at hpv'
    rw [Except.ok.inj hpv']

/-- A command that runs no loop ends alike from states that give it the same inputs. -/
theorem SameInputs.exec_end {i : Instr} (h : SameInputs same i s s') (hi : i.loopAbove = none) :
    SameEnd same i.dests s s' (exec i s) (exec i s') := by
  obtain ⟨hop, hcwl, hparams, hlen, hbytes⟩ := h
  cases i with
  | ldi d n => exact .writes _ rfl
  | ldk d k =>
    simp only [exec, execLdk, hparams]
    split
    · exact .writes _ rfl
    · exact .illegalOperand hcwl
  | shri d a n | shli d a n | rotri d a n | rotli d a n | mov d a | shiftmix d a =>
    have ha := hop a (.head _)
    simp only [exec, execShri, execShli, execRotri, execRotli, execMov, execShiftmix, ha]
    exact .writes _ rfl
  | add d a b | sub d a b | mul d a b | xor d a b | and d a b | rotr d a b | rotl d a b
  | hl16k d a b | swap a b =>
    obtain ⟨ha, hb⟩ := agree_pair hop
    simp only [exec, execAdd, execSub, execMul, execXor, execAnd, execRotr, execRotl, execHl16k,
      execSwap, ha, hb, hparams]
    exact .writes _ rfl
  | hl16 d a b c | hmix d a b c r =>
    obtain ⟨ha, hb, hc⟩ := agree_triple hop
    simp only [exec, execHl16, execHmix, ha, hb, hc]
    exact .writes _ rfl
  | wpmix d a =>
    have hgroup : ∀ r ∈ [a, groupReg a 1, groupReg a 2, groupReg a 3, groupReg a 4, groupReg a 5],
      s'.operand r = s.operand r := hop
    simp only [List.forall_mem_cons] at hgroup
    obtain ⟨h0, h1, h2, h3, h4, h5, -⟩ := hgroup
    simp only [exec, execWpmix, h0, h1, h2, h3, h4, h5]
    split_ifs
    · exact .writes _ rfl
    · exact .illegalOperand hcwl
  | wpmixb d a b c =>
    obtain ⟨ha, hb, hc⟩ := agree_triple hop
    simp only [exec, execWpmixb, ha, hb, hc]
    split_ifs
    · exact .completeRead (f := fun B => weakPairMixAt B _ _ _) (.weakPairMixAt hlen _ _ _)
        (fun _ => rfl) hparams hbytes
    · exact .illegalOperand hcwl
  | h32 d a b c =>
    have hgroup : ∀ r ∈ [a, b, c, groupReg c 1], s'.operand r = s.operand r := hop
    simp only [List.forall_mem_cons] at hgroup
    obtain ⟨ha, hb, hc, hc1, -⟩ := hgroup
    simp only [exec, execH32, ha, hb, hc, hc1, hparams]
    split_ifs
    · exact .completeRead (f := fun B => windowHash _ B _ _ _ _) (.windowHash hlen _ _ _ _ _)
        (fun _ => rfl) hparams hbytes
    · exact .illegalOperand hcwl
  | rdb d a =>
    simp only [exec, execRdb, hop a (.head _)]
    exact .completeRead (f := fun B => byteRead B _) (.memRead hlen _ _) (fun _ => rfl) hparams
      hbytes
  | rdle32 d a =>
    simp only [exec, execRdle32, hop a (.head _)]
    exact .completeRead (f := fun B => fetch32 B _) (.memRead hlen _ _) (fun _ => rfl) hparams
      hbytes
  | rdle64 d a =>
    simp only [exec, execRdle64, hop a (.head _)]
    exact .completeRead (f := fun B => fetch64 B _) (.memRead hlen _ _) (fun _ => rfl) hparams
      hbytes
  | hl0_16 d a =>
    exact .closedForm (hop a (.head _)) hparams hlen hbytes fun _ _ => .hashLen0to16 _
  | hl17_32 d a =>
    exact .closedForm (hop a (.head _)) hparams hlen hbytes fun h _ => .hashLen17to32 h
  | hl33_64 d a =>
    exact .closedForm (hop a (.head _)) hparams hlen hbytes fun h _ => .hashLen33to64 h
  | hl33_64na d a =>
    exact .closedForm (hop a (.head _)) hparams hlen hbytes fun h _ => .hashLen33to64na h
  | hl65_96 d a =>
    exact .closedForm (hop a (.head _)) hparams hlen hbytes fun h _ => .hashLen65to96 h
  | na64 | na64s | uo64s | hash64 | hash64s => cases hi

end TwoStates

/-! ### A buffer changed under a running command (R48, U4) -/

/-- The length check of a loop command (R136). -/
theorem lengthRange_of_loopAbove {i : Instr} {a : Reg} {n : Nat} (h : i.loopAbove = some (a, n))
    (P : Params) : i.lengthRange P = some (a, 0, P.maxLen) := by
  cases i with
  | na64 | na64s | uo64s | hash64 | hash64s =>
    cases h
    rfl
  | _ => cases h

/-- The state `s` after the host has changed bytes of the buffer under its running command. -/
def State.disturb (s : State) (cells : Memory) : State :=
  { s with disturbed := true, buf := { s.buf with cells } }

/-- A loop command on a length in range completes, on its loop or on its closed form. -/
theorem exec_inRange_completes {i : Instr} {a : Reg} {n : Nat} {s : State}
    (hi : i.loopAbove = some (a, n)) (hrun : s.phase = .run)
    (hN : (s.operand a).toNat ≤ s.buf.len.toNat) (hmax : (s.operand a).toNat ≤ s.params.maxLen)
    (hat : s.stage ≠ .start → LoopAt s (s.operand a)) :
    ∃ d v, i.dests = [d] ∧ exec i s = .next (s.complete [(d, v)]) := by
  by_cases hL : (s.operand a).toNat ≤ n
  · exact exec_closed_completes hi hL hN hmax
  · exact exec_loop_completes hi hrun (Nat.not_le.mp hL) hN (fun _ => hmax) hat

/-- Past its first step a loop command has checked its length and stands at a step of its loop. -/
theorem CoreInv.loopAt {i : Instr} {a : Reg} {n : Nat} {s : State} (hinv : CoreInv s)
    (hd : decode s.cwl = .ok i) (hi : i.loopAbove = some (a, n)) (hstage : s.stage ≠ .start) :
    (s.operand a).toNat ≤ s.buf.len.toNat ∧ LoopAt s (s.operand a) := by
  obtain ⟨j, b, m, hdj, hj, -, hN, hat⟩ := hinv.loop hstage
  cases hd.symm.trans hdj
  cases hi.symm.trans hj
  exact ⟨hN, hat⟩

/-- A running loop command faults on its length, or completes, whatever the bytes are. -/
theorem exec_loop_disturb {i : Instr} {a : Reg} {n : Nat} {s : State} (hinv : CoreInv s)
    (hrun : s.phase = .run) (hd : decode s.cwl = .ok i) (hi : i.loopAbove = some (a, n))
    (cells : Memory) :
    SameEnd False i.dests s (s.disturb cells) (exec i s) (exec i (s.disturb cells)) := by
  by_cases hN : (s.operand a).toNat ≤ s.buf.len.toNat
  · have hmax := hN.trans hinv.bufferFits
    have hat : s.stage ≠ .start → LoopAt s (s.operand a) := fun hstage =>
      (hinv.loopAt hd hi hstage).2
    obtain ⟨d, v, hdests, h⟩ := exec_inRange_completes hi hrun hN hmax hat
    obtain ⟨d', v', hdests', h'⟩ :=
      exec_inRange_completes (s := s.disturb cells) hi hrun hN hmax hat
    rw [h, h']
    exact .completed _ _ hdests.symm hdests'.symm False.elim
  · have hstage : s.stage = .start := by
      by_contra hstage
      exact hN (hinv.loopAt hd hi hstage).1
    have hrange := lengthRange_of_loopAbove hi s.params
    have hlong := Nat.not_le.mp hN
    rw [exec_badLength hrange hstage (.inl hlong),
      exec_badLength (s := s.disturb cells) hrange hstage (.inl hlong)]
    exact .faulted _ _

/-- Settles O43: the command ends alike on any bytes, and what an end changes beside its
destinations does not depend on them. -/
theorem disturbedBufferLeavesAllButTheResult :
    Obligations.DisturbedBufferLeavesAllButTheResult := by
  intro s t t' i cells hinv hrun hd ht ht'
  have hexec : exec i s = .next t := (running_of_decode hrun hd exec).symm.trans ht
  have hexec' : exec i (s.disturb cells) = .next t' :=
    (running_of_decode (s := s.disturb cells) hrun hd exec).symm.trans ht'
  have hend : SameEnd False i.dests s (s.disturb cells) (exec i s) (exec i (s.disturb cells)) := by
    cases hi : i.loopAbove with
    | none => exact SameInputs.exec_end ⟨fun _ _ => rfl, rfl, rfl, rfl, False.elim⟩ hi
    | some p => exact exec_loop_disturb hinv hrun hd hi cells
  rw [hexec, hexec'] at hend
  cases hend with
  | completed ws ws' h h' =>
    refine ⟨rfl, rfl, rfl, rfl, rfl, fun r hr => ?_⟩
    rw [(CommandEnd.completed ws h).reg_other hr, (CommandEnd.completed ws' h').reg_other hr]
    rfl
  | faulted cause info => exact ⟨rfl, rfl, rfl, rfl, rfl, fun _ _ => rfl⟩

/-! ### The outcome is a function of the inputs (R143, R32) -/

/-- `t` and `t'` show the same outcome of a command whose destinations are `ds`: the same `STATUS`
and phase, and the same results or the same `FINFO`. -/
structure SameAnswer (ds : List Reg) (t t' : State) : Prop where
  status : t.status = t'.status
  phase : t.phase = t'.phase
  result : t.status.fault = false → ∀ r ∈ ds, t.reg r = t'.reg r
  finfo : t.status.fault = true → t.finfo = t'.finfo

/-- A register that is written holds what is written, whatever it held. -/
theorem written_mem {ws : List (Reg × Word)} {r : Reg} (h : r ∈ ws.map Prod.fst) (old old' : Word) :
    written ws r old = written ws r old' := by
  induction ws generalizing old old' with
  | nil => cases h
  | cons w ws ih =>
    obtain ⟨q, v⟩ := w
    by_cases hr : r ∈ ws.map Prod.fst
    · exact ih hr _ _
    · have hq : q = r := ((List.mem_cons.mp h).resolve_right hr).symm
      simp only [written, if_pos hq]

section Answer

variable {s s' t t' : State}

theorem Completed.sameAnswer {ws : List (Reg × Word)} (h : Completed s t ws)
    (h' : Completed s' t' ws) (hstatus : s.status = s'.status) (hfault : s.status.fault = false) :
    SameAnswer (ws.map Prod.fst) t t' where
  status := by rw [h.status, h'.status, hstatus]
  phase := h.phase.trans h'.phase.symm
  result _ r hr := by rw [h.reg, h'.reg, written_mem hr]
  finfo ht := by
    rw [h.status] at ht
    exact absurd (hfault.symm.trans ht) (by decide)

theorem Faulted.sameAnswer {cause : Cause} {info : Word} (h : Faulted s t cause info)
    (h' : Faulted s' t' cause info) (hstatus : s.status = s'.status) (ds : List Reg) :
    SameAnswer ds t t' where
  status := by rw [h.status, h'.status, hstatus]
  phase := h.phase.trans h'.phase.symm
  result ht := by
    rw [h.status] at ht
    cases ht
  finfo _ := h.finfo.trans h'.finfo.symm

/-- A command that ends alike and undisturbed shows the same outcome. -/
theorem SameEnd.sameAnswer {ds : List Reg} (h : SameEnd True ds s s' (.next t) (.next t'))
    (hs : s.disturbed = false) (hs' : s'.disturbed = false) (hstatus : s.status = s'.status)
    (hfault : s.status.fault = false) : SameAnswer ds t t' := by
  cases h with
  | completed ws ws' hds hds' hsame =>
    cases hsame trivial
    subst hds
    exact (completed_undisturbed hs ws).sameAnswer (completed_undisturbed hs' ws) hstatus hfault
  | faulted cause info =>
    exact (faulted_takeFault s cause info).sameAnswer (faulted_takeFault s' cause info) hstatus _

/-- What a loop command does from a ready state, by the length `L`: it computes `value`, or faults.
-/
def LengthResult (i : Instr) (s : State) (d : Reg) (L N max : Nat) (info : Word)
    (value : Read Word) : Prop :=
  (L ≤ N → L ≤ max → CompletesWith i s d value) ∧ (L > N ∨ L > max → TakesFault i s .badLength info)

/-- Two states with the same length, value and bounds give the same outcome. -/
theorem LengthResult.sameAnswer {i : Instr} {d : Reg} {L N max : Nat} {info : Word}
    {value : Read Word} (h : LengthResult i s d L N max info value)
    (h' : LengthResult i s' d L N max info value) (ht : exec i s = .next t)
    (ht' : exec i s' = .next t') (hstatus : s.status = s'.status)
    (hfault : s.status.fault = false) : SameAnswer [d] t t' := by
  by_cases hL : L > N ∨ L > max
  · obtain ⟨u, hu, hf⟩ := h.2 hL
    obtain ⟨u', hu', hf'⟩ := h'.2 hL
    cases ht.symm.trans hu
    cases ht'.symm.trans hu'
    exact hf.sameAnswer hf' hstatus _
  · push Not at hL
    obtain ⟨v, u, hv, hu, hc⟩ := h.1 hL.1 hL.2
    obtain ⟨v', u', hv', hu', hc'⟩ := h'.1 hL.1 hL.2
    cases ht.symm.trans hu
    cases ht'.symm.trans hu'
    cases hv.symm.trans hv'
    exact hc.sameAnswer hc' hstatus hfault

/-- From two ready states with the same parameters, buffer and source registers a loop command
computes one value, or faults on one length (R125, R126, R131, R139, R141). -/
theorem lengthResult_of_loopAbove {i : Instr} {a : Reg} {n : Nat} (hi : i.loopAbove = some (a, n))
    (hs : Ready i s) (hs' : Ready i s') (hbuf : s.buf = s'.buf) (hparams : s.params = s'.params)
    (hregs : ∀ r ∈ i.sources, s.reg r = s'.reg r) :
    ∃ d L N max info value, i.dests = [d] ∧ LengthResult i s d L N max info value ∧
      LengthResult i s' d L N max info value := by
  cases i with
  | na64 d a =>
    have ha := hregs a (.head _)
    obtain ⟨-, h, -, -⟩ := loopCommandsComputeTheirFunctions d a a a s
    obtain ⟨-, h', -, -⟩ := loopCommandsComputeTheirFunctions d a a a s'
    rw [← hbuf, ← hparams, ← ha] at h'
    exact ⟨d, _, _, _, _, _, rfl, h hs, h' hs'⟩
  | na64s d a b c =>
    obtain ⟨ha, hb, hc⟩ := agree_triple hregs
    obtain ⟨-, -, h, -⟩ := loopCommandsComputeTheirFunctions d a b c s
    obtain ⟨-, -, h', -⟩ := loopCommandsComputeTheirFunctions d a b c s'
    rw [← hbuf, ← hparams, ← ha, ← hb, ← hc] at h'
    exact ⟨d, _, _, _, _, _, rfl, h hs, h' hs'⟩
  | uo64s d a b c =>
    obtain ⟨ha, hb, hc⟩ := agree_triple hregs
    obtain ⟨-, -, -, h⟩ := loopCommandsComputeTheirFunctions d a b c s
    obtain ⟨-, -, -, h'⟩ := loopCommandsComputeTheirFunctions d a b c s'
    rw [← hbuf, ← hparams, ← ha, ← hb, ← hc] at h'
    exact ⟨d, _, _, _, _, _, rfl, h hs, h' hs'⟩
  | hash64 d a =>
    have ha := hregs a (.head _)
    obtain ⟨-, h, -⟩ := hashCommandsComputeTheDispatcher d a a a s
    obtain ⟨-, h', -⟩ := hashCommandsComputeTheDispatcher d a a a s'
    rw [← hbuf, ← hparams, ← ha] at h'
    exact ⟨d, _, _, _, _, _, rfl, h hs, h' hs'⟩
  | hash64s d a b c =>
    obtain ⟨ha, hb, hc⟩ := agree_triple hregs
    obtain ⟨-, -, h⟩ := hashCommandsComputeTheDispatcher d a b c s
    obtain ⟨-, -, h'⟩ := hashCommandsComputeTheDispatcher d a b c s'
    rw [← hbuf, ← hparams, ← ha, ← hb, ← hc] at h'
    exact ⟨d, _, _, _, _, _, rfl, h hs, h' hs'⟩
  | _ => cases hi

end Answer

/-- Settles O41: a command that runs no loop ends alike, and a loop command computes one value of
the parameters, the buffer and its operands, or faults on one length. -/
theorem resultsDependOnOperandsAndBufferAlone :
    Obligations.ResultsDependOnOperandsAndBufferAlone := by
  intro i s s' t t' hs hs' hbuf hcwl hparams hstatus hfault hregs ht ht'
  have hanswer : SameAnswer i.dests t t' := by
    cases hi : i.loopAbove with
    | none =>
      have hinputs : SameInputs True i s s' :=
        ⟨fun r hr => by rw [hs.latched r hr, hs'.latched r hr, hregs r hr], hcwl.symm,
          hparams.symm, by rw [hbuf], fun _ => hbuf.symm⟩
      have hend := hinputs.exec_end hi
      rw [ht, ht'] at hend
      exact hend.sameAnswer hs.undisturbed hs'.undisturbed hstatus hfault
    | some p =>
      obtain ⟨d, L, N, max, info, value, hdests, h, h'⟩ :=
        lengthResult_of_loopAbove hi hs hs' hbuf hparams hregs
      rw [hdests]
      exact h.sameAnswer h' ht ht' hstatus hfault
  exact ⟨hanswer.status, hanswer.phase, hanswer.result, hanswer.finfo⟩

end Sys2Proof.Machine

/-! The host's port (R20 to R29, R48): what a read, a write, an attachment and a change of the
backing bytes do, and which accesses are in the map. -/

namespace Sys2Proof.Machine

/-! ### `STATUS` as the host reads it (R22, R145) -/

/-- Every cause's code fits in four bits. -/
theorem Cause.code_lt (c : Cause) : c.code < 16 := by
  cases c <;> decide

/-- The fields of `STATUS` in their places, as a number. -/
theorem status_word_toNat (st : Status) :
    st.word.toNat = st.cause.code * 2 ^ 8 + st.ovr.toNat * 2 ^ 3 + st.fault.toNat * 2 ^ 2 +
      st.done.toNat * 2 ^ 1 + st.busy.toNat := by
  have hcode := st.cause.code_lt
  have hovr := st.ovr.toNat_le
  have hfault := st.fault.toNat_le
  have hdone := st.done.toNat_le
  have hbusy := st.busy.toNat_le
  rw [Status.word, Word.toNat_ofNat, Nat.mod_eq_of_lt]
  omega

/-- A bit of a word, from its place in the word's number. -/
theorem getLsbD_eq_of_toNat {v : Word} {k : Nat} {b : Bool} (h : v.toNat / 2 ^ k % 2 = b.toNat) :
    v.getLsbD k = b := by
  rw [← BitVec.testBit_toNat, Nat.testBit_eq_decide_div_mod_eq, h]
  cases b <;> rfl

/-- Each flag is one bit of the word the host reads, and every reserved bit is 0. -/
theorem status_word_bits (st : Status) :
    st.word.getLsbD 0 = st.busy ∧ st.word.getLsbD 1 = st.done ∧ st.word.getLsbD 2 = st.fault ∧
      st.word.getLsbD 3 = st.ovr ∧ st.word.toNat / 2 ^ 8 % 2 ^ 4 = st.cause.code ∧
      (∀ k, 4 ≤ k → k ≤ 7 → st.word.getLsbD k = false) ∧
      ∀ k, 12 ≤ k → st.word.getLsbD k = false := by
  have hcode := st.cause.code_lt
  have hovr := st.ovr.toNat_le
  have hfault := st.fault.toNat_le
  have hdone := st.done.toNat_le
  have hbusy := st.busy.toNat_le
  have hword := status_word_toNat st
  have hlow (k : Nat) (h4 : 4 ≤ k) (h7 : k ≤ 7) : st.word.toNat / 2 ^ k % 2 = false.toNat := by
    rw [Bool.toNat_false]
    interval_cases k <;> omega
  have hhigh (k : Nat) (h12 : 12 ≤ k) : st.word.toNat / 2 ^ k % 2 = false.toNat := by
    have hpow : 2 ^ 12 ≤ 2 ^ k := Nat.pow_le_pow_right (by decide) h12
    rw [Nat.div_eq_of_lt (by omega)]
    rfl
  refine ⟨getLsbD_eq_of_toNat ?_, getLsbD_eq_of_toNat ?_, getLsbD_eq_of_toNat ?_,
    getLsbD_eq_of_toNat ?_, ?_, fun k h4 h7 => getLsbD_eq_of_toNat (hlow k h4 h7),
    fun k h12 => getLsbD_eq_of_toNat (hhigh k h12)⟩
  all_goals omega

/-- A host read of a listed register is one step that returns its value. -/
theorem step_of_hostRead {s : State} {off width : Nat} {rest : List Turn} {q : HostReg}
    (h : s.agenda = .host (.read off width) :: rest) (hq : accessed off width = some q) :
    step s = .next { s with agenda := rest, readData := s.hostValue q } := by
  rw [step_of_host h, hostAct, hq]
  cases q <;> rfl

/-- Settles O52: the read returns the word of `STATUS`, whose bits are its fields. -/
theorem statusReadShowsItsFields : Obligations.StatusReadShowsItsFields :=
  ⟨fun s _ h => ⟨s.status.word, step_of_hostRead (q := .status) h rfl, status_word_bits s.status⟩,
    rfl, rfl, rfl, rfl, rfl⟩

/-! ### The register map (R20 to R28) -/

/-- `CTRL` reads as `IE` in bit 0 (R24). -/
theorem ctrlWord_eq (ie : Bool) : ctrlWord ie = if ie then 1 else 0 := by
  cases ie <;> rfl

/-- Settles O53: each offset names its register, and a read returns that register's value. -/
theorem hostReadsFollowTheRegisterMap : Obligations.HostReadsFollowTheRegisterMap := by
  intro s off rest h
  refine ⟨?cmd, ?ctrl, ?finfo, ?buflen, fun hlo hhi h8 => ?reserved, ?operand⟩
  case cmd =>
    rintro rfl
    exact step_of_hostRead (q := .cmd) h rfl
  case ctrl =>
    rintro rfl
    rw [← ctrlWord_eq]
    exact step_of_hostRead (q := .ctrl) h rfl
  case finfo =>
    rintro rfl
    exact step_of_hostRead (q := .finfo) h rfl
  case buflen =>
    rintro rfl
    exact step_of_hostRead (q := .buflen) h rfl
  case reserved => exact step_of_hostRead h (accessed_reserved hlo hhi h8)
  case operand =>
    rintro r rfl
    exact step_of_hostRead h (accessed_operand r)

/-- Settles O55: each offset names its register, and a write does what that register's rule says. -/
theorem hostWritesFollowTheRegisterMap : Obligations.HostWritesFollowTheRegisterMap := by
  intro s off v rest h
  refine ⟨?operand, ?ctrl, fun hlo hhi h8 => ?reserved, ?readOnly⟩
  case operand =>
    rintro r rfl hbusy
    exact step_operandWrite_taken h hbusy
  case ctrl =>
    rintro rfl
    exact step_ctrlWrite h
  case reserved => exact step_of_hostWrite h (accessed_reserved hlo hhi h8)
  case readOnly =>
    rintro (rfl | rfl)
    · exact step_of_hostWrite (q := .finfo) h rfl
    · exact step_of_hostWrite (q := .buflen) h rfl

/-- The accesses outside the map: another width, an offset between two registers, or one past the
last. -/
theorem accessed_eq_none_iff {off width : Nat} :
    accessed off width = none ↔ width ≠ 64 ∨ off % 8 ≠ 0 ∨ off > 0x178 := by
  simp only [accessed, hostReg]
  split_ifs <;> simp <;> omega

/-- An access is refused exactly when no register is accessed. -/
theorem hostAccess_refused_iff {s : State} {off width : Nat} {v : Word} {rest : List Turn}
    (h : s.agenda = .host (.read off width) :: rest ∨
      s.agenda = .host (.write off width v) :: rest) :
    step s = .refused .badHostAccess ↔ accessed off width = none := by
  rcases h with h | h
  · rw [step_of_host h, hostAct]
    cases accessed off width <;> simp
  · rw [step_of_host h, hostAct]
    cases accessed off width <;> simp

/-- Settles O54: an access is refused exactly outside the map. -/
theorem accessesOutsideTheMapAreRefused : Obligations.AccessesOutsideTheMapAreRefused :=
  fun _ _ _ _ _ h => (hostAccess_refused_iff h).trans accessed_eq_none_iff

/-! ### The buffer (R29, R48) -/

/-- Settles O56: the buffer attached lists the bytes in canonical form. -/
theorem attachSetsTheBuffer : Obligations.AttachSetsTheBuffer := by
  intro s bytes rest h hbusy
  refine ⟨fun hlen => ?taken, fun hlen => ?refused⟩
  case taken =>
    have hmax := Params.maxLen_lt s.params
    have hlt : bytes.length < 2 ^ 64 := Nat.lt_of_le_of_lt hlen hmax
    refine ⟨_, step_attach_taken h hbusy hlen, ?_, fun k hk => ?_, Buffer.wf_ofBytes bytes hlt⟩
    · exact (BitVec.toNat_ofNat ..).trans (Nat.mod_eq_of_lt hlt)
    · rw [Buffer.byteAt_ofBytes, List.getD_eq_getElem _ _ hk]
  case refused =>
    rw [step_of_host h, hostAct, State.attach, if_neg (Bool.eq_false_iff.mp hbusy)]
    exact if_pos hlen

/-- Settles O57: a change is a write of one cell inside `[0, N)`, and nothing outside it. -/
theorem backingChangeTouchesOneByte : Obligations.BackingChangeTouchesOneByte := by
  intro s off b rest hwf h
  refine ⟨s.buf.change off b, ?_, Buffer.change_len _ _ _, Buffer.wf_change hwf off b,
    Buffer.byteAt_change hwf off b⟩
  rw [step_of_host h, hostAct]
  rfl

end Sys2Proof.Machine

/-! The functions the commands share: the rotations (R66), the constant ROM (R33), the views of a
64-bit read (R41), the loop bounds (R117), and what every hash reads of the buffer (R139, R144). -/

namespace Sys2Proof.Machine

/-! ### Rotations (R66) -/

section Rotations

variable (x : Word) (r : Nat)

theorem rotr_mod : rotr x r = rotr x (r % 64) := by
  simp only [rotr, Nat.mod_mod]

theorem rotl_mod : rotl x r = rotl x (r % 64) := by
  simp only [rotl, Nat.mod_mod]

@[simp] theorem rotr_zero : rotr x 0 = x := rfl

@[simp] theorem rotl_zero : rotl x 0 = x := rfl

/-- Bit `k` of a right rotation is the bit `r` places above it, around the word. -/
theorem getLsbD_rotr {k : Nat} (hk : k < 64) :
    (rotr x r).getLsbD k = x.getLsbD ((k + r) % 64) := by
  rw [rotr_mod]
  have hlt : r % 64 < 64 := Nat.mod_lt _ (by decide)
  have hplace : (k + r) % 64 = (k + r % 64) % 64 := by omega
  rw [hplace]
  generalize r % 64 = s at hlt
  by_cases hs : s = 0
  · rw [hs, rotr_zero, Nat.add_zero, Nat.mod_eq_of_lt hk]
  · simp only [rotr, Nat.mod_eq_of_lt hlt, if_neg hs, BitVec.getLsbD_or, BitVec.getLsbD_ushiftRight,
      BitVec.getLsbD_shiftLeft]
    by_cases hwrap : k + s < 64
    · have hbelow : k < 64 - s := by omega
      rw [Nat.mod_eq_of_lt hwrap, Nat.add_comm s k]
      simp [hbelow]
    · have habove : ¬k < 64 - s := by omega
      have hpast : x.getLsbD (s + k) = false :=
        BitVec.getLsbD_of_ge x (s + k) (show 64 ≤ s + k by omega)
      rw [show (k + s) % 64 = k - (64 - s) by omega, hpast]
      simp [habove, hk]

/-- A left rotation is the right rotation by what is left of 64. -/
theorem rotl_eq_rotr (hr : r % 64 ≠ 0) : rotl x (r % 64) = rotr x (64 - r % 64) := by
  have hlt : r % 64 < 64 := Nat.mod_lt _ (by decide)
  have hrest : (64 - r % 64) % 64 = 64 - r % 64 := Nat.mod_eq_of_lt (by omega)
  have hnonzero : 64 - r % 64 ≠ 0 := by omega
  have hcancel : 64 - (64 - r % 64) = r % 64 := by omega
  simp only [rotl, rotr, Nat.mod_mod, hrest, hcancel, if_neg hr, if_neg hnonzero, BitVec.or_comm]

/-- Bit `k` goes `r` places up in a left rotation, around the word. -/
theorem getLsbD_rotl {k : Nat} (hk : k < 64) :
    (rotl x r).getLsbD ((k + r) % 64) = x.getLsbD k := by
  by_cases hr : r % 64 = 0
  · rw [rotl_mod, hr, rotl_zero]
    congr 1
    omega
  · rw [rotl_mod, rotl_eq_rotr x r hr, getLsbD_rotr _ _ (Nat.mod_lt _ (by decide))]
    congr 1
    omega

end Rotations

/-- Settles O12: the rotations are given bit by bit. -/
theorem rotationsReduceTheAmountModulo64 : Obligations.RotationsReduceTheAmountModulo64 :=
  fun x r => ⟨rotr_mod x r, rotl_mod x r, rotr_zero x, rotl_zero x, fun _ => getLsbD_rotr x r,
    fun _ => getLsbD_rotl x r, rotl_eq_rotr x r⟩

/-! ### The constant ROM (R7, R33) -/

/-- No host action changes a parameter, `Reset` included (R36). -/
theorem hostAct_params {a : HostAction} {s t : State} (h : hostAct a s = .next t) :
    t.params = s.params := by
  cases a with
  | write off width v =>
    rw [hostAct] at h
    split at h <;> cases h
    rename_i q _
    cases q with
    | status =>
      rw [State.hostWrite, writeStatus_outside]
    | cmd =>
      rw [State.hostWrite, State.writeCmd]
      split_ifs <;> rfl
    | operand r =>
      rw [State.hostWrite, State.writeOperand]
      split_ifs <;> rfl
    | ctrl | finfo | buflen | reserved => rfl
  | read off width =>
    rw [hostAct] at h
    split at h <;> cases h
    rfl
  | attach bytes =>
    rw [hostAct, State.attach] at h
    split_ifs at h <;> cases h <;> rfl
  | changeBacking off b =>
    cases h
    rfl
  | reset =>
    cases h
    rfl

theorem step_params {s t : State} (h : step s = .next t) : t.params = s.params := by
  obtain ⟨rest, hrun | hsteps | ⟨a, -, hhost⟩⟩ := step_turn h
  · exact (coreTurn_frame (.inl hrun)).params
  · exact (coreTurn_frame (.inr hsteps)).params
  · exact hostAct_params (s := { s with agenda := rest }) hhost

/-- The first accumulator of the na loop with the default constants, as R120 prints it. -/
theorem naInit_default {B : Buffer} {acc acc' : Acc} {first : Word}
    (hfirst : fetch64 B 0 = .ok first) (h : naInit Config.default B acc = .ok acc') :
    acc' = { acc with
      x := 0x01529CBA0CA458FF#64 + first, y := 0x226BB824E66133B8#64, z := 0xB0EC69D3C468191E#64,
      vlo := 0, vhi := 0, wlo := 0, whi := 0 } := by
  rw [naInit, read_bind_of_ok hfirst] at h
  cases h
  have hx : Config.default.SEED_NA * Config.default.K2 = 0x01529CBA0CA458FF#64 := by decide
  have hy : Config.default.SEED_NA * Config.default.K1 + Config.default.C113 =
    0x226BB824E66133B8#64 := by decide
  have hz : shiftMix (0x226BB824E66133B8#64 * Config.default.K2 + Config.default.C113) *
    Config.default.K2 = 0xB0EC69D3C468191E#64 := by decide
  rw [hx, hy, hz]

/-- Settles O14: the ROM by its indices, the parameters by the turns of a step, and the printed
values by computing them. -/
theorem constantRomHoldsSixWords : Obligations.ConstantRomHoldsSixWords := by
  refine ⟨fun P => ⟨rfl, rfl, rfl, rfl, rfl, rfl, rom_eq_none_iff P⟩, fun _ _ => step_params, rfl,
    rfl, rfl, rfl, rfl, rfl, rfl, fun B acc acc' first hfirst h => ?na, ?uo⟩
  case na =>
    rw [naInit_default hfirst h]
    exact ⟨rfl, rfl, rfl, rfl, rfl, rfl, rfl⟩
  case uo => decide

/-! ### The views of one read (R41) -/

/-- `m + n` bytes are `m` bytes and above them `n`. -/
theorem leBytes_add (B : Buffer) (off m n : Nat) :
    leBytes B off (m + n) = leBytes B off m + 2 ^ (8 * m) * leBytes B (off + m) n := by
  induction m generalizing off with
  | zero => simp [leBytes]
  | succ m ih =>
    have hpow : 2 ^ (8 * (m + 1)) = 2 ^ 8 * 2 ^ (8 * m) := by rw [← Nat.pow_add]; congr 1; omega
    rw [Nat.add_right_comm m 1 n, leBytes, leBytes, ih, hpow,
      show off + 1 + m = off + (m + 1) by omega]
    ring

/-- The `n` bytes from byte `k` of a read are the bits of its value from `8 * k` up. -/
theorem leBytes_slice {B : Buffer} {off m k n : Nat} (h : k + n ≤ m) :
    leBytes B off m / 2 ^ (8 * k) % 2 ^ (8 * n) = leBytes B (off + k) n := by
  obtain ⟨j, rfl⟩ := Nat.exists_eq_add_of_le h
  rw [Nat.add_assoc, leBytes_add B off k, leBytes_add B (off + k) n,
    Nat.add_mul_div_left _ _ (by positivity), Nat.div_eq_of_lt (leBytes_lt B off k), Nat.zero_add,
    Nat.add_mul_mod_self_left, Nat.mod_eq_of_lt (leBytes_lt B (off + k) n)]

/-- So a narrow read inside eight bytes is a shift and a mask of the 64-bit read. -/
theorem fetch64_slices {B : Buffer} {off : Nat} (hB : off + 8 ≤ B.len.toNat) :
    ∃ v, fetch64 B off = .ok v ∧ ∀ k n, k + n ≤ 8 →
      memRead B (off + k) n = .ok ((v >>> (8 * k)) &&& BitVec.ofNat 64 (2 ^ (8 * n) - 1)) := by
  have hwide : leBytes B off 8 < 2 ^ 64 := leBytes_lt B off 8
  refine ⟨_, memRead_ok hB, fun k n h => ?_⟩
  have hmask : 2 ^ (8 * n) - 1 < 2 ^ 64 := by
    have := Nat.pow_le_pow_right (n := 2) (by decide) (show 8 * n ≤ 64 by omega)
    omega
  have hnarrow : leBytes B off 8 / 2 ^ (8 * k) % 2 ^ (8 * n) < 2 ^ 64 :=
    Nat.lt_of_le_of_lt ((Nat.mod_le _ _).trans (Nat.div_le_self _ _)) hwide
  rw [memRead_ok (by omega), ← leBytes_slice h]
  congr 1
  apply BitVec.eq_of_toNat_eq
  rw [BitVec.toNat_and, BitVec.toNat_ushiftRight, Word.toNat_ofNat, Word.toNat_ofNat,
    Word.toNat_ofNat, Nat.mod_eq_of_lt hwide, Nat.mod_eq_of_lt hmask, Nat.mod_eq_of_lt hnarrow,
    Nat.and_two_pow_sub_one_eq_mod, Nat.shiftRight_eq_div_pow]

/-- The high half of a word has no bit above its 32. -/
theorem high_half_mask (v : Word) : (v >>> 32) &&& 0xFFFFFFFF#64 = v >>> 32 := by
  have hv := Word.toNat_lt v
  apply BitVec.eq_of_toNat_eq
  rw [BitVec.toNat_and, BitVec.toNat_ushiftRight]
  refine (Nat.and_two_pow_sub_one_eq_mod _ 32).trans (Nat.mod_eq_of_lt ?_)
  rw [Nat.shiftRight_eq_div_pow]
  omega

/-- Settles O16: the halves and the bytes are the reads of four bytes and of one. -/
theorem mixedWidthReadsAgree : Obligations.MixedWidthReadsAgree := by
  intro B off hB
  obtain ⟨v, hv, hslice⟩ := fetch64_slices hB
  refine ⟨v, _, _, hv, hslice 0 4 (by decide), hslice 4 4 (by decide), ?low, ?high,
    fun k hk => hslice k 1 (by omega)⟩
  case low => rfl
  case high => exact high_half_mask v

/-! ### The loop bounds (R117) -/

/-- Settles O30: a length above 64 is `64 * iterations` and a remainder of 1 to 64. -/
theorem loopBoundsCoverTheInput : Obligations.LoopBoundsCoverTheInput := by
  intro L hL
  rw [loopEnd, tailOffset, iterations]
  refine ⟨rfl, ?_, ?_, ?_, ?_, fun k hk => ?_, ?_, ?_⟩
  all_goals omega

/-! ### What a hash reads (R139, R144) -/

/-- What reads inside a length answers the same value on every buffer that holds that length and
agrees on it. -/
theorem ReadsInside.congr {α : Type} {B B' : Buffer} {n : Nat} {f : Buffer → Read α}
    (h : ReadsInside n (wordsOf B) f) (hB : n ≤ B.len.toNat) (hB' : n ≤ B'.len.toNat)
    (hbytes : ∀ k, k < n → B.byteAt k = B'.byteAt k) : ∃ v, f B' = .ok v ∧ f B = .ok v := by
  obtain ⟨v, hv⟩ := h
  exact ⟨v, hv B' (readsAs_of_bytes hB' hbytes), hv B (readsAs_wordsOf hB)⟩

/-- Settles O39: every path reads inside the length, where the buffer and its cut agree. -/
theorem lengthCommandsReadInsideTheLength : Obligations.LengthCommandsReadInsideTheLength := by
  intro P B L s0 s1 hN
  have hcut {f : Buffer → Read Word} (h : ReadsInside L.toNat (wordsOf B) f) :
      ∃ v, f { B with len := L } = .ok v ∧ f B = .ok v :=
    h.congr hN (Nat.le_refl _) fun _ _ => rfl
  exact ⟨fun _ => hcut (.hashLen0to16 L), fun h _ => hcut (.hashLen17to32 h),
    fun h _ => hcut (.hashLen33to64 h), fun h _ => hcut (.hashLen33to64na h),
    fun h _ => hcut (.hashLen65to96 h), hcut (.na64 L), hcut (.na64s L s0 s1),
    hcut (.uo64s L s0 s1), hcut (.farm64 L), hcut (.uo64s L s0 s1)⟩

/-- Settles O40: both dispatchers read inside the length, where the buffers agree. -/
theorem hashIgnoresBytesPastTheLength : Obligations.HashIgnoresBytesPastTheLength := by
  intro P B B' L s0 s1 hB hB' hbytes
  have hsame {f : Buffer → Read Word} (h : ReadsInside L.toNat (wordsOf B) f) : f B = f B' := by
    obtain ⟨v, hv', hv⟩ := h.congr hB hB' hbytes
    rw [hv, hv']
  exact ⟨hsame (.farm64 L), hsame (.uo64s L s0 s1)⟩

end Sys2Proof.Machine
